-- ==== Sys2Proof/Word.lean ====
section
/-! DEFINITION. The widths of 00_scope.md R7: bytes and character codes, host words, symbol values, identifier halves. -/

namespace Sys2Proof

/-- A byte of a buffer, or the 8-bit code of a character (R7). -/
abbrev Byte := BitVec 8

/-- A host register, and a command word (R7, R82). -/
abbrev Word := BitVec 32

/-- A 6-bit symbol value (R7). -/
abbrev Symbol := BitVec 6

/-- One half of the 128-bit identifier: ID_HI or ID_LO (R35). -/
abbrev IdHalf := BitVec 64

/-- A 16-bit pair of neighbouring bytes, in which a straddling bit group is formed (R61). -/
abbrev BytePair := BitVec 16

end Sys2Proof
end

