-- ==== Sys2Proof/Config.lean ====
section
/-! DEFINITION. What an implementation fixes (00_scope.md R6, 20_memory.md R66) and the free values the spec leaves open
(70_reset_and_hazards.md R231). -/

namespace Sys2Proof

/-- The parameters the spec leaves OPEN: the buffer capacities of R6 and the base address of R66.
R6 has the model take them as arguments: a state carries one `Config`, which no step changes (log 1). -/
structure Config where
  /-- P_IBYTES: capacity of IBUF and of RBUF, in bytes. -/
  pIbytes : Nat
  /-- P_SCHARS: capacity of SIN and of SOUT, in characters. -/
  pSchars : Nat
  /-- P_OBYTES: capacity of OBUF and of WBUF, in bytes. -/
  pObytes : Nat
  /-- P_BASE: the base address of the 20-bit host window. -/
  pBase   : Nat
  deriving DecidableEq, Repr

/-- R6's constraints on the capacities; `ceil(8·P_IBYTES/5)` is `(8·P_IBYTES + 4) / 5`. -/
abbrev Config.Admissible (c : Config) : Prop :=
  16 ≤ c.pIbytes ∧ c.pIbytes ≤ 65536 ∧
  (8 * c.pIbytes + 4) / 5 ≤ c.pSchars ∧ 26 ≤ c.pSchars ∧ c.pSchars ≤ 65536 ∧
  (6 * c.pSchars + 1) / 8 ≤ c.pObytes ∧ 16 ≤ c.pObytes ∧ c.pObytes ≤ 65536

/-- WBUF has six bits for every character that SIN can hold. This is what R6's purpose, "ENCODE and DECODE never run out of
buffer for any admitted input", takes of P_OBYTES; R6's own bound, `floor((6·P_SCHARS+1)/8)`, counts complete bytes and does
not imply it (log 21). The reference capacities meet it. -/
abbrev Config.Roomy (c : Config) : Prop := 6 * c.pSchars ≤ 8 * c.pObytes

/-- R6's reference capacities. DESIGN CHOICE (unsafe): base address 0, because the spec gives P_BASE no value (log 2). -/
def Config.reference : Config := { pIbytes := 1024, pSchars := 2048, pObytes := 1536, pBase := 0 }

/-- The buffers whose contents after reset are unspecified (R231). -/
inductive Ram where
  | ibuf | obuf | sin | sout | rbuf
  deriving DecidableEq, Repr

/-- FREE VALUE (log 3): what element `index` of `ram` holds after the `draw`-th reset, before anything is written there.
R231: "A model must treat an element read before any write since reset as an arbitrary value, a draw, not as zero."
It has no body, so nothing can evaluate it, and a claim that mentions it holds whatever the elements are. -/
opaque Config.powerOnByte (draw : Nat) (ram : Ram) (index : Nat) : Byte

end Sys2Proof
end

