-- ==== Sys2Proof/Syntax.lean ====
section
/-! DEFINITION. The commands of CMD-1 (30_encoding.md R85), one constructor per row of the opcode table. -/

namespace Sys2Proof

/-- A command with its operands (R83): `n` is the field N, the immediate is the field IMM8.
Buffer operands are not in the word: they are the registers and buffers each rule names. -/
inductive Instr where
  /-- RD_INIT (R100). -/
  | rdInit
  /-- RD_HASMORE (R101). -/
  | rdHasmore
  /-- RD_READ n (R102). -/
  | rdRead (n : BitVec 3)
  /-- RD_SEEKBACK 1 (R104): 1 is the only legal count, so the count is no operand. -/
  | rdSeekback
  /-- WR_INIT (R120). -/
  | wrInit
  /-- WR_WRITE n, value (R121). -/
  | wrWrite (n : BitVec 3) (value : Byte)
  /-- WR_BTB (R123). -/
  | wrBtb
  /-- WR_TOBYTES (R124). -/
  | wrTobytes
  /-- SYM_ENC v (R145). -/
  | symEnc (v : Byte)
  /-- SYM_DEC c (R146). -/
  | symDec (c : Byte)
  /-- ENCODE (R150). -/
  | encode
  /-- DECODE (R156). -/
  | decode
  /-- ID_TOBYTES (R171). -/
  | idTobytes
  /-- ID_FROMBYTES (R172). -/
  | idFrombytes
  /-- ID_TOBASE62 (R173). -/
  | idTobase62
  /-- ID_FROMBASE62 (R174). -/
  | idFrombase62
  deriving DecidableEq, Repr

end Sys2Proof
end

