-- ==== Sys2Proof/Machine/State.lean ====
section
/-! DEFINITION. The state of the CORE (10_state.md) as plain data, and the state after reset (70_reset_and_hazards.md R230). -/

namespace Sys2Proof.Machine

/-- The error kinds of 60_exceptions.md R200. Success, code 0, is the absence of one. -/
inductive ErrKind where
  /-- 1: DECODE, ID_FROMBASE62, SYM_DEC, SYM_ENC. -/
  | invalidSymbol
  /-- 2: ID_FROMBYTES, ID_FROMBASE62. -/
  | lengthError
  /-- 3: RD_READ, RD_SEEKBACK, and every command while FAULT = 1. -/
  | boundsError
  /-- 4: any CMD write of a word that R85 does not admit. -/
  | illegalCommand
  /-- 5: a length register, or the writer, exceeds a buffer capacity. -/
  | capacityError
  deriving DecidableEq, Repr

/-- STATUS (R24): ERR as the kind of the most recent command's error, and the sticky FAULT.
The codes 6 and 7, which R24 says are never written, have no value here (log 20). -/
structure Status where
  err   : Option ErrKind
  fault : Bool
  deriving DecidableEq, Repr

/-- The host registers of R22's map. -/
inductive HostReg where
  | cmd | status | result | ilen | silen | wcap | olen | solen
  | rcur | rlen | wcur | erridx | idHiU | idHiL | idLoU | idLoL
  deriving DecidableEq, Repr

/-- What reaches the CORE from outside (log 5, log 7): a host access at an absolute address, `size` bytes wide, or an
edge of the platform's reset input (R230). An access narrower than 32 bits carries its data in the low bits of `value`. -/
inductive BusEvent where
  | store (addr size : Nat) (value : Word)
  | load (addr size : Nat)
  | assertReset
  | releaseReset
  deriving DecidableEq, Repr

/-- A buffer as the list of its written elements, (index, byte), indices strictly rising (log 4). What an unlisted element
reads as is the buffer's own: the power-on draw for the five RAMs of R231, zero for WBUF (R230, R120). -/
abbrev Buffer := List Host.Cell

/-- The canonical form: indices strictly rising. -/
abbrev Buffer.Rising (b : Buffer) : Prop := (b.map Prod.fst).Pairwise (· < ·)

/-- Every listed index is below the capacity. -/
abbrev Buffer.Below (cap : Nat) (b : Buffer) : Prop := ∀ c ∈ b, c.1 < cap

/-- No listed element holds zero: the rest of the canonical form for a buffer whose unlisted elements read as zero. -/
abbrev Buffer.NoZero (b : Buffer) : Prop := ∀ c ∈ b, c.2 ≠ 0

structure State where
  /-- The open parameters of R6 and R66; no step changes them. -/
  cfg       : Config
  /-- STATUS (R24). -/
  status    : Status
  /-- RESULT (R25). -/
  result    : Word
  /-- ILEN (R26). -/
  ilen      : Word
  /-- SILEN (R27). -/
  silen     : Word
  /-- WCAP (R28). -/
  wcap      : Word
  /-- OLEN (R29). -/
  olen      : Word
  /-- SOLEN (R30). -/
  solen     : Word
  /-- RCUR (R31). -/
  rcur      : Word
  /-- RLEN (R32). -/
  rlen      : Word
  /-- WCUR (R33). -/
  wcur      : Word
  /-- ERRIDX (R34). -/
  erridx    : Word
  /-- ID_HI (R35). -/
  idHi      : IdHalf
  /-- ID_LO (R35). -/
  idLo      : IdHalf
  /-- IBUF (R66). -/
  ibuf      : Buffer
  /-- OBUF (R66). -/
  obuf      : Buffer
  /-- SIN (R66). -/
  sin       : Buffer
  /-- SOUT (R66). -/
  sout      : Buffer
  /-- RBUF (R36). -/
  rbuf      : Buffer
  /-- WBUF (R37). -/
  wbuf      : Buffer
  /-- The model's own (log 3): how many resets have been taken; the free reset contents are drawn with it. -/
  draws     : Nat
  /-- The model's own (log 7): the platform holds reset asserted. -/
  resetLine : Bool
  /-- The model's own (log 6): what the last host read returned. -/
  readData  : Word
  /-- The model's own (log 5): what is still to reach the CORE from outside, oldest first. -/
  inputs    : List BusEvent
  deriving DecidableEq, Repr

/-- The canonical form of every buffer of the state (log 4). -/
abbrev Memory.wf (s : State) : Prop :=
  (s.ibuf.Rising ∧ s.ibuf.Below s.cfg.pIbytes) ∧ (s.obuf.Rising ∧ s.obuf.Below s.cfg.pObytes) ∧
  (s.sin.Rising ∧ s.sin.Below s.cfg.pSchars) ∧ (s.sout.Rising ∧ s.sout.Below s.cfg.pSchars) ∧
  (s.rbuf.Rising ∧ s.rbuf.Below s.cfg.pIbytes) ∧
  (s.wbuf.Rising ∧ s.wbuf.Below s.cfg.pObytes ∧ s.wbuf.NoZero)

/-- R230 with R231: every register 0, WBUF all zero, the five RAMs unspecified (nothing listed, so each element reads as
its draw), no command in progress. The parameters, the count of draws and what is outside the CORE are arguments. -/
def State.atReset (cfg : Config) (draws : Nat) (readData : Word) (inputs : List BusEvent) : State where
  cfg := cfg
  status := { err := none, fault := false }
  result := 0
  ilen := 0
  silen := 0
  wcap := 0
  olen := 0
  solen := 0
  rcur := 0
  rlen := 0
  wcur := 0
  erridx := 0
  idHi := 0
  idLo := 0
  ibuf := []
  obuf := []
  sin := []
  sout := []
  rbuf := []
  wbuf := []
  draws := draws
  resetLine := false
  readData := readData
  inputs := inputs

/-- The machine right after reset: R230 at R6's reference capacities (log 1, log 2), nothing pending from outside (log 5). -/
def State.reset : State := State.atReset Config.reference 0 0 []

/-- Why a step stops with a fault. -/
inductive Fault where
  /-- Raised by a host access that arrives while the platform holds reset asserted. Safe: R252 does not say what the CORE
  does then, and 93_implementation_defined.md I17 has a model stuck there (log 7). -/
  | accessDuringReset
  deriving DecidableEq, Repr

/-- Why a step has no meaning. -/
inductive Refusal where
  /-- Raised by an arm of `exec` whose instruction has no meaning yet. Safe. No arm raises it. -/
  | notModelled (mnemonic : String)
  /-- Raised by a host access outside the 20-bit window at P_BASE: it is some other device's, which R66 does not describe.
  Safe (log 8). -/
  | outsideWindow
  /-- Raised where ALPHA would be indexed at 62 or more, where R40 has no entry. Safe: 93_implementation_defined.md I11 has a
  model refuse, "because it cannot arise" (log 13). -/
  | noAlphabetEntry
  deriving DecidableEq, Repr

/-- How one step of the machine ends. -/
abbrev Answer := Host.Outcome State Fault Refusal

/-- How a piece of a command's pseudocode ends: it goes on with a value, it executes `raise E` (R11: the writes made before
the `raise` stay), or it has no meaning. -/
inductive Result (α : Type) where
  | done (a : α) (s : State)
  | raised (e : ErrKind) (s : State)
  | refused (r : Refusal)

end Sys2Proof.Machine
end

