-- ==== Sys2Proof/Machine/Flags.lean ====
section
/-! DEFINITION. STATUS: its word as the host reads it (10_state.md R24), the error codes (60_exceptions.md R200), and how a
command's outcome is reported there (R203, R206). -/

namespace Sys2Proof.Machine

/-- R200's code numbers. -/
def ErrKind.code : ErrKind → BitVec 3
  | .invalidSymbol => 1
  | .lengthError => 2
  | .boundsError => 3
  | .illegalCommand => 4
  | .capacityError => 5

/-- STATUS.ERR: 0 is success (R24). -/
def Status.errCode (st : Status) : BitVec 3 :=
  match st.err with
  | none => 0
  | some e => e.code

/-- STATUS as a 32-bit word: ERR in [2:0], FAULT in [3], [31:4] reads as 0 (R24). -/
def Status.word (st : Status) : Word :=
  (if st.fault then 8 else 0) ||| st.errCode.setWidth 32

/-- R203: a command that completes writes STATUS.ERR ← 0. -/
def State.complete (s : State) : State := { s with status := { s.status with err := none } }

/-- Taking an error, once for every command (R203): STATUS.ERR ← code(E), and BoundsError sets the sticky FAULT (R206).
There is no trap and nothing to return from: no vector, no saved pc, no handler (R203, R207), so the next CMD write simply
starts afresh, unless FAULT stays set. -/
def State.report (e : ErrKind) (s : State) : State :=
  { s with status := { err := some e, fault := s.status.fault || (e == .boundsError) } }

end Sys2Proof.Machine
end

