-- ==== Sys2Proof/WellFormed.lean ====
section
/-! DEFINITION. Which commands have an encoding: the legal bit counts of 30_encoding.md R84. -/

namespace Sys2Proof

/-- R84: RD_READ takes "n in [1,6]", WR_WRITE takes "n in [0,6]"; no other operand is restricted (R85). -/
def Instr.wf : Instr → Bool
  | .rdInit => true
  | .rdHasmore => true
  | .rdRead n => decide (1 ≤ n.toNat ∧ n.toNat ≤ 6)
  | .rdSeekback => true
  | .wrInit => true
  | .wrWrite n _ => decide (n.toNat ≤ 6)
  | .wrBtb => true
  | .wrTobytes => true
  | .symEnc _ => true
  | .symDec _ => true
  | .encode => true
  | .decode => true
  | .idTobytes => true
  | .idFrombytes => true
  | .idTobase62 => true
  | .idFrombase62 => true

end Sys2Proof
end

