-- ==== Sys2Proof/Decode.lean ====
section
/-! DEFINITION. From a command word to a command and back (30_encoding.md R81, R82, R85, R86). -/

namespace Sys2Proof

/-- Why a word is no command (R86). Every reason raises IllegalCommand; the names say which test of R81 failed. -/
inductive DecodeError where
  /-- `w[31:16] ≠ 0`. -/
  | reservedBits
  /-- OPC is 0x00 or 0x11 to 0x1F. -/
  | noOpcode
  /-- N is not legal for the row. -/
  | badCount
  /-- IMM8 is not legal for the row. -/
  | badImmediate
  deriving DecidableEq, Repr

/-- RSV = `w[31:16]` (R82). -/
def fieldRsv (w : Word) : BitVec 16 := w.extractLsb' 16 16

/-- OPC = `w[15:11]` (R82). -/
def fieldOpc (w : Word) : BitVec 5 := w.extractLsb' 11 5

/-- N = `w[10:8]` (R82). -/
def fieldN (w : Word) : BitVec 3 := w.extractLsb' 8 3

/-- IMM8 = `w[7:0]` (R82). -/
def fieldImm8 (w : Word) : Byte := w.extractLsb' 0 8

/-- R84: the legal counts of RD_READ. -/
def legalReadCount (n : BitVec 3) : Bool := decide (1 ≤ n.toNat ∧ n.toNat ≤ 6)

/-- R84: the legal counts of WR_WRITE. -/
def legalWriteCount (n : BitVec 3) : Bool := decide (n.toNat ≤ 6)

/-- The two operand tests of R81, in its order: N, then IMM8. -/
def checked (nLegal immLegal : Bool) (i : Instr) : Except DecodeError Instr :=
  if !nLegal then .error .badCount else if !immLegal then .error .badImmediate else .ok i

/-- The rows of R85. -/
def decodeRow (opc : BitVec 5) (n : BitVec 3) (imm : Byte) : Except DecodeError Instr :=
  match opc with
  | 0x01#5 => checked (n == 0) (imm == 0) .rdInit
  | 0x02#5 => checked (n == 0) (imm == 0) .rdHasmore
  | 0x03#5 => checked (legalReadCount n) (imm == 0) (.rdRead n)
  | 0x04#5 => checked (n == 1) (imm == 0) .rdSeekback
  | 0x05#5 => checked (n == 0) (imm == 0) .wrInit
  | 0x06#5 => checked (legalWriteCount n) true (.wrWrite n imm)
  | 0x07#5 => checked (n == 0) (imm == 0) .wrBtb
  | 0x08#5 => checked (n == 0) (imm == 0) .wrTobytes
  | 0x09#5 => checked (n == 0) true (.symEnc imm)
  | 0x0A#5 => checked (n == 0) true (.symDec imm)
  | 0x0B#5 => checked (n == 0) (imm == 0) .encode
  | 0x0C#5 => checked (n == 0) (imm == 0) .decode
  | 0x0D#5 => checked (n == 0) (imm == 0) .idTobytes
  | 0x0E#5 => checked (n == 0) (imm == 0) .idFrombytes
  | 0x0F#5 => checked (n == 0) (imm == 0) .idTobase62
  | 0x10#5 => checked (n == 0) (imm == 0) .idFrombase62
  | _ => .error .noOpcode

/-- R81 without its first line: the FAULT test is the machine's. -/
def decode (w : Word) : Except DecodeError Instr :=
  if fieldRsv w ≠ 0 then .error .reservedBits else decodeRow (fieldOpc w) (fieldN w) (fieldImm8 w)

/-- R82: `w = (OPC << 11) | (N << 8) | IMM8`. -/
def packWord (opc : BitVec 5) (n : BitVec 3) (imm : Byte) : Word :=
  (opc.setWidth 32 <<< 11) ||| (n.setWidth 32 <<< 8) ||| imm.setWidth 32

/-- The word of a command (R85). -/
def encode : Instr → Word
  | .rdInit => packWord 0x01 0 0
  | .rdHasmore => packWord 0x02 0 0
  | .rdRead n => packWord 0x03 n 0
  | .rdSeekback => packWord 0x04 1 0
  | .wrInit => packWord 0x05 0 0
  | .wrWrite n value => packWord 0x06 n value
  | .wrBtb => packWord 0x07 0 0
  | .wrTobytes => packWord 0x08 0 0
  | .symEnc v => packWord 0x09 0 v
  | .symDec c => packWord 0x0A 0 c
  | .encode => packWord 0x0B 0 0
  | .decode => packWord 0x0C 0 0
  | .idTobytes => packWord 0x0D 0 0
  | .idFrombytes => packWord 0x0E 0 0
  | .idTobase62 => packWord 0x0F 0 0
  | .idFrombase62 => packWord 0x10 0 0

/-- The command the decoder reads from a table word. A command is one 32-bit word with no byte order of its own (R80, R82):
bit k of the table's number is bit k of the word, bits at and above `nbits` are 0, and no command is longer than 32 bits. -/
def decodeTableWord (nbits w : Nat) : Option Instr :=
  if nbits ≤ 32 then
    match decode (BitVec.ofNat 32 (w % 2 ^ nbits)) with
    | .ok i => some i
    | .error _ => none
  else none

end Sys2Proof
end

