-- ==== Sys2Proof/Machine/Operands.lean ====
section
/-! DEFINITION. Operand forms: bit counts and immediates (30_encoding.md R83, R84), the bit groups of 20_memory.md R60 and
R61, and the compaction test of 43_base62codec.md R140. -/

namespace Sys2Proof.Machine

/-- `(1 << n) - 1`: the mask of the low `n` bits (R61, R122). -/
def lowMask (n : Nat) : BytePair := BitVec.ofNat 16 (2 ^ n - 1)

/-- R61, reading: `n` bits of the pair (`cur` low, `nxt` high), from bit `o` of `cur` on. -/
def groupFrom (cur nxt : Byte) (o n : Nat) : BytePair :=
  ((cur.setWidth 16 ||| (nxt.setWidth 16 <<< 8)) >>> o) &&& lowMask n

/-- R61, writing: the low `n` bits of `v`, moved up to bit `o`. -/
def groupAt (v : Byte) (o n : Nat) : BytePair := (v.setWidth 16 &&& lowMask n) <<< o

/-- `bits[7:0]` of R122: what goes into the current byte. -/
def groupLow (bits : BytePair) : Byte := bits.extractLsb' 0 8

/-- `bits[15:8]` of R122: what goes into the next byte. -/
def groupHigh (bits : BytePair) : Byte := bits.extractLsb' 8 8

/-- R140: `compact(v) := (v & 0b011110) = 0b011110`. -/
def compact (v : Symbol) : Bool := (v &&& 0b011110) == 0b011110

/-- R83: the bit count of a command, unsigned. -/
def countOperand (n : BitVec 3) : Nat := n.toNat

end Sys2Proof.Machine
end

