-- ==== Sys2Proof/Machine/Tables.lean ====
section
/-! DEFINITION. The two read-only tables ALPHA (10_state.md R40) and DTAB (R41). The codes are ASCII (log 15). -/

namespace Sys2Proof.Machine

/-- R40: the character code of alphabet symbol `v`; no entry at 62 and above. -/
def alpha (v : Byte) : Option Byte :=
  if v.toNat ≤ 25 then some (0x41 + v)
  else if v.toNat ≤ 51 then some (0x61 + (v - 26))
  else if v.toNat ≤ 61 then some (0x30 + (v - 52))
  else none

/-- R41: the 6-bit value of character code `c`; `none` is "marked invalid". -/
def dtab (c : Byte) : Option Symbol :=
  if 0x41 ≤ c.toNat ∧ c.toNat ≤ 0x5A then some ((c - 0x41).setWidth 6)
  else if 0x61 ≤ c.toNat ∧ c.toNat ≤ 0x7A then some ((c - 0x61 + 26).setWidth 6)
  else if 0x30 ≤ c.toNat ∧ c.toNat ≤ 0x39 then some ((c - 0x30 + 52).setWidth 6)
  else none

end Sys2Proof.Machine
end

