-- ==== Sys2Proof/Machine/Ops.lean ====
section
/-! DEFINITION. The operations the commands share: buffer elements (00_scope.md R10), how a command ends (60_exceptions.md
R203 to R206), the BitReader (41_bitreader.md), the BitWriter (42_bitwriter.md), the Base62 sequencer (43_base62codec.md)
and the identifier serialization (44_identifiercodec.md). -/

namespace Sys2Proof.Machine

/-! ### Buffers -/

/-- Element `i` of a buffer whose unwritten elements read as `unlisted`. -/
def Buffer.read (unlisted : Byte) : Buffer → Nat → Byte
  | [], _ => unlisted
  | (a, v) :: rest, i => if a = i then v else Buffer.read unlisted rest i

/-- `BUF[i] <- v`, keeping the indices rising. -/
def Buffer.write : Buffer → Nat → Byte → Buffer
  | [], i, v => [(i, v)]
  | (a, w) :: rest, i, v =>
    if i < a then (i, v) :: (a, w) :: rest
    else if i = a then (i, v) :: rest
    else (a, w) :: Buffer.write rest i v

/-- Element `i` is no longer listed. -/
def Buffer.erase (b : Buffer) (i : Nat) : Buffer := b.filter fun c => c.1 != i

/-- `BUF[i] <- v` in a buffer whose unlisted elements read as zero: a zero is not listed. -/
def Buffer.writeZ (b : Buffer) (i : Nat) (v : Byte) : Buffer :=
  if v = 0 then Buffer.erase b i else b.write i v

/-- `MemWrite(BUF, i, len(L), L)` (R10). -/
def Buffer.writeList (b : Buffer) (i : Nat) : List Byte → Buffer
  | [] => b
  | v :: vs => Buffer.writeList (b.write i v) (i + 1) vs

/-- Element `i` of one of the RAMs of R231: what was written there since reset, or the power-on draw. -/
def State.ramByte (s : State) (ram : Ram) (b : Buffer) (i : Nat) : Byte :=
  b.read (Config.powerOnByte s.draws ram i) i

/-- `IBUF[i]`. -/
def State.ibufByte (s : State) (i : Nat) : Byte := s.ramByte .ibuf s.ibuf i

/-- `OBUF[i]`. -/
def State.obufByte (s : State) (i : Nat) : Byte := s.ramByte .obuf s.obuf i

/-- `SIN[i]`. -/
def State.sinChar (s : State) (i : Nat) : Byte := s.ramByte .sin s.sin i

/-- `SOUT[i]`. -/
def State.soutChar (s : State) (i : Nat) : Byte := s.ramByte .sout s.sout i

/-- `RBUF[i]`. -/
def State.rbufByte (s : State) (i : Nat) : Byte := s.ramByte .rbuf s.rbuf i

/-- `WBUF[i]`: zero where nothing is listed (R230, R120). -/
def State.wbufByte (s : State) (i : Nat) : Byte := s.wbuf.read 0 i

/-- `MemRead(BUF, 0, n)` (R10), for the buffer whose elements `byteAt` reads. -/
def memRead (byteAt : Nat → Byte) (n : Nat) : List Byte := (List.range n).map byteAt

/-! ### How a command runs and ends -/

/-- Go on with the value and the state that the first piece left. -/
def Result.bind {α β : Type} (r : Result α) (f : α → State → Result β) : Result β :=
  match r with
  | .done a s => f a s
  | .raised e s => .raised e s
  | .refused why => .refused why

/-- R203: either way the command is over, with its outcome in STATUS.ERR. -/
def Result.finish (r : Result Unit) : Answer :=
  match r with
  | .done _ s => .next s.complete
  | .raised e s => .next (s.report e)
  | .refused why => .refused why

/-- Every command: R81's FAULT test first (R206: "does nothing else" but write ERR = 3), then its own pseudocode. -/
def command (body : State → Result Unit) (s : State) : Answer :=
  if s.status.fault then .next (s.report .boundsError) else (body s).finish

/-- A CMD write of a word that R85 does not admit (R86), after R81's FAULT test. -/
def illegalCommand (s : State) : Answer := command (fun s => .raised .illegalCommand s) s

/-- R26, R100: `if ILEN > P_IBYTES: raise CapacityError`. -/
def checkIlen (s : State) : Result Unit :=
  if s.cfg.pIbytes < s.ilen.toNat then .raised .capacityError s else .done () s

/-- R27, R156: `if SILEN > P_SCHARS: raise CapacityError`. -/
def checkSilen (s : State) : Result Unit :=
  if s.cfg.pSchars < s.silen.toNat then .raised .capacityError s else .done () s

/-- `RESULT <- zext_32(v)` (R25). -/
def State.setResult (v : Word) (s : State) : State := { s with result := v }

/-! ### BitReader -/

/-- br_init (R100). -/
def brInit (L : List Byte) (s : State) : State :=
  { s with rbuf := s.rbuf.writeList 0 L, rlen := BitVec.ofNat 32 L.length, rcur := 0 }

/-- br_hasmore (R101): strictly below the total bits. -/
def brHasmore (s : State) : Bool := decide (s.rcur.toNat < 8 * s.rlen.toNat)

/-- br_read (R102), for 1 ≤ n ≤ 6: a missing next byte counts as zero bits, a missing current byte is a BoundsError. -/
def brRead (n : Nat) (s : State) : Result Symbol :=
  let c := s.rcur.toNat
  if 8 * s.rlen.toNat ≤ c then .raised .boundsError s
  else
    let cur := s.rbufByte (c / 8)
    let nxt := if c / 8 + 1 < s.rlen.toNat then s.rbufByte (c / 8 + 1) else 0
    .done ((groupFrom cur nxt (c % 8) n).setWidth 6) { s with rcur := BitVec.ofNat 32 (c + n) }

/-- br_seekback (R104). -/
def brSeekback (s : State) : Result Unit :=
  if s.rcur = 0 then .raised .boundsError s
  else .done () { s with rcur := BitVec.ofNat 32 (s.rcur.toNat - 1) }

/-! ### BitWriter -/

/-- bw_init (R120). The capacity estimate is advisory: it is not stored and changes nothing. -/
def bwInit (_cap : Nat) (s : State) : State := { s with wbuf := [], wcur := 0 }

/-- `WBUF[i] <- WBUF[i] | v` (R122). -/
def State.orWbuf (i : Nat) (v : Byte) (s : State) : State :=
  { s with wbuf := s.wbuf.writeZ i (s.wbufByte i ||| v) }

/-- bw_write (R122), for 0 ≤ n ≤ 7. -/
def bwWrite (n : Nat) (v : Byte) (s : State) : Result Unit :=
  let c := s.wcur.toNat
  if 8 * s.cfg.pObytes < c + n then .raised .capacityError s
  else
    let bits := groupAt v (c % 8) n
    let s := if 0 < n then s.orWbuf (c / 8) (groupLow bits) else s
    let s := if 8 < c % 8 + n then s.orWbuf (c / 8 + 1) (groupHigh bits) else s
    .done () { s with wcur := BitVec.ofNat 32 (c + n) }

/-- bw_btb (R123): 0 if aligned. -/
def bwBtb (s : State) : Nat := (8 - s.wcur.toNat % 8) % 8

/-- bw_tobytes (R124): exactly `floor(cursor/8)` complete bytes. -/
def bwTobytes (s : State) : List Byte := memRead s.wbufByte (s.wcur.toNat / 8)

/-- `MemWrite(OBUF, 0, len(L), L) ; OLEN <- len(L)` (R124, R156, R171). -/
def State.emitBytes (L : List Byte) (s : State) : State :=
  { s with obuf := s.obuf.writeList 0 L, olen := BitVec.ofNat 32 L.length }

/-! ### The Base62 sequencer -/

/-- R150: after `raw`, a compact symbol rewinds one bit and keeps its low 5 bits; any other keeps all 6. -/
def settleSymbol (raw : Symbol) (s : State) : Result Symbol :=
  if compact raw then (brSeekback s).bind fun _ s => .done (raw &&& 0b011111) s
  else .done raw s

/-- R150: `SOUT[k] <- ALPHA(v)`, with the capacity test before it. -/
def appendSymbol (k : Nat) (v : Symbol) (s : State) : Result Unit :=
  if s.cfg.pSchars ≤ k then .raised .capacityError s
  else
    match alpha (v.setWidth 8) with
    | none => .refused .noAlphabetEntry
    | some c => .done () { s with sout := s.sout.write k c }

/-- The while loop of b62_encode (R150), on fuel as R153 allows; `k` symbols are out, and the answer is how many there are
at the end. Each turn raises RCUR by 5 or 6, so the fuel of `b62Encode` outlasts the bits (log 13). -/
def encodeLoop : Nat → Nat → State → Result Nat
  | 0, k, s => .done k s
  | fuel + 1, k, s =>
    if brHasmore s then
      (brRead 6 s).bind fun raw s =>
      (settleSymbol raw s).bind fun v s =>
      (appendSymbol k v s).bind fun _ s =>
      encodeLoop fuel (k + 1) s
    else .done k s

/-- b62_encode (R150), the reader already initialised; the fuel is R153's `8·ILEN + 1`. -/
def b62Encode (s : State) : Result Unit :=
  (encodeLoop (8 * s.rlen.toNat + 1) 0 s).bind fun k s => .done () { s with solen := BitVec.ofNat 32 k }

/-- R156, rules a, b, c, in this order: how many bits a character's value contributes. -/
def contributedBits (val : Symbol) (last : Bool) (s : State) : Nat :=
  if compact val then 5 else if last then bwBtb s else 6

/-- The for loop of b62_decode (R156) over the characters still to come, the first of them at position `i`. -/
def decodeLoop : List Byte → Nat → State → Result Unit
  | [], _, s => .done () s
  | ch :: rest, i, s =>
    match dtab ch with
    | none => .raised .invalidSymbol { s with olen := 0, erridx := BitVec.ofNat 32 i }
    | some val =>
      (bwWrite (contributedBits val rest.isEmpty s) (val.setWidth 8) s).bind fun _ s =>
      decodeLoop rest (i + 1) s

/-- b62_decode (R156). -/
def b62Decode (m : Nat) (s : State) : Result Unit :=
  (decodeLoop (memRead s.sinChar m) 0 (bwInit (6 * m) s)).bind fun _ s => .done () (s.emitBytes (bwTobytes s))

/-! ### The identifier -/

/-- The 8 bytes of a half, most significant first (R170). -/
def halfBytes (h : IdHalf) : List Byte :=
  [h.extractLsb' 56 8, h.extractLsb' 48 8, h.extractLsb' 40 8, h.extractLsb' 32 8,
   h.extractLsb' 24 8, h.extractLsb' 16 8, h.extractLsb' 8 8, h.extractLsb' 0 8]

/-- id_tobytes (R170). -/
def idTobytes (hi lo : IdHalf) : List Byte := halfBytes hi ++ halfBytes lo

/-- A half from 8 bytes, `B[0]` the most significant (R170, R12): `(B[0] << 56) | … | B[7]`. -/
def halfOfBytes (B : List Byte) : IdHalf :=
  B.foldl (fun h b => (h <<< 8) ||| b.setWidth 64) 0

/-- id_frombytes (R170): only `B[0..15]` are read. -/
def idFrombytes (B : List Byte) : IdHalf × IdHalf :=
  (halfOfBytes (B.take 8), halfOfBytes ((B.drop 8).take 8))

/-- `(ID_HI, ID_LO) <- id_frombytes(B)` (R172, R174). -/
def State.setId (B : List Byte) (s : State) : State :=
  { s with idHi := (idFrombytes B).1, idLo := (idFrombytes B).2 }

end Sys2Proof.Machine
end

