-- ==== Sys2Proof/Machine/Base62.lean ====
section
/-! DEFINITION. The Base62Codec commands (43_base62codec.md). -/

namespace Sys2Proof.Machine

/-- SYM_ENC v (R145). -/
def execSymEnc (v : Byte) (s : State) : Answer :=
  command (fun s =>
    match alpha v with
    | none => .raised .invalidSymbol s
    | some c => .done () (s.setResult (c.setWidth 32))) s

/-- SYM_DEC c (R146). -/
def execSymDec (c : Byte) (s : State) : Answer :=
  command (fun s =>
    match dtab c with
    | none => .raised .invalidSymbol s
    | some v => .done () (s.setResult (v.setWidth 32))) s

/-- ENCODE (R150). -/
def execEncode (s : State) : Answer :=
  command (fun s => (checkIlen s).bind fun _ s =>
    b62Encode (brInit (memRead s.ibufByte s.ilen.toNat) s)) s

/-- DECODE (R156). -/
def execDecode (s : State) : Answer :=
  command (fun s => (checkSilen s).bind fun _ s => b62Decode s.silen.toNat s) s

end Sys2Proof.Machine
end

