-- ==== Sys2Proof/Machine/BitReader.lean ====
section
/-! DEFINITION. The BitReader commands (41_bitreader.md). -/

namespace Sys2Proof.Machine

/-- RD_INIT (R100): construct the reader over a snapshot of IBUF. -/
def execRdInit (s : State) : Answer :=
  command (fun s => (checkIlen s).bind fun _ s =>
    .done () (brInit (memRead s.ibufByte s.ilen.toNat) s)) s

/-- RD_HASMORE (R101). -/
def execRdHasmore (s : State) : Answer :=
  command (fun s => .done () (s.setResult (if brHasmore s then 1 else 0))) s

/-- RD_READ n (R102); a count outside 1..6 is no command (R84, R86; log 12). -/
def execRdRead (n : BitVec 3) (s : State) : Answer :=
  command (fun s =>
    if legalReadCount n then
      (brRead (countOperand n) s).bind fun v s => .done () (s.setResult (v.setWidth 32))
    else .raised .illegalCommand s) s

/-- RD_SEEKBACK 1 (R104). -/
def execRdSeekback (s : State) : Answer := command brSeekback s

end Sys2Proof.Machine
end

