-- ==== Sys2Proof/Machine/BitWriter.lean ====
section
/-! DEFINITION. The BitWriter commands (42_bitwriter.md). -/

namespace Sys2Proof.Machine

/-- WR_INIT (R120). -/
def execWrInit (s : State) : Answer :=
  command (fun s => .done () (bwInit s.wcap.toNat s)) s

/-- WR_WRITE n, value (R121); the count 7 is no command (R84, R86; log 12). -/
def execWrWrite (n : BitVec 3) (value : Byte) (s : State) : Answer :=
  command (fun s =>
    if legalWriteCount n then bwWrite (countOperand n) value s else .raised .illegalCommand s) s

/-- WR_BTB (R123). -/
def execWrBtb (s : State) : Answer :=
  command (fun s => .done () (s.setResult (BitVec.ofNat 32 (bwBtb s)))) s

/-- WR_TOBYTES (R124). -/
def execWrTobytes (s : State) : Answer :=
  command (fun s => .done () (s.emitBytes (bwTobytes s))) s

end Sys2Proof.Machine
end

