-- ==== Sys2Proof/Machine/Identifier.lean ====
section
/-! DEFINITION. The IdentifierCodec commands (44_identifiercodec.md). -/

namespace Sys2Proof.Machine

/-- ID_TOBYTES (R171). -/
def execIdTobytes (s : State) : Answer :=
  command (fun s => .done () (s.emitBytes (idTobytes s.idHi s.idLo))) s

/-- ID_FROMBYTES (R172): 16 bytes or more; the bytes above the 16th are ignored (90_conflicts.md C5). -/
def execIdFrombytes (s : State) : Answer :=
  command (fun s => (checkIlen s).bind fun _ s =>
    if s.ilen.toNat < 16 then .raised .lengthError s
    else .done () (s.setId (memRead s.ibufByte 16))) s

/-- ID_TOBASE62 (R173). -/
def execIdTobase62 (s : State) : Answer :=
  command (fun s => b62Encode (brInit (idTobytes s.idHi s.idLo) s)) s

/-- ID_FROMBASE62 (R174): the decoded length must be exactly 16. -/
def execIdFrombase62 (s : State) : Answer :=
  command (fun s => (checkSilen s).bind fun _ s =>
    (b62Decode s.silen.toNat s).bind fun _ s =>
    if s.olen ≠ 16 then .raised .lengthError s
    else .done () (s.setId (memRead s.obufByte 16))) s

end Sys2Proof.Machine
end

