-- ==== Sys2Proof/Machine/Dispatch.lean ====
section
/-! DEFINITION. One arm per command. -/

namespace Sys2Proof.Machine

def exec (i : Instr) (s : State) : Host.Outcome State Fault Refusal :=
  match i with
  | .rdInit => Sys2Proof.Machine.execRdInit s
  | .rdHasmore => Sys2Proof.Machine.execRdHasmore s
  | .rdRead n => Sys2Proof.Machine.execRdRead n s
  | .rdSeekback => Sys2Proof.Machine.execRdSeekback s
  | .wrInit => Sys2Proof.Machine.execWrInit s
  | .wrWrite n value => Sys2Proof.Machine.execWrWrite n value s
  | .wrBtb => Sys2Proof.Machine.execWrBtb s
  | .wrTobytes => Sys2Proof.Machine.execWrTobytes s
  | .symEnc v => Sys2Proof.Machine.execSymEnc v s
  | .symDec c => Sys2Proof.Machine.execSymDec c s
  | .encode => Sys2Proof.Machine.execEncode s
  | .decode => Sys2Proof.Machine.execDecode s
  | .idTobytes => Sys2Proof.Machine.execIdTobytes s
  | .idFrombytes => Sys2Proof.Machine.execIdFrombytes s
  | .idTobase62 => Sys2Proof.Machine.execIdTobase62 s
  | .idFrombase62 => Sys2Proof.Machine.execIdFrombase62 s

end Sys2Proof.Machine
end

