-- ==== Sys2Proof/Machine/Bus.lean ====
section
/-! DEFINITION. What reaches the CORE from outside: host accesses (10_state.md R43, 20_memory.md R65 to R67) and the reset
input (70_reset_and_hazards.md R230). -/

namespace Sys2Proof.Machine

/-! ### Where an access goes -/

/-- The offset of an address in the 20-bit window at P_BASE (R66), if it lies there. -/
def Config.windowOffset (c : Config) (addr : Nat) : Option Nat :=
  if c.pBase ≤ addr ∧ addr < c.pBase + 2 ^ 20 then some (addr - c.pBase) else none

/-- R22's offsets; the other offsets are reserved. -/
def HostReg.atOffset (off : Nat) : Option HostReg :=
  match off with
  | 0x000 => some .cmd
  | 0x004 => some .status
  | 0x008 => some .result
  | 0x00C => some .ilen
  | 0x010 => some .silen
  | 0x014 => some .wcap
  | 0x018 => some .olen
  | 0x01C => some .solen
  | 0x020 => some .rcur
  | 0x024 => some .rlen
  | 0x028 => some .wcur
  | 0x02C => some .erridx
  | 0x030 => some .idHiU
  | 0x034 => some .idHiL
  | 0x038 => some .idLoU
  | 0x03C => some .idLoL
  | _ => none

/-- The four buffer windows of R66. -/
inductive Window where
  | ibuf | obuf | sin | sout
  deriving DecidableEq, Repr

/-- R66: which window a 64 KiB region is; the regions above SOUT are reserved. -/
def Window.ofRegion (region : Nat) : Option Window :=
  match region with
  | 1 => some .ibuf
  | 2 => some .obuf
  | 3 => some .sin
  | 4 => some .sout
  | _ => none

/-- The capacity of a window's buffer (R6, R66). -/
def Window.capacity (c : Config) : Window → Nat
  | .ibuf => c.pIbytes
  | .obuf => c.pObytes
  | .sin => c.pSchars
  | .sout => c.pSchars

/-- What an access touches: a host register, an element of a buffer window, or nothing (a reserved or out-of-capacity
location, a width or an alignment that R65 does not accept): then a write is ignored and a read returns 0. -/
inductive Target where
  | reg (r : HostReg)
  | elem (w : Window) (i : Nat)
  | nothing
  deriving DecidableEq, Repr

/-- R65, R66, R67: registers take aligned 32-bit accesses, windows 8-bit ones below the capacity. -/
def target (c : Config) (off size : Nat) : Target :=
  if off < 0x10000 then
    if size = 4 ∧ off % 4 = 0 then
      match HostReg.atOffset off with
      | some r => .reg r
      | none => .nothing
    else .nothing
  else
    match Window.ofRegion (off / 0x10000) with
    | some w => if size = 1 ∧ off % 0x10000 < w.capacity c then .elem w (off % 0x10000) else .nothing
    | none => .nothing

/-! ### Reading -/

/-- R22: what a host read of a register returns. CMD keeps no value and reads 0 (R23). -/
def readReg (r : HostReg) (s : State) : Word :=
  match r with
  | .cmd => 0
  | .status => s.status.word
  | .result => s.result
  | .ilen => s.ilen
  | .silen => s.silen
  | .wcap => s.wcap
  | .olen => s.olen
  | .solen => s.solen
  | .rcur => s.rcur
  | .rlen => s.rlen
  | .wcur => s.wcur
  | .erridx => s.erridx
  | .idHiU => s.idHi.extractLsb' 32 32
  | .idHiL => s.idHi.extractLsb' 0 32
  | .idLoU => s.idLo.extractLsb' 32 32
  | .idLoL => s.idLo.extractLsb' 0 32

/-- Element `i` of a window's buffer (R68). -/
def readElem (w : Window) (i : Nat) (s : State) : Byte :=
  match w with
  | .ibuf => s.ibufByte i
  | .obuf => s.obufByte i
  | .sin => s.sinChar i
  | .sout => s.soutChar i

/-- What a host read at a window offset returns. It has no side effect (R69). -/
def peek (s : State) (off size : Nat) : Word :=
  match target s.cfg off size with
  | .reg r => readReg r s
  | .elem w i => (readElem w i s).setWidth 32
  | .nothing => 0

/-! ### Writing -/

/-- A CMD write (R23, R80, R81): decode the word and run the command to its end; a word of no row is illegal (R86). -/
def writeCmd (w : Word) (s : State) : Answer :=
  match decode w with
  | .ok i => exec i s
  | .error _ => illegalCommand s

/-- A host write of an identifier half's upper 32 bits changes only those (R43). -/
def setUpper (h : IdHalf) (v : Word) : IdHalf := v ++ h.extractLsb' 0 32

/-- A host write of an identifier half's lower 32 bits changes only those (R43). -/
def setLower (h : IdHalf) (v : Word) : IdHalf := h.extractLsb' 32 32 ++ v

/-- A host write of a register: CMD runs a command, an RW register takes the value, a read-only one ignores it (R22, R43). -/
def writeReg (r : HostReg) (v : Word) (s : State) : Answer :=
  match r with
  | .cmd => writeCmd v s
  | .ilen => .next { s with ilen := v }
  | .silen => .next { s with silen := v }
  | .wcap => .next { s with wcap := v }
  | .idHiU => .next { s with idHi := setUpper s.idHi v }
  | .idHiL => .next { s with idHi := setLower s.idHi v }
  | .idLoU => .next { s with idLo := setUpper s.idLo v }
  | .idLoL => .next { s with idLo := setLower s.idLo v }
  | .status => .next s
  | .result => .next s
  | .olen => .next s
  | .solen => .next s
  | .rcur => .next s
  | .rlen => .next s
  | .wcur => .next s
  | .erridx => .next s

/-- A host write of a buffer element: "The CORE alone writes" OBUF and SOUT (R67). -/
def writeElem (w : Window) (i : Nat) (v : Byte) (s : State) : State :=
  match w with
  | .ibuf => { s with ibuf := s.ibuf.write i v }
  | .sin => { s with sin := s.sin.write i v }
  | .obuf => s
  | .sout => s

/-- A host write at a window offset; an 8-bit one carries its data in `v[7:0]` (log 18). -/
def poke (off size : Nat) (v : Word) (s : State) : Answer :=
  match target s.cfg off size with
  | .reg r => writeReg r v s
  | .elem w i => .next (writeElem w i (v.setWidth 8) s)
  | .nothing => .next s

/-! ### The inputs -/

/-- A host access: it needs reset released (log 7) and an address in the window (log 8). -/
def access (addr : Nat) (act : Nat → State → Answer) (s : State) : Answer :=
  match Config.windowOffset s.cfg addr with
  | none => .refused .outsideWindow
  | some off => if s.resetLine then .fault .accessDuringReset else act off s

/-- Reset is released (R230): the registers and WBUF as after every reset, fresh draws for the five RAMs (R231). The
parameters are fixed by the build (R234), and what is outside the CORE stays. A release without an assertion is no edge. -/
def releaseReset (s : State) : State :=
  if s.resetLine then State.atReset s.cfg (s.draws + 1) s.readData s.inputs else s

/-- One input arrives. -/
def perform (e : BusEvent) (s : State) : Answer :=
  match e with
  | .store addr size v => access addr (fun off s => poke off size v s) s
  | .load addr size => access addr (fun off s => .next { s with readData := peek s off size }) s
  | .assertReset => .next { s with resetLine := true }
  | .releaseReset => .next (releaseReset s)

/-- The oldest pending input arrives; with none pending the CORE waits (R232, R245). -/
def nextInput (s : State) : Answer :=
  match s.inputs with
  | [] => .next s
  | e :: rest => perform e { s with inputs := rest }

/-- The host write that issues the command word `w` (R80): 32 bits, to CMD at offset 0x000. -/
def cmdWrite (c : Config) (w : Word) : BusEvent := .store (c.pBase + 0x000) 4 w

end Sys2Proof.Machine
end

