-- ==== Sys2Proof/Machine/Step.lean ====
section
/-! DEFINITION. One step: the next host access or reset edge (70_reset_and_hazards.md R245, R252). -/

namespace Sys2Proof.Machine

/-- A step takes the oldest pending input; a CMD write runs its whole command inside the step (R245). -/
def step : State → Host.Outcome State Fault Refusal := nextInput

/-- The CORE fetches nothing (R74): its next command is the next CMD write. So the word is put at the head of the pending
inputs as such a write, with reset released, and the very next step runs it (log 5). -/
def State.withFetchWord (s : State) (nbits w : Nat) : State :=
  { s with resetLine := false, inputs := cmdWrite s.cfg (BitVec.ofNat 32 (w % 2 ^ nbits)) :: s.inputs }

end Sys2Proof.Machine
end

