-- ==== Sys2Proof/Safety.lean ====
section
/-! DEFINITION. The terms in which claims are stated: what a state may be (the invariants), what a command leaves alone (the
frames), and the source's two data flows on plain bit lists (00_scope.md R3), which ENCODE and DECODE are compared with. -/

namespace Sys2Proof.Machine

/-! ### Stream bits (R8, R60) -/

/-- Stream bit `k` of a buffer is bit `k mod 8` of byte `k div 8`. -/
def streamBit (byteAt : Nat → Byte) (k : Nat) : Bool := (byteAt (k / 8)).getLsbD (k % 8)

/-- Stream bit `k` as the BitReader sees it: zero beyond the RLEN bytes it was constructed over (R102). -/
def State.readerBit (s : State) (k : Nat) : Bool := decide (k < 8 * s.rlen.toNat) && streamBit s.rbufByte k

/-- Stream bit `k` of WBUF. -/
def State.writerBit (s : State) (k : Nat) : Bool := streamBit s.wbufByte k

/-! ### Frames -/

/-- The pieces of state a claim names. `outside` is what no command reads or writes: the parameters, the count of draws, the
reset line, the last read data and the pending inputs. -/
inductive Part where
  | err | fault | result | ilen | silen | wcap | olen | solen | rcur | rlen | wcur | erridx | idHi | idLo
  | ibuf | obuf | sin | sout | rbuf | wbuf | outside
  deriving DecidableEq, Repr

/-- The piece is the same in both states; a buffer is the same when every element reads the same. -/
def Part.Kept (s t : State) : Part → Prop
  | .err => t.status.err = s.status.err
  | .fault => t.status.fault = s.status.fault
  | .result => t.result = s.result
  | .ilen => t.ilen = s.ilen
  | .silen => t.silen = s.silen
  | .wcap => t.wcap = s.wcap
  | .olen => t.olen = s.olen
  | .solen => t.solen = s.solen
  | .rcur => t.rcur = s.rcur
  | .rlen => t.rlen = s.rlen
  | .wcur => t.wcur = s.wcur
  | .erridx => t.erridx = s.erridx
  | .idHi => t.idHi = s.idHi
  | .idLo => t.idLo = s.idLo
  | .ibuf => ∀ i, t.ibufByte i = s.ibufByte i
  | .obuf => ∀ i, t.obufByte i = s.obufByte i
  | .sin => ∀ i, t.sinChar i = s.sinChar i
  | .sout => ∀ i, t.soutChar i = s.soutChar i
  | .rbuf => ∀ i, t.rbufByte i = s.rbufByte i
  | .wbuf => ∀ i, t.wbufByte i = s.wbufByte i
  | .outside => t.cfg = s.cfg ∧ t.draws = s.draws ∧ t.resetLine = s.resetLine ∧ t.readData = s.readData ∧ t.inputs = s.inputs

/-- Every piece of state is the same but the listed ones. -/
def KeptExcept (changed : List Part) (s t : State) : Prop := ∀ p, p ∉ changed → p.Kept s t

/-- R44's matrix: what a command writes on success, STATUS.ERR apart. -/
def writesOnSuccess : Instr → List Part
  | .rdInit => [.rbuf, .rlen, .rcur]
  | .rdHasmore => [.result]
  | .rdRead _ => [.result, .rcur]
  | .rdSeekback => [.rcur]
  | .wrInit => [.wbuf, .wcur]
  | .wrWrite _ _ => [.wbuf, .wcur]
  | .wrBtb => [.result]
  | .wrTobytes => [.obuf, .olen]
  | .symEnc _ => [.result]
  | .symDec _ => [.result]
  | .encode => [.rbuf, .rlen, .rcur, .sout, .solen]
  | .decode => [.wbuf, .wcur, .obuf, .olen]
  | .idTobytes => [.obuf, .olen]
  | .idFrombytes => [.idHi, .idLo]
  | .idTobase62 => [.rbuf, .rlen, .rcur, .sout, .solen]
  | .idFrombase62 => [.wbuf, .wcur, .obuf, .olen, .idHi, .idLo]

/-- `s` with `e` as the next input to arrive; after it, `s`'s own pending inputs. -/
def State.receiving (e : BusEvent) (s : State) : State := { s with inputs := e :: s.inputs }

/-! ### Invariants -/

/-- What holds in every state a run reaches: the register ranges of R29 to R33, the writer's zero bits of R37, the canonical
memory of log 4, R206's sticky fault, and R152's alphabet in every SOUT element the CORE wrote. -/
structure State.Inv (s : State) : Prop where
  admissible : s.cfg.Admissible
  readerLength : s.rlen.toNat ≤ s.cfg.pIbytes
  readerCursor : s.rcur.toNat ≤ 8 * s.rlen.toNat + 5
  writerCursor : s.wcur.toNat ≤ 8 * s.cfg.pObytes
  bytesOut : s.olen.toNat ≤ s.cfg.pObytes
  symbolsOut : s.solen.toNat ≤ s.cfg.pSchars
  writerTail : ∀ k, s.wcur.toNat ≤ k → s.writerBit k = false
  memory : Memory.wf s
  stickyFault : s.status.fault = true → s.status.err = some .boundsError
  alphabetOut : ∀ c ∈ s.sout, (dtab c.2).isSome = true

/-- Element `i` of the buffer has been written since reset. -/
abbrev Buffer.Listed (b : Buffer) (i : Nat) : Prop := i ∈ b.map Prod.fst

/-- No element below a valid length is a power-on draw: OBUF below OLEN, SOUT below SOLEN, RBUF below RLEN (R231). -/
structure State.ExtentsWritten (s : State) : Prop where
  obuf : ∀ i, i < s.olen.toNat → s.obuf.Listed i
  sout : ∀ i, i < s.solen.toNat → s.sout.Listed i
  rbuf : ∀ i, i < s.rlen.toNat → s.rbuf.Listed i

/-- R252: a run whose STATUS.FAULT is 1 at its end is a faulted run. -/
def State.faulted (s : State) : Bool := s.status.fault

/-! ### The data flows on bit lists (R3) -/

/-- The stream bits of a byte list, least significant first within each byte (R60). -/
def bitsOfBytes (L : List Byte) : List Bool := L.flatMap fun b => (List.range 8).map b.getLsbD

/-- The number whose bit `j` is element `j`. -/
def natOfBits : List Bool → Nat
  | [] => 0
  | b :: bs => b.toNat + 2 * natOfBits bs

/-- The 6-bit value at the head of a bit stream; missing bits are zero (R102). -/
def headSymbol (B : List Bool) : Symbol := BitVec.ofNat 6 (natOfBits (B.take 6))

/-- How many bits a symbol stands for: 5 if compact, 6 otherwise (R150, R156). -/
def symbolWidth (v : Symbol) : Nat := if compact v then 5 else 6

/-- The symbols of a bit stream (R150), on fuel: take 6 bits; a compact value keeps its low 5 and gives the sixth back. -/
def symbolsOfBits : Nat → List Bool → List Symbol
  | 0, _ => []
  | _ + 1, [] => []
  | fuel + 1, b :: bs =>
    let raw := headSymbol (b :: bs)
    if compact raw then (raw &&& 0b011111) :: symbolsOfBits fuel ((b :: bs).drop 5)
    else raw :: symbolsOfBits fuel ((b :: bs).drop 6)

/-- encode's symbols for a byte list; the fuel is the number of bits, and every symbol takes some. -/
def encodeSymbols (L : List Byte) : List Symbol := symbolsOfBits (bitsOfBytes L).length (bitsOfBytes L)

/-- The low `n` bits of a value, the lowest first. -/
def bitsOfSymbol (n : Nat) (v : Symbol) : List Bool := (List.range n).map v.getLsbD

/-- What characters contribute that others follow (R156, rules a and c): 5 bits if compact, 6 otherwise. -/
def innerBits (v : List Symbol) : List Bool := v.flatMap fun x => bitsOfSymbol (symbolWidth x) x

/-- R156's contributions appended to the bits `B` written so far: rules a, b, c in this order. -/
def joinSymbols : List Symbol → List Bool → List Bool
  | [], B => B
  | v :: rest, B =>
    let n := if compact v then 5 else if rest.isEmpty then (8 - B.length % 8) % 8 else 6
    joinSymbols rest (B ++ bitsOfSymbol n v)

/-- The complete bytes of a bit stream (R124): exactly `floor(length/8)`, the rest is never emitted (R125). -/
def completeBytes (B : List Bool) : List Byte :=
  (List.range (B.length / 8)).map fun q => BitVec.ofNat 8 (natOfBits ((B.drop (8 * q)).take 8))

/-- decode's bytes for a list of symbols. -/
def decodeSymbols (L : List Symbol) : List Byte := completeBytes (joinSymbols L [])

/-! ### What the composite commands leave -/

/-- The reader was constructed over `L` (R100) and stands at bit `c`; RBUF above `L` is as it was. -/
def ReaderOver (L : List Byte) (c : Nat) (s t : State) : Prop :=
  t.rlen.toNat = L.length ∧ t.rcur.toNat = c ∧ memRead t.rbufByte L.length = L ∧
  ∀ i, L.length ≤ i → t.rbufByte i = s.rbufByte i

/-- SOUT and SOLEN give the symbols `v` as their characters ALPHA(v); SOUT above them is as it was (R150, R68). -/
def SymbolsEmitted (v : List Symbol) (s t : State) : Prop :=
  t.solen.toNat = v.length ∧ (memRead t.soutChar v.length).map some = v.map (fun x => alpha (x.setWidth 8)) ∧
  ∀ i, v.length ≤ i → t.soutChar i = s.soutChar i

/-- OBUF and OLEN give the bytes `L`; OBUF above them is as it was (R124, R68). -/
def BytesEmitted (L : List Byte) (s t : State) : Prop :=
  t.olen.toNat = L.length ∧ memRead t.obufByte L.length = L ∧ ∀ i, L.length ≤ i → t.obufByte i = s.obufByte i

/-- The writer holds exactly the bits `B`: WCUR is their count, and every other stream bit of WBUF is zero (R37, R122). -/
def WriterHolds (B : List Bool) (t : State) : Prop :=
  t.wcur.toNat = B.length ∧ ∀ k, t.writerBit k = B.getD k false

/-- The first `m` characters of SIN have the values `v` (R41). -/
def SinSymbols (m : Nat) (v : List Symbol) (s : State) : Prop := (memRead s.sinChar m).map dtab = v.map some

end Sys2Proof.Machine
end

