-- ==== Sys2Proof/Certificates/Slice0/Obligations.lean ====
section
/-! DEFINITION. The statements for the provers, from the numbered rules of spec/. -/

open Sys2Proof Sys2Proof.Machine

/-! ### Encoding -/

/-- 30_encoding.md §2 and §3: the word of a well-formed command decodes to that command, with every operand. -/
def Obligations.DecodeOfEncodeIsIdentity : Prop :=
  ∀ i : Instr, i.wf = true → decode (encode i) = .ok i

/-- 30_encoding.md §2 and §3: a word that decodes is the word of a well-formed command, so each word has one meaning. -/
def Obligations.DecodedWordsAreEncodings : Prop :=
  ∀ (w : Word) (i : Instr), decode w = .ok i → i.wf = true ∧ encode i = w

/-- 30_encoding.md §3: words of every family, written from R85's table. -/
def Obligations.WordsOfEveryFamilyDecode : Prop :=
  decode 0x00000800 = .ok .rdInit ∧ decode 0x00001E00 = .ok (.rdRead 6) ∧ decode 0x00002100 = .ok .rdSeekback ∧
  decode 0x0000351E = .ok (.wrWrite 5 30) ∧ decode 0x00004000 = .ok .wrTobytes ∧
  decode 0x0000483D = .ok (.symEnc 61) ∧ decode 0x00005065 = .ok (.symDec 0x65) ∧
  decode 0x00005800 = .ok .encode ∧ decode 0x00006000 = .ok .decode ∧
  decode 0x00006800 = .ok .idTobytes ∧ decode 0x00008000 = .ok .idFrombase62

/-- R86: every word that no row of R85 admits raises IllegalCommand, which changes nothing but STATUS.ERR and is not sticky;
the second clause lists the words R86 names. -/
def Obligations.IllegalWordsReportIllegalCommand : Prop :=
  (∀ (s : State) (w : Word), s.resetLine = false → s.status.fault = false → (∀ i : Instr, i.wf = true → encode i ≠ w) →
    step (s.receiving (.store s.cfg.pBase 4 w)) =
      .next { s with status := { err := some .illegalCommand, fault := false } }) ∧
  ∀ w : Word,
    (fieldRsv w ≠ 0 ∨ fieldOpc w = 0 ∨ 0x11 ≤ (fieldOpc w).toNat ∨
     (fieldOpc w = 0x03 ∧ (fieldN w = 0 ∨ fieldN w = 7)) ∨ (fieldOpc w = 0x04 ∧ fieldN w ≠ 1) ∨
     (fieldOpc w = 0x06 ∧ fieldN w = 7) ∨
     (fieldOpc w ≠ 0x03 ∧ fieldOpc w ≠ 0x04 ∧ fieldOpc w ≠ 0x06 ∧ fieldN w ≠ 0) ∨
     (fieldOpc w ≠ 0x06 ∧ fieldOpc w ≠ 0x09 ∧ fieldOpc w ≠ 0x0A ∧ fieldImm8 w ≠ 0)) →
    ∀ i : Instr, i.wf = true → encode i ≠ w

/-! ### The step -/

/-- 70_reset_and_hazards.md §3: the step that takes a CMD write of a command's word is that command's `exec`; around it the
step only takes the write off the pending inputs. -/
def Obligations.StepRunsTheWrittenCommand : Prop :=
  ∀ (s : State) (w : Word) (i : Instr), s.resetLine = false → decode w = .ok i →
    step (s.receiving (.store s.cfg.pBase 4 w)) = exec i s

/-- The model's choice (log 5): the word placed by `withFetchWord` is run by the very next step. -/
def Obligations.FetchWordRunsTheDecodedInstruction : Prop :=
  ∀ (s : State) (nbits w : Nat) (i : Instr), decodeTableWord nbits w = some i →
    step (s.withFetchWord nbits w) = exec i { s with resetLine := false }

/-- 60_exceptions.md §2, 43_base62codec.md §3 (the spec's inference "ALPHA is never indexed at 62 or 63"): no command is refused
and none faults, in any state. -/
def Obligations.EveryCommandEndsInANextState : Prop :=
  ∀ (i : Instr) (s : State), ∃ t, exec i s = .next t

/-- The model's choices (log 5, log 7, log 8): with nothing pending the CORE waits; an access outside the window is refused;
an access while reset is asserted faults; with reset released, every input that is no access outside the window ends in a
next state. -/
def Obligations.StepStopsOnlyOutsideTheCore : Prop :=
  (∀ s : State, s.inputs = [] → step s = .next s) ∧
  (∀ (s : State) (addr size : Nat) (v : Word), (addr < s.cfg.pBase ∨ s.cfg.pBase + 2 ^ 20 ≤ addr) →
    step (s.receiving (.store addr size v)) = .refused .outsideWindow ∧
    step (s.receiving (.load addr size)) = .refused .outsideWindow) ∧
  (∀ (s : State) (off size : Nat) (v : Word), s.resetLine = true → off < 2 ^ 20 →
    step (s.receiving (.store (s.cfg.pBase + off) size v)) = .fault .accessDuringReset ∧
    step (s.receiving (.load (s.cfg.pBase + off) size)) = .fault .accessDuringReset) ∧
  (∀ (s : State) (off size : Nat) (v : Word), s.resetLine = false → off < 2 ^ 20 →
    (∃ t, step (s.receiving (.store (s.cfg.pBase + off) size v)) = .next t) ∧
    (∃ t, step (s.receiving (.load (s.cfg.pBase + off) size)) = .next t)) ∧
  (∀ s : State, (∃ t, step (s.receiving .assertReset) = .next t) ∧ (∃ t, step (s.receiving .releaseReset) = .next t))

/-- The model's choice (log 1, log 2): the capacities and the base address, which 00_scope.md §3 and 20_memory.md §3 leave open,
are carried by the state, and no step changes them. -/
def Obligations.ParametersNeverChange : Prop :=
  ∀ s t : State, step s = .next t → t.cfg = s.cfg

/-! ### BitReader -/

/-- R100. An empty buffer gives a reader without bits, and a later write to IBUF's window does not reach RBUF. -/
def Obligations.RdInitSnapshotsIbuf : Prop :=
  encode .rdInit = 0x00000800 ∧
  ∀ s : State, s.status.fault = false →
    (s.ilen.toNat ≤ s.cfg.pIbytes →
      ∃ t, exec .rdInit s = .next t ∧ t.status.err = none ∧
        ReaderOver (memRead s.ibufByte s.ilen.toNat) 0 s t ∧ KeptExcept [.err, .rbuf, .rlen, .rcur] s t ∧
        (s.ilen = 0 → exec .rdHasmore t = .next { t with result := 0 }) ∧
        ∀ k v u, k < 0x10000 → step (t.receiving (.store (t.cfg.pBase + (0x10000 + k)) 1 v)) = .next u →
          ∀ i, u.rbufByte i = t.rbufByte i) ∧
    (s.cfg.pIbytes < s.ilen.toNat →
      exec .rdInit s = .next { s with status := { err := some .capacityError, fault := false } })

/-- R101. -/
def Obligations.RdHasmoreTestsTheCursor : Prop :=
  encode .rdHasmore = 0x00001000 ∧
  ∀ s : State, s.status.fault = false →
    ∃ t, exec .rdHasmore s = .next t ∧ t.status.err = none ∧
      t.result = (if s.rcur.toNat < 8 * s.rlen.toNat then 1 else 0) ∧ KeptExcept [.err, .result] s t

/-- R102, with the stream bits of R60: bit `j` of the result is stream bit RCUR + `j`, a missing byte counting as zero. The
counts 0 and 7 are no commands. -/
def Obligations.RdReadReturnsTheNextBits : Prop :=
  ∀ (n : BitVec 3) (s : State), s.status.fault = false →
    (1 ≤ n.toNat → n.toNat ≤ 6 →
      encode (.rdRead n) = 0x00001800 + (n.setWidth 32 <<< 8) ∧
      (s.rcur.toNat < 8 * s.rlen.toNat →
        ∃ t, exec (.rdRead n) s = .next t ∧ t.status.err = none ∧ t.rcur = s.rcur + n.setWidth 32 ∧
          (∀ j, t.result.getLsbD j = (decide (j < n.toNat) && s.readerBit (s.rcur.toNat + j))) ∧
          KeptExcept [.err, .result, .rcur] s t) ∧
      (8 * s.rlen.toNat ≤ s.rcur.toNat →
        exec (.rdRead n) s = .next { s with status := { err := some .boundsError, fault := true } })) ∧
    (n.toNat = 0 ∨ n.toNat = 7 → decode (packWord 0x03 n 0) = .error .badCount)

/-- R104. A seek of any other distance is no command. -/
def Obligations.RdSeekbackRewindsOneBit : Prop :=
  encode .rdSeekback = 0x00002100 ∧ (∀ n : BitVec 3, n ≠ 1 → decode (packWord 0x04 n 0) = .error .badCount) ∧
  ∀ s : State, s.status.fault = false →
    (0 < s.rcur.toNat →
      ∃ t, exec .rdSeekback s = .next t ∧ t.status.err = none ∧ t.rcur.toNat = s.rcur.toNat - 1 ∧
        KeptExcept [.err, .rcur] s t) ∧
    (s.rcur.toNat = 0 →
      exec .rdSeekback s = .next { s with status := { err := some .boundsError, fault := true } })

/-- R251: a write to IBUF does not change what a later RD_READ does; a new RD_INIT reads the new contents (R100). -/
def Obligations.IbufWritesMissTheReader : Prop :=
  (∀ (n : BitVec 3) (s t : State) (b : Buffer), exec (.rdRead n) s = .next t →
    exec (.rdRead n) { s with ibuf := b } = .next { t with ibuf := b }) ∧
  ∀ (s : State) (b : Buffer), s.status.fault = false → s.ilen.toNat ≤ s.cfg.pIbytes →
    ∃ t, exec .rdInit { s with ibuf := b } = .next t ∧
      ∀ i, i < s.ilen.toNat → t.rbufByte i = ({ s with ibuf := b } : State).ibufByte i

/-! ### BitWriter -/

/-- R120: WCAP is read and changes nothing. -/
def Obligations.WrInitClearsTheWriter : Prop :=
  encode .wrInit = 0x00002800 ∧
  ∀ s : State, s.status.fault = false →
    ∃ t, exec .wrInit s = .next t ∧ t.status.err = none ∧ t.wcur = 0 ∧ (∀ i, t.wbufByte i = 0) ∧
      KeptExcept [.err, .wbuf, .wcur] s t

/-- R121: bit `j` of the value, for `j` below `n`, is ORed into stream bit WCUR + `j`; the value's other bits are ignored.
The count 7 is no command. -/
def Obligations.WrWriteAppendsTheLowBits : Prop :=
  ∀ (n : BitVec 3) (value : Byte) (s : State), s.status.fault = false →
    (n.toNat ≤ 6 →
      encode (.wrWrite n value) = 0x00003000 + (n.setWidth 32 <<< 8) + value.setWidth 32 ∧
      (s.wcur.toNat + n.toNat ≤ 8 * s.cfg.pObytes →
        ∃ t, exec (.wrWrite n value) s = .next t ∧ t.status.err = none ∧ t.wcur = s.wcur + n.setWidth 32 ∧
          (∀ k, t.writerBit k = (s.writerBit k ||
            (decide (s.wcur.toNat ≤ k ∧ k < s.wcur.toNat + n.toNat) && value.getLsbD (k - s.wcur.toNat)))) ∧
          KeptExcept [.err, .wbuf, .wcur] s t) ∧
      (8 * s.cfg.pObytes < s.wcur.toNat + n.toNat →
        exec (.wrWrite n value) s = .next { s with status := { err := some .capacityError, fault := false } })) ∧
    (n.toNat = 7 → decode (packWord 0x06 n value) = .error .badCount)

/-- R123. -/
def Obligations.WrBtbCountsToTheBoundary : Prop :=
  encode .wrBtb = 0x00003800 ∧
  ∀ s : State, s.status.fault = false →
    ∃ t, exec .wrBtb s = .next t ∧ t.status.err = none ∧ t.result.toNat = (8 - s.wcur.toNat % 8) % 8 ∧
      KeptExcept [.err, .result] s t

/-- R124: exactly `floor(WCUR/8)` bytes; WBUF, WCUR and the rest of OBUF stay. -/
def Obligations.WrTobytesEmitsCompleteBytes : Prop :=
  encode .wrTobytes = 0x00004000 ∧
  ∀ s : State, s.status.fault = false →
    ∃ t, exec .wrTobytes s = .next t ∧ t.status.err = none ∧
      BytesEmitted (memRead s.wbufByte (s.wcur.toNat / 8)) s t ∧ KeptExcept [.err, .obuf, .olen] s t

/-- 10_state.md, WCAP ("No command's result depends on its value"): with another WCAP a command does the same. -/
def Obligations.WcapChangesNoResult : Prop :=
  ∀ (i : Instr) (s t : State) (c : Word), exec i s = .next t →
    exec i { s with wcap := c } = .next { t with wcap := c }

/-! ### Tables and symbols -/

/-- R40: the 62 entries in order; none at 62 and above, and no command asks for one there. -/
def Obligations.AlphabetTableEntries : Prop :=
  (List.range 62).map (fun v => alpha (BitVec.ofNat 8 v)) =
    ((List.range 26).map (fun k => some (BitVec.ofNat 8 (0x41 + k))) ++
     (List.range 26).map (fun k => some (BitVec.ofNat 8 (0x61 + k))) ++
     (List.range 10).map (fun k => some (BitVec.ofNat 8 (0x30 + k)))) ∧
  (∀ v : Byte, 62 ≤ v.toNat → alpha v = none) ∧
  ∀ (i : Instr) (s : State), exec i s ≠ .refused .noAlphabetEntry

/-- R41: the three ranges, and 62 valid entries of 256. -/
def Obligations.DecodeTableEntries : Prop :=
  (∀ c : Byte, dtab c =
    if 0x41 ≤ c.toNat ∧ c.toNat ≤ 0x5A then some (BitVec.ofNat 6 (c.toNat - 0x41))
    else if 0x61 ≤ c.toNat ∧ c.toNat ≤ 0x7A then some (BitVec.ofNat 6 (c.toNat - 0x61 + 26))
    else if 0x30 ≤ c.toNat ∧ c.toNat ≤ 0x39 then some (BitVec.ofNat 6 (c.toNat - 0x30 + 52))
    else none) ∧
  ((List.range 256).filter (fun c => (dtab (BitVec.ofNat 8 c)).isSome)).length = 62

/-- R42: the tables are exact inverses over the valid characters. -/
def Obligations.TablesAreInverse : Prop :=
  (∀ v : Symbol, v.toNat ≤ 61 → ∃ c, alpha (v.setWidth 8) = some c ∧ dtab c = some v) ∧
  ∀ (c : Byte) (v : Symbol), dtab c = some v → v.toNat ≤ 61 ∧ alpha (v.setWidth 8) = some c

/-- R140: compact means bits 4, 3, 2 and 1 are all 1; the compact values are exactly 30, 31, 62 and 63. -/
def Obligations.CompactValuesAreExactlyFour : Prop :=
  ∀ v : Symbol,
    (compact v = true ↔ v &&& 0b011110 = 0b011110) ∧
    (compact v = true ↔ v.toNat ∈ [30, 31, 62, 63]) ∧
    (compact v = true ↔ (v.getLsbD 1 && v.getLsbD 2 && v.getLsbD 3 && v.getLsbD 4) = true)

/-- 43_base62codec.md §1: the low 5 bits of a compact value are compact again and name an alphabet entry; a value that is
not compact names one itself. -/
def Obligations.CompactionKeepsTheSymbol : Prop :=
  ∀ raw : Symbol,
    (compact raw = true → compact (raw &&& 0b011111) = true ∧ (raw &&& 0b011111).toNat ∈ [30, 31]) ∧
    (compact raw = false → raw.toNat ≤ 61 ∧ (alpha (raw.setWidth 8)).isSome = true)

/-- R145. -/
def Obligations.SymEncLooksUpTheAlphabet : Prop :=
  ∀ (v : Byte) (s : State), s.status.fault = false →
    encode (.symEnc v) = 0x00004800 + v.setWidth 32 ∧
    (v.toNat < 62 → ∃ c t, alpha v = some c ∧ exec (.symEnc v) s = .next t ∧ t.status.err = none ∧
      t.result = c.setWidth 32 ∧ KeptExcept [.err, .result] s t) ∧
    (62 ≤ v.toNat →
      exec (.symEnc v) s = .next { s with status := { err := some .invalidSymbol, fault := false } })

/-- R146. -/
def Obligations.SymDecLooksUpTheValue : Prop :=
  ∀ (c : Byte) (s : State), s.status.fault = false →
    encode (.symDec c) = 0x00005000 + c.setWidth 32 ∧
    (∀ v, dtab c = some v → ∃ t, exec (.symDec c) s = .next t ∧ t.status.err = none ∧
      t.result = v.setWidth 32 ∧ KeptExcept [.err, .result] s t) ∧
    (dtab c = none →
      exec (.symDec c) s = .next { s with status := { err := some .invalidSymbol, fault := false } })

/-! ### ENCODE and DECODE -/

/-- R150: ENCODE constructs the reader over IBUF[0..ILEN−1] and leaves in SOUT the symbols of the bit stream, taken 6 bits at
a time, a compact one giving its sixth bit back; RCUR is the sum of the symbols' widths. -/
def Obligations.EncodeFollowsTheBitStream : Prop :=
  encode .encode = 0x00005800 ∧
  ∀ s : State, s.status.fault = false → s.cfg.Admissible →
    (s.ilen.toNat ≤ s.cfg.pIbytes →
      ∃ t, exec .encode s = .next t ∧ t.status.err = none ∧
        SymbolsEmitted (encodeSymbols (memRead s.ibufByte s.ilen.toNat)) s t ∧
        ReaderOver (memRead s.ibufByte s.ilen.toNat)
          ((encodeSymbols (memRead s.ibufByte s.ilen.toNat)).map symbolWidth).sum s t ∧
        KeptExcept [.err, .rbuf, .rlen, .rcur, .sout, .solen] s t) ∧
    (s.cfg.pIbytes < s.ilen.toNat →
      exec .encode s = .next { s with status := { err := some .capacityError, fault := false } })

/-- 43_base62codec.md §3, the spec's inference "`ceil(8·ILEN/6) ≤ SOLEN ≤ ceil(8·ILEN/5)`": the bounds on SOLEN; for an
identifier they are 22 and 26, and both are reached. -/
def Obligations.EncodeLengthIsBounded : Prop :=
  (∀ s t : State, s.status.fault = false → s.cfg.Admissible → s.ilen.toNat ≤ s.cfg.pIbytes → exec .encode s = .next t →
    t.status.err = none ∧
    (8 * s.ilen.toNat + 5) / 6 ≤ t.solen.toNat ∧ t.solen.toNat ≤ (8 * s.ilen.toNat + 4) / 5) ∧
  ∀ s t : State, s.status.fault = false → s.cfg.Admissible → exec .idTobase62 s = .next t →
    22 ≤ t.solen.toNat ∧ t.solen.toNat ≤ 26 ∧
    (s.idHi = 0 → s.idLo = 0 → t.solen.toNat = 22) ∧
    (s.idHi = BitVec.allOnes 64 → s.idLo = BitVec.allOnes 64 → t.solen.toNat = 26)

/-- 43_base62codec.md §3, the spec's inference "ALPHA is never indexed at 62 or 63, and every SOUT character is one of the
62". -/
def Obligations.EncodeEmitsOnlyAlphabetCharacters : Prop :=
  ∀ s : State, s.status.fault = false → s.cfg.Admissible → s.ilen.toNat ≤ s.cfg.pIbytes →
    exec .encode s ≠ .refused .noAlphabetEntry ∧
    ∀ t, exec .encode s = .next t → ∀ k, k < t.solen.toNat → (dtab (t.soutChar k)).isSome = true

/-- 43_base62codec.md §3 (the loop exits when RCUR ≥ 8·ILEN, and runs at most 5 bits past the end). -/
def Obligations.EncodeConsumesEveryBit : Prop :=
  ∀ s t : State, s.status.fault = false → s.cfg.Admissible → s.ilen.toNat ≤ s.cfg.pIbytes → exec .encode s = .next t →
    8 * s.ilen.toNat ≤ t.rcur.toNat ∧ t.rcur.toNat ≤ 8 * s.ilen.toNat + 5

/-- 43_base62codec.md §4: DECODE joins the contributed bits of the characters (rules a, b, c) and emits the complete bytes. It
stops at the first invalid character with what was written so far. Where the contributions do not fit the writer, only the
last character's do not, and the deposit primitive's CapacityError leaves those of the characters before it (log 21). -/
def Obligations.DecodeFollowsTheContributions : Prop :=
  encode .decode = 0x00006000 ∧
  ∀ s : State, s.status.fault = false → s.cfg.Admissible →
    (s.cfg.pSchars < s.silen.toNat →
      exec .decode s = .next { s with status := { err := some .capacityError, fault := false } }) ∧
    (s.silen.toNat ≤ s.cfg.pSchars → ∀ v, SinSymbols s.silen.toNat v s →
      ((joinSymbols v []).length ≤ 8 * s.cfg.pObytes →
        ∃ t, exec .decode s = .next t ∧ t.status.err = none ∧ WriterHolds (joinSymbols v []) t ∧
          BytesEmitted (decodeSymbols v) s t ∧ KeptExcept [.err, .wbuf, .wcur, .obuf, .olen] s t) ∧
      (8 * s.cfg.pObytes < (joinSymbols v []).length →
        ∃ t, exec .decode s = .next t ∧ t.status.err = some .capacityError ∧ WriterHolds (innerBits v.dropLast) t ∧
          KeptExcept [.err, .wbuf, .wcur] s t)) ∧
    (s.silen.toNat ≤ s.cfg.pSchars → ∀ i v, i < s.silen.toNat → SinSymbols i v s → dtab (s.sinChar i) = none →
      ∃ t, exec .decode s = .next t ∧ t.status.err = some .invalidSymbol ∧ t.erridx.toNat = i ∧ t.olen = 0 ∧
        WriterHolds (innerBits v) t ∧
        KeptExcept [.err, .olen, .erridx, .wbuf, .wcur] s t)

/-- 43_base62codec.md §4, the spec's inference "DECODE never runs out of writer space". Its bounds hold at all capacities that
R6 admits. No composite command within its length registers reports CapacityError where WBUF has room for six bits a
character, as at the reference capacities; ENCODE and ID_TOBASE62 nowhere (log 21). -/
def Obligations.DecodeFitsUnderMarginedCapacities : Prop :=
  (∀ s t : State, s.status.fault = false → s.cfg.Admissible → s.silen.toNat ≤ s.cfg.pSchars → exec .decode s = .next t →
    t.wcur.toNat ≤ 6 * s.silen.toNat + 1 ∧
    (t.status.err = none → t.olen.toNat ≤ (6 * s.silen.toNat + 1) / 8 ∧ t.olen.toNat ≤ s.cfg.pObytes)) ∧
  ∀ (i : Instr) (s t : State), s.status.fault = false → s.cfg.Admissible →
    i ∈ [Instr.encode, .decode, .idTobase62, .idFrombase62] → (i = .encode → s.ilen.toNat ≤ s.cfg.pIbytes) →
    (i = .decode ∨ i = .idFrombase62 → s.silen.toNat ≤ s.cfg.pSchars ∧ s.cfg.Roomy) →
    exec i s = .next t → t.status.err ≠ some .capacityError

/-- 42_bitwriter.md, 43_base62codec.md §4 (log 21): some capacities that R6 admits leave one DECODE within P_SCHARS with the
deposit primitive's CapacityError; they are exactly those at which WBUF has not six bits for every character. -/
def Obligations.DecodeCanFillTheWriter : Prop :=
  (∃ c : Config, c.Admissible ∧ ¬ c.Roomy) ∧
  ∀ c : Config, c.Admissible → ¬ c.Roomy →
    ∃ s t : State, s.cfg = c ∧ s.Inv ∧ s.status.fault = false ∧ s.silen.toNat ≤ s.cfg.pSchars ∧
      exec .decode s = .next t ∧ t.status.err = some .capacityError

/-- 43_base62codec.md §4, the spec's inference "gives OLEN = len(b) and OBUF[0..OLEN−1] = b": ENCODE of `b`, then DECODE of
the resulting SOUT copied to SIN with SILEN = SOLEN, gives back `b`. -/
def Obligations.EncodeThenDecodeIsIdentity : Prop :=
  ∀ s : State, s.status.fault = false → s.cfg.Admissible → s.ilen.toNat ≤ s.cfg.pIbytes →
    ∃ t, exec .encode s = .next t ∧
      ∀ u : State, u.status.fault = false → u.cfg = s.cfg → u.silen = t.solen →
        (∀ k, k < t.solen.toNat → u.sinChar k = t.soutChar k) →
        ∃ v, exec .decode u = .next v ∧ v.status.err = none ∧ v.olen = s.ilen ∧
          ∀ i, i < s.ilen.toNat → v.obufByte i = s.ibufByte i

/-! ### Identifiers -/

/-- 44_identifiercodec.md: the bytes of each half, most significant first; only 16 bytes are read; and the spec's inference
"`id_frombytes(id_tobytes(hi, lo)) = (hi, lo)`". -/
def Obligations.IdentifierBytesRoundTrip : Prop :=
  ∀ hi lo : IdHalf,
    (idTobytes hi lo).length = 16 ∧
    (∀ k, k < 8 → (idTobytes hi lo)[k]? = some (hi.extractLsb' (56 - 8 * k) 8)) ∧
    (∀ k, k < 8 → (idTobytes hi lo)[8 + k]? = some (lo.extractLsb' (56 - 8 * k) 8)) ∧
    ∀ rest, idFrombytes (idTobytes hi lo ++ rest) = (hi, lo)

/-- R171. -/
def Obligations.IdTobytesSerializesBigEndian : Prop :=
  encode .idTobytes = 0x00006800 ∧
  ∀ s : State, s.status.fault = false →
    ∃ t, exec .idTobytes s = .next t ∧ t.status.err = none ∧
      BytesEmitted (idTobytes s.idHi s.idLo) s t ∧ KeptExcept [.err, .obuf, .olen] s t

/-- R172: 16 bytes or more; the first 16 are the identifier. -/
def Obligations.IdFrombytesReadsSixteenBytes : Prop :=
  encode .idFrombytes = 0x00007000 ∧
  ∀ s : State, s.status.fault = false →
    (s.cfg.pIbytes < s.ilen.toNat →
      exec .idFrombytes s = .next { s with status := { err := some .capacityError, fault := false } }) ∧
    (s.ilen.toNat ≤ s.cfg.pIbytes → s.ilen.toNat < 16 →
      exec .idFrombytes s = .next { s with status := { err := some .lengthError, fault := false } }) ∧
    (s.ilen.toNat ≤ s.cfg.pIbytes → 16 ≤ s.ilen.toNat →
      ∃ t, exec .idFrombytes s = .next t ∧ t.status.err = none ∧
        idTobytes t.idHi t.idLo = memRead s.ibufByte 16 ∧ KeptExcept [.err, .idHi, .idLo] s t)

/-- R173. -/
def Obligations.IdTobase62EncodesTheIdentifier : Prop :=
  encode .idTobase62 = 0x00007800 ∧
  ∀ s : State, s.status.fault = false → s.cfg.Admissible →
    ∃ t, exec .idTobase62 s = .next t ∧ t.status.err = none ∧
      SymbolsEmitted (encodeSymbols (idTobytes s.idHi s.idLo)) s t ∧
      ReaderOver (idTobytes s.idHi s.idLo) ((encodeSymbols (idTobytes s.idHi s.idLo)).map symbolWidth).sum s t ∧
      KeptExcept [.err, .rbuf, .rlen, .rcur, .sout, .solen] s t

/-- 44_identifiercodec.md: CapacityError, then InvalidSymbol as DECODE, then LengthError unless exactly 16 bytes; on every failure the
identifier registers stay. The clause on contributions that do not fit the writer is the deposit primitive's (log 21). -/
def Obligations.IdFrombase62DecodesTheIdentifier : Prop :=
  encode .idFrombase62 = 0x00008000 ∧
  ∀ s : State, s.status.fault = false → s.cfg.Admissible →
    (s.cfg.pSchars < s.silen.toNat →
      exec .idFrombase62 s = .next { s with status := { err := some .capacityError, fault := false } }) ∧
    (s.silen.toNat ≤ s.cfg.pSchars → ∀ v, SinSymbols s.silen.toNat v s →
      ((decodeSymbols v).length = 16 →
        (joinSymbols v []).length ≤ 8 * s.cfg.pObytes →
        ∃ t, exec .idFrombase62 s = .next t ∧ t.status.err = none ∧ WriterHolds (joinSymbols v []) t ∧
          BytesEmitted (decodeSymbols v) s t ∧ idTobytes t.idHi t.idLo = decodeSymbols v ∧
          KeptExcept [.err, .wbuf, .wcur, .obuf, .olen, .idHi, .idLo] s t) ∧
      ((decodeSymbols v).length ≠ 16 →
        (joinSymbols v []).length ≤ 8 * s.cfg.pObytes →
        ∃ t, exec .idFrombase62 s = .next t ∧ t.status.err = some .lengthError ∧ WriterHolds (joinSymbols v []) t ∧
          BytesEmitted (decodeSymbols v) s t ∧ KeptExcept [.err, .wbuf, .wcur, .obuf, .olen] s t) ∧
      (8 * s.cfg.pObytes < (joinSymbols v []).length →
        ∃ t, exec .idFrombase62 s = .next t ∧ t.status.err = some .capacityError ∧ WriterHolds (innerBits v.dropLast) t ∧
          KeptExcept [.err, .wbuf, .wcur] s t)) ∧
    (s.silen.toNat ≤ s.cfg.pSchars → ∀ i v, i < s.silen.toNat → SinSymbols i v s → dtab (s.sinChar i) = none →
      ∃ t, exec .idFrombase62 s = .next t ∧ t.status.err = some .invalidSymbol ∧ t.erridx.toNat = i ∧ t.olen = 0 ∧
        WriterHolds (innerBits v) t ∧
        KeptExcept [.err, .olen, .erridx, .wbuf, .wcur] s t)

/-- 44_identifiercodec.md, the spec's inference "then ID_FROMBASE62 gives ID_HI = hi and ID_LO = lo with STATUS.ERR = 0":
ID_TOBASE62 from (hi, lo), SOUT copied to SIN with SILEN = SOLEN, then ID_FROMBASE62 gives (hi, lo) back. -/
def Obligations.IdentifierBase62RoundTrip : Prop :=
  ∀ s : State, s.status.fault = false → s.cfg.Admissible →
    ∃ t, exec .idTobase62 s = .next t ∧
      ∀ u : State, u.status.fault = false → u.cfg = s.cfg → u.silen = t.solen →
        (∀ k, k < t.solen.toNat → u.sinChar k = t.soutChar k) →
        ∃ v, exec .idFrombase62 u = .next v ∧ v.status.err = none ∧ v.idHi = s.idHi ∧ v.idLo = s.idLo

/-! ### Invariants -/

/-- The state after reset, at any admissible parameters, meets the invariant; the reference ones are admissible (log 1). -/
def Obligations.ResetStateMeetsInvariant : Prop :=
  State.reset.Inv ∧
  ∀ (c : Config) (draws : Nat) (r : Word) (inputs : List BusEvent), c.Admissible → (State.atReset c draws r inputs).Inv

/-- Every step keeps the invariant: the register ranges, the writer's zero bits, the canonical memory, the sticky fault and
the alphabet in SOUT. -/
def Obligations.StepKeepsInvariant : Prop :=
  ∀ s t : State, s.Inv → step s = .next t → t.Inv

/-- After reset no length covers an element, so none covers an unwritten one (R231). -/
def Obligations.ResetStateExtentsWritten : Prop :=
  ∀ (c : Config) (draws : Nat) (r : Word) (inputs : List BusEvent), (State.atReset c draws r inputs).ExtentsWritten

/-- Every step keeps it: no element of OBUF below OLEN, of SOUT below SOLEN or of RBUF below RLEN is a power-on draw. -/
def Obligations.StepKeepsExtentsWritten : Prop :=
  ∀ s t : State, s.cfg.Admissible → s.ExtentsWritten → step s = .next t → t.ExtentsWritten

/-! ### Reset -/

/-- 70_reset_and_hazards.md §1 ("Every host register … takes its listed reset value"): reset, asserted and then released, sets
every host register to 0 and WBUF to all zero; so does the model's first state. The model's choice is that reset comes as two
edges, the first of which only marks it, and that the parameters and the pending inputs survive it (log 7). No command is a reset (log 3's count of resets stays). -/
def Obligations.ResetClearsEveryRegister : Prop :=
  (∀ s : State, step (s.receiving .assertReset) = .next { s with resetLine := true }) ∧
  (∀ s : State, s.resetLine = true →
    ∃ t, step (s.receiving .releaseReset) = .next t ∧ t.resetLine = false ∧
      t.status = { err := none, fault := false } ∧ (∀ k, k < 16 → peek t (4 * k) 4 = 0) ∧ (∀ i, t.wbufByte i = 0) ∧
      t.cfg = s.cfg ∧ t.inputs = s.inputs) ∧
  (∀ k, k < 16 → peek State.reset (4 * k) 4 = 0) ∧ (∀ i, State.reset.wbufByte i = 0) ∧
  ∀ (i : Instr) (s t : State), exec i s = .next t → t.draws = s.draws

/-- 70_reset_and_hazards.md §1, the spec's inference of "What the reset state means for the units": the reader is empty, the
writer is constructed and empty, and the identifier is zero. -/
def Obligations.ResetUnitsAreEmpty : Prop :=
  ∀ (c : Config) (draws : Nat) (r : Word) (inputs : List BusEvent), c.Admissible →
    ∀ s, s = State.atReset c draws r inputs →
      exec .rdHasmore s = .next s ∧
      (∀ n : BitVec 3, 1 ≤ n.toNat → n.toNat ≤ 6 →
        exec (.rdRead n) s = .next { s with status := { err := some .boundsError, fault := true } }) ∧
      exec .rdSeekback s = .next { s with status := { err := some .boundsError, fault := true } } ∧
      exec .wrBtb s = .next s ∧ exec .wrTobytes s = .next s ∧
      (∃ t, exec .idTobytes s = .next t ∧ BytesEmitted (List.replicate 16 0) s t) ∧
      ∃ t, exec .idTobase62 s = .next t ∧ t.solen.toNat = 22 ∧ memRead t.soutChar 22 = List.replicate 22 0x41

/-- The model's form of R231 (log 3): after a reset every element of the five RAMs is that reset's draw, and a release of
reset takes fresh draws. -/
def Obligations.UnwrittenElementsAreDraws : Prop :=
  (∀ (c : Config) (d : Nat) (r : Word) (inputs : List BusEvent) (k : Nat),
    (State.atReset c d r inputs).ibufByte k = Config.powerOnByte d .ibuf k ∧
    (State.atReset c d r inputs).obufByte k = Config.powerOnByte d .obuf k ∧
    (State.atReset c d r inputs).sinChar k = Config.powerOnByte d .sin k ∧
    (State.atReset c d r inputs).soutChar k = Config.powerOnByte d .sout k ∧
    (State.atReset c d r inputs).rbufByte k = Config.powerOnByte d .rbuf k) ∧
  ∀ s t : State, s.resetLine = true → step (s.receiving .releaseReset) = .next t →
    t = State.atReset s.cfg (s.draws + 1) s.readData s.inputs

/-! ### Registers over all commands -/

/-- 10_state.md, STATUS and 60_exceptions.md's codes: the word the host reads has ERR in [2:0], FAULT in bit 3 and zeros above. -/
def Obligations.StatusWordLayout : Prop :=
  ∀ s : State,
    peek s 0x004 4 = s.status.word ∧
    s.status.word.getLsbD 3 = s.status.fault ∧ (∀ k, 4 ≤ k → s.status.word.getLsbD k = false) ∧
    (s.status.word.extractLsb' 0 3).toNat =
      (match s.status.err with
       | none => 0
       | some .invalidSymbol => 1
       | some .lengthError => 2
       | some .boundsError => 3
       | some .illegalCommand => 4
       | some .capacityError => 5)

/-- R25: only five commands write RESULT, only on success, and zero-extended within these ranges. -/
def Obligations.ResultWrittenOnlyByScalarCommands : Prop :=
  (∀ (i : Instr) (s t : State), exec i s = .next t →
    (t.status.err ≠ none → t.result = s.result) ∧
    (t.status.err = none →
      match i with
      | .rdHasmore => t.result.toNat ≤ 1
      | .rdRead _ => t.result.toNat ≤ 63
      | .wrBtb => t.result.toNat ≤ 7
      | .symEnc _ => t.result.toNat ≤ 255
      | .symDec _ => t.result.toNat ≤ 61
      | _ => t.result = s.result)) ∧
  State.reset.result = 0

/-- R34: ERRIDX is the position of the first invalid character when DECODE or ID_FROMBASE62 raises InvalidSymbol, and nothing
else writes it but reset. -/
def Obligations.ErridxWrittenOnlyOnInvalidSymbol : Prop :=
  (∀ (i : Instr) (s t : State), exec i s = .next t →
    (t.status.err = some .invalidSymbol ∧ (i = .decode ∨ i = .idFrombase62) →
      t.erridx.toNat < s.silen.toNat ∧ dtab (s.sinChar t.erridx.toNat) = none ∧
      ∀ j, j < t.erridx.toNat → dtab (s.sinChar j) ≠ none) ∧
    (¬ (t.status.err = some .invalidSymbol ∧ (i = .decode ∨ i = .idFrombase62)) → t.erridx = s.erridx)) ∧
  (∀ s t : State, step s = .next t → t.erridx ≠ s.erridx →
    s.inputs.head? = some .releaseReset ∨ ∃ w, s.inputs.head? = some (.store s.cfg.pBase 4 w)) ∧
  State.reset.erridx = 0

/-- 10_state.md §5, the spec's summary "State written by each command on success": on success a command writes only its
row of the matrix and STATUS.ERR, in OBUF only below OLEN and in SOUT only below SOLEN; no command writes ILEN, SILEN, WCAP, IBUF or SIN, whatever its outcome. -/
def Obligations.CommandsWriteOnlyTheirMatrixRow : Prop :=
  ∀ (i : Instr) (s t : State), s.cfg.Admissible → exec i s = .next t →
    (t.status.err = none → KeptExcept (.err :: writesOnSuccess i) s t ∧
      (∀ k, t.olen.toNat ≤ k → t.obufByte k = s.obufByte k) ∧
      (∀ k, t.solen.toNat ≤ k → t.soutChar k = s.soutChar k)) ∧
    Part.ilen.Kept s t ∧ Part.silen.Kept s t ∧ Part.wcap.Kept s t ∧ Part.ibuf.Kept s t ∧ Part.sin.Kept s t ∧
    Part.outside.Kept s t

/-! ### Errors -/

/-- 60_exceptions.md §2, the spec's inference "State written by a failing command, besides STATUS.ERR", at all capacities that
R6 admits. Where WBUF has not six bits for every character, the deposit primitive's CapacityError inside DECODE leaves what
was written before it, as "a state write that the pseudocode performed before the `raise` stays performed" (log 21). -/
def Obligations.FailingCommandsWriteOnlyTheirReport : Prop :=
  ∀ (i : Instr) (s t : State) (e : ErrKind), s.cfg.Admissible → exec i s = .next t → t.status.err = some e →
    match e with
    | .illegalCommand => t = { s with status := { err := some .illegalCommand, fault := false } }
    | .capacityError => t = { s with status := { err := some .capacityError, fault := false } } ∨
        (¬ s.cfg.Roomy ∧ (i = .decode ∨ i = .idFrombase62) ∧ KeptExcept [.err, .wbuf, .wcur] s t ∧
          ∃ v, SinSymbols s.silen.toNat v s ∧ WriterHolds (innerBits v.dropLast) t)
    | .boundsError => t = { s with status := { err := some .boundsError, fault := true } } ∧
        (s.status.fault = true ∨ i = .rdSeekback ∨ ∃ n, i = .rdRead n)
    | .invalidSymbol =>
        ((∃ x, i = .symEnc x ∨ i = .symDec x) ∧ t = { s with status := { err := some .invalidSymbol, fault := false } }) ∨
        ((i = .decode ∨ i = .idFrombase62) ∧ t.olen = 0 ∧ KeptExcept [.err, .olen, .erridx, .wbuf, .wcur] s t ∧
          ∃ v, SinSymbols t.erridx.toNat v s ∧ WriterHolds (innerBits v) t)
    | .lengthError =>
        (i = .idFrombytes ∧ t = { s with status := { err := some .lengthError, fault := false } }) ∨
        (i = .idFrombase62 ∧ ∃ u, exec .decode s = .next u ∧ u.status.err = none ∧
          t = { u with status := { err := some .lengthError, fault := false } })

/-- 60_exceptions.md §1, the spec's inference "Which source errors the composite commands can reach", from a state without
FAULT. -/
def Obligations.CompositeCommandErrors : Prop :=
  (∀ (i : Instr) (s t : State), s.status.fault = false → s.cfg.Admissible → exec i s = .next t →
    i ∈ [Instr.encode, .decode, .idTobytes, .idFrombytes, .idTobase62, .idFrombase62] →
    t.status.err ≠ some .boundsError ∧
    (t.status.err = some .invalidSymbol → i = .decode ∨ i = .idFrombase62) ∧
    (t.status.err = some .lengthError → i = .idFrombytes ∨ i = .idFrombase62)) ∧
  (∃ s t : State, s.Inv ∧ s.status.fault = false ∧ exec .decode s = .next t ∧ t.status.err = some .invalidSymbol) ∧
  (∃ s t : State, s.Inv ∧ s.status.fault = false ∧ exec .idFrombytes s = .next t ∧ t.status.err = some .lengthError) ∧
  (∃ s t : State, s.Inv ∧ s.status.fault = false ∧ exec .idFrombase62 s = .next t ∧ t.status.err = some .invalidSymbol) ∧
  (∃ s t : State, s.Inv ∧ s.status.fault = false ∧ exec .idFrombase62 s = .next t ∧ t.status.err = some .lengthError)

/-- R205: FAULT, then IllegalCommand, then CapacityError for a length register, then the command's own errors in pseudocode
order: for ID_FROMBASE62 InvalidSymbol at the lowest invalid position, before LengthError. -/
def Obligations.ErrorPriorityOrder : Prop :=
  (∀ (s : State) (w : Word), s.resetLine = false → s.status.fault = true →
    step (s.receiving (.store s.cfg.pBase 4 w)) = .next { s with status := { err := some .boundsError, fault := true } }) ∧
  (∀ (s : State) (w : Word) (d : DecodeError), s.resetLine = false → s.status.fault = false → decode w = .error d →
    step (s.receiving (.store s.cfg.pBase 4 w)) =
      .next { s with status := { err := some .illegalCommand, fault := false } }) ∧
  (∀ (i : Instr) (s : State), s.status.fault = false →
    (i ∈ [Instr.rdInit, .encode, .idFrombytes] ∧ s.cfg.pIbytes < s.ilen.toNat ∨
     i ∈ [Instr.decode, .idFrombase62] ∧ s.cfg.pSchars < s.silen.toNat) →
    exec i s = .next { s with status := { err := some .capacityError, fault := false } }) ∧
  (∀ (s : State) (i : Nat), s.status.fault = false → s.cfg.Admissible → s.silen.toNat ≤ s.cfg.pSchars →
    i < s.silen.toNat → dtab (s.sinChar i) = none → (∀ j, j < i → dtab (s.sinChar j) ≠ none) →
    ∃ t, exec .idFrombase62 s = .next t ∧ t.status.err = some .invalidSymbol ∧ t.erridx.toNat = i) ∧
  (∀ s : State, s.status.fault = false → s.ilen.toNat ≤ s.cfg.pIbytes → s.ilen.toNat < 16 →
    exec .idFrombytes s = .next { s with status := { err := some .lengthError, fault := false } }) ∧
  (∀ (s : State) (n : BitVec 3), s.status.fault = false → 1 ≤ n.toNat → n.toNat ≤ 6 → 8 * s.rlen.toNat ≤ s.rcur.toNat →
    exec (.rdRead n) s = .next { s with status := { err := some .boundsError, fault := true } }) ∧
  (∀ s : State, s.status.fault = false → s.rcur = 0 →
    exec .rdSeekback s = .next { s with status := { err := some .boundsError, fault := true } }) ∧
  ∀ (s : State) (n : BitVec 3) (v : Byte), s.status.fault = false → n.toNat ≤ 6 →
    8 * s.cfg.pObytes < s.wcur.toNat + n.toNat →
    exec (.wrWrite n v) s = .next { s with status := { err := some .capacityError, fault := false } }

/-- R206: RD_READ and RD_SEEKBACK set FAULT when they raise BoundsError; while FAULT = 1 every CMD write only writes ERR = 3;
only a release of reset clears FAULT; host accesses to registers and buffers work as without FAULT. -/
def Obligations.BoundsErrorIsSticky : Prop :=
  (∀ (i : Instr) (s t : State), exec i s = .next t → t.status.err = some .boundsError → t.status.fault = true) ∧
  (∀ (s : State) (w : Word), s.resetLine = false → s.status.fault = true →
    step (s.receiving (.store s.cfg.pBase 4 w)) = .next { s with status := { err := some .boundsError, fault := true } }) ∧
  (∀ (i : Instr) (s : State), s.status.fault = true →
    exec i s = .next { s with status := { err := some .boundsError, fault := true } }) ∧
  (∀ s t : State, step s = .next t → s.status.fault = true → t.status.fault = false →
    s.resetLine = true ∧ s.inputs.head? = some .releaseReset) ∧
  (∀ (s : State) (off size : Nat), s.resetLine = false → off < 2 ^ 20 →
    step (s.receiving (.load (s.cfg.pBase + off) size)) = .next { s with readData := peek s off size }) ∧
  ∀ (s : State) (off size : Nat) (v : Word), s.resetLine = false → off < 2 ^ 20 → ¬ (off = 0 ∧ size = 4) →
    ∃ t, step (s.receiving (.store (s.cfg.pBase + off) size v)) = .next t ∧ t.status = s.status ∧
      step (({ s with status := { err := none, fault := false } } : State).receiving
        (.store (s.cfg.pBase + off) size v)) = .next { t with status := { err := none, fault := false } }

/-! ### Host accesses -/

/-- 20_memory.md §4 ("No location has a read side effect: every host read is idempotent"). -/
def Obligations.HostReadHasNoSideEffect : Prop :=
  ∀ (s : State) (off size : Nat), s.resetLine = false → off < 2 ^ 20 →
    ∃ t, step (s.receiving (.load (s.cfg.pBase + off) size)) = .next t ∧
      t.readData = peek s off size ∧ t = { s with readData := t.readData } ∧ peek t off size = peek s off size

/-- R43: which accesses in the register region have an effect, and what it is; and what a 32-bit load of each register of
10_state.md §2's map returns. -/
def Obligations.HostRegisterAccessRules : Prop :=
  (∀ s : State, s.resetLine = false →
    ∀ p ∈ ([(0x000, 0), (0x004, s.status.word), (0x008, s.result), (0x00C, s.ilen), (0x010, s.silen), (0x014, s.wcap),
        (0x018, s.olen), (0x01C, s.solen), (0x020, s.rcur), (0x024, s.rlen), (0x028, s.wcur), (0x02C, s.erridx),
        (0x030, s.idHi.extractLsb' 32 32), (0x034, s.idHi.extractLsb' 0 32),
        (0x038, s.idLo.extractLsb' 32 32), (0x03C, s.idLo.extractLsb' 0 32)] : List (Nat × Word)),
      step (s.receiving (.load (s.cfg.pBase + p.1) 4)) = .next { s with readData := p.2 } ∧ peek s p.1 4 = p.2) ∧
  ∀ (s : State) (off size : Nat) (v : Word), s.resetLine = false → off < 0x10000 →
    (size ≠ 4 ∨ off % 4 ≠ 0 ∨ 0x40 ≤ off →
      step (s.receiving (.store (s.cfg.pBase + off) size v)) = .next s ∧
      step (s.receiving (.load (s.cfg.pBase + off) size)) = .next { s with readData := 0 }) ∧
    (size = 4 → off ∈ [0x004, 0x008, 0x018, 0x01C, 0x020, 0x024, 0x028, 0x02C] →
      step (s.receiving (.store (s.cfg.pBase + off) size v)) = .next s) ∧
    (size = 4 → off = 0x000 → step (s.receiving (.load (s.cfg.pBase + off) size)) = .next { s with readData := 0 }) ∧
    (size = 4 → off = 0x00C → step (s.receiving (.store (s.cfg.pBase + off) size v)) = .next { s with ilen := v }) ∧
    (size = 4 → off = 0x010 → step (s.receiving (.store (s.cfg.pBase + off) size v)) = .next { s with silen := v }) ∧
    (size = 4 → off = 0x014 → step (s.receiving (.store (s.cfg.pBase + off) size v)) = .next { s with wcap := v }) ∧
    (size = 4 → off ∈ [0x030, 0x034, 0x038, 0x03C] →
      ∃ t, step (s.receiving (.store (s.cfg.pBase + off) size v)) = .next t ∧ t = { s with idHi := t.idHi, idLo := t.idLo } ∧
        ∀ o, o ∈ [0x030, 0x034, 0x038, 0x03C] → peek t o 4 = if o = off then v else peek s o 4) ∧
    (∀ t, step (s.receiving (.load (s.cfg.pBase + off) size)) = .next t → t.status = s.status) ∧
    (∀ t, ¬ (size = 4 ∧ off = 0x000) → step (s.receiving (.store (s.cfg.pBase + off) size v)) = .next t →
      t.status = s.status)

/-- 20_memory.md §2 and §3: the buffer windows. An 8-bit write to IBUF or SIN below the capacity sets that element and no
other; a write to OBUF or SOUT, at or above a capacity, of another width, or in the reserved range is ignored, and a read
there, OBUF and SOUT below their capacities apart, returns 0. That the datum is the low 8 bits of the written word, and
zero-extended when read, is the model's choice (log 18). -/
def Obligations.HostWindowAccessRules : Prop :=
  ∀ (s : State) (k size : Nat) (v : Word), s.resetLine = false → s.cfg.Admissible → k < 0x10000 →
    (k < s.cfg.pIbytes →
      (∃ t, step (s.receiving (.store (s.cfg.pBase + (0x10000 + k)) 1 v)) = .next t ∧ KeptExcept [.ibuf] s t ∧
        ∀ j, t.ibufByte j = if j = k then v.setWidth 8 else s.ibufByte j) ∧
      peek s (0x10000 + k) 1 = (s.ibufByte k).setWidth 32) ∧
    (k < s.cfg.pSchars →
      (∃ t, step (s.receiving (.store (s.cfg.pBase + (0x30000 + k)) 1 v)) = .next t ∧ KeptExcept [.sin] s t ∧
        ∀ j, t.sinChar j = if j = k then v.setWidth 8 else s.sinChar j) ∧
      peek s (0x30000 + k) 1 = (s.sinChar k).setWidth 32) ∧
    (k < s.cfg.pObytes → peek s (0x20000 + k) 1 = (s.obufByte k).setWidth 32) ∧
    (k < s.cfg.pSchars → peek s (0x40000 + k) 1 = (s.soutChar k).setWidth 32) ∧
    (∀ base ∈ [0x20000, 0x40000], step (s.receiving (.store (s.cfg.pBase + (base + k)) size v)) = .next s) ∧
    (∀ base, (base = 0x10000 ∧ s.cfg.pIbytes ≤ k ∨ base = 0x20000 ∧ s.cfg.pObytes ≤ k ∨
        base = 0x30000 ∧ s.cfg.pSchars ≤ k ∨ base = 0x40000 ∧ s.cfg.pSchars ≤ k ∨
        base ∈ [0x10000, 0x20000, 0x30000, 0x40000] ∧ size ≠ 1) →
      step (s.receiving (.store (s.cfg.pBase + (base + k)) size v)) = .next s ∧ peek s (base + k) size = 0) ∧
    ∀ off, 0x50000 ≤ off → off < 2 ^ 20 →
      step (s.receiving (.store (s.cfg.pBase + off) size v)) = .next s ∧ peek s off size = 0

/-! ### Terms without a word -/

/-- The model's choice (log 12): a term of Instr that no word decodes to, RD_READ with the count 0 or 7 or WR_WRITE with the
count 7, reports IllegalCommand, as 30_encoding.md §4 has the words with those fields do. -/
def Obligations.IllFormedTermsReportIllegalCommand : Prop :=
  ∀ (i : Instr) (s : State), i.wf = false → s.status.fault = false →
    exec i s = .next { s with status := { err := some .illegalCommand, fault := false } }
end

