-- ==== Sys2Proof/Laws/State.lean ====
section
/-! SUPPORT. For every named update of the state, each field after it: no later proof unfolds a record update. -/

namespace Sys2Proof.Machine

/-! ### `State.complete` -/

@[simp] theorem State.complete_cfg (s : State) : s.complete.cfg = s.cfg := rfl
@[simp] theorem State.complete_status (s : State) : s.complete.status = { s.status with err := none } := rfl
@[simp] theorem State.complete_result (s : State) : s.complete.result = s.result := rfl
@[simp] theorem State.complete_ilen (s : State) : s.complete.ilen = s.ilen := rfl
@[simp] theorem State.complete_silen (s : State) : s.complete.silen = s.silen := rfl
@[simp] theorem State.complete_wcap (s : State) : s.complete.wcap = s.wcap := rfl
@[simp] theorem State.complete_olen (s : State) : s.complete.olen = s.olen := rfl
@[simp] theorem State.complete_solen (s : State) : s.complete.solen = s.solen := rfl
@[simp] theorem State.complete_rcur (s : State) : s.complete.rcur = s.rcur := rfl
@[simp] theorem State.complete_rlen (s : State) : s.complete.rlen = s.rlen := rfl
@[simp] theorem State.complete_wcur (s : State) : s.complete.wcur = s.wcur := rfl
@[simp] theorem State.complete_erridx (s : State) : s.complete.erridx = s.erridx := rfl
@[simp] theorem State.complete_idHi (s : State) : s.complete.idHi = s.idHi := rfl
@[simp] theorem State.complete_idLo (s : State) : s.complete.idLo = s.idLo := rfl
@[simp] theorem State.complete_ibuf (s : State) : s.complete.ibuf = s.ibuf := rfl
@[simp] theorem State.complete_obuf (s : State) : s.complete.obuf = s.obuf := rfl
@[simp] theorem State.complete_sin (s : State) : s.complete.sin = s.sin := rfl
@[simp] theorem State.complete_sout (s : State) : s.complete.sout = s.sout := rfl
@[simp] theorem State.complete_rbuf (s : State) : s.complete.rbuf = s.rbuf := rfl
@[simp] theorem State.complete_wbuf (s : State) : s.complete.wbuf = s.wbuf := rfl
@[simp] theorem State.complete_draws (s : State) : s.complete.draws = s.draws := rfl
@[simp] theorem State.complete_resetLine (s : State) : s.complete.resetLine = s.resetLine := rfl
@[simp] theorem State.complete_readData (s : State) : s.complete.readData = s.readData := rfl
@[simp] theorem State.complete_inputs (s : State) : s.complete.inputs = s.inputs := rfl

/-! ### `State.report` -/

@[simp] theorem State.report_cfg (e : ErrKind) (s : State) : (s.report e).cfg = s.cfg := rfl
@[simp] theorem State.report_status (e : ErrKind) (s : State) : (s.report e).status = { err := some e, fault := s.status.fault || (e == .boundsError) } := rfl
@[simp] theorem State.report_result (e : ErrKind) (s : State) : (s.report e).result = s.result := rfl
@[simp] theorem State.report_ilen (e : ErrKind) (s : State) : (s.report e).ilen = s.ilen := rfl
@[simp] theorem State.report_silen (e : ErrKind) (s : State) : (s.report e).silen = s.silen := rfl
@[simp] theorem State.report_wcap (e : ErrKind) (s : State) : (s.report e).wcap = s.wcap := rfl
@[simp] theorem State.report_olen (e : ErrKind) (s : State) : (s.report e).olen = s.olen := rfl
@[simp] theorem State.report_solen (e : ErrKind) (s : State) : (s.report e).solen = s.solen := rfl
@[simp] theorem State.report_rcur (e : ErrKind) (s : State) : (s.report e).rcur = s.rcur := rfl
@[simp] theorem State.report_rlen (e : ErrKind) (s : State) : (s.report e).rlen = s.rlen := rfl
@[simp] theorem State.report_wcur (e : ErrKind) (s : State) : (s.report e).wcur = s.wcur := rfl
@[simp] theorem State.report_erridx (e : ErrKind) (s : State) : (s.report e).erridx = s.erridx := rfl
@[simp] theorem State.report_idHi (e : ErrKind) (s : State) : (s.report e).idHi = s.idHi := rfl
@[simp] theorem State.report_idLo (e : ErrKind) (s : State) : (s.report e).idLo = s.idLo := rfl
@[simp] theorem State.report_ibuf (e : ErrKind) (s : State) : (s.report e).ibuf = s.ibuf := rfl
@[simp] theorem State.report_obuf (e : ErrKind) (s : State) : (s.report e).obuf = s.obuf := rfl
@[simp] theorem State.report_sin (e : ErrKind) (s : State) : (s.report e).sin = s.sin := rfl
@[simp] theorem State.report_sout (e : ErrKind) (s : State) : (s.report e).sout = s.sout := rfl
@[simp] theorem State.report_rbuf (e : ErrKind) (s : State) : (s.report e).rbuf = s.rbuf := rfl
@[simp] theorem State.report_wbuf (e : ErrKind) (s : State) : (s.report e).wbuf = s.wbuf := rfl
@[simp] theorem State.report_draws (e : ErrKind) (s : State) : (s.report e).draws = s.draws := rfl
@[simp] theorem State.report_resetLine (e : ErrKind) (s : State) : (s.report e).resetLine = s.resetLine := rfl
@[simp] theorem State.report_readData (e : ErrKind) (s : State) : (s.report e).readData = s.readData := rfl
@[simp] theorem State.report_inputs (e : ErrKind) (s : State) : (s.report e).inputs = s.inputs := rfl

/-! ### `State.setResult` -/

@[simp] theorem State.setResult_cfg (v : Word) (s : State) : (s.setResult v).cfg = s.cfg := rfl
@[simp] theorem State.setResult_status (v : Word) (s : State) : (s.setResult v).status = s.status := rfl
@[simp] theorem State.setResult_result (v : Word) (s : State) : (s.setResult v).result = v := rfl
@[simp] theorem State.setResult_ilen (v : Word) (s : State) : (s.setResult v).ilen = s.ilen := rfl
@[simp] theorem State.setResult_silen (v : Word) (s : State) : (s.setResult v).silen = s.silen := rfl
@[simp] theorem State.setResult_wcap (v : Word) (s : State) : (s.setResult v).wcap = s.wcap := rfl
@[simp] theorem State.setResult_olen (v : Word) (s : State) : (s.setResult v).olen = s.olen := rfl
@[simp] theorem State.setResult_solen (v : Word) (s : State) : (s.setResult v).solen = s.solen := rfl
@[simp] theorem State.setResult_rcur (v : Word) (s : State) : (s.setResult v).rcur = s.rcur := rfl
@[simp] theorem State.setResult_rlen (v : Word) (s : State) : (s.setResult v).rlen = s.rlen := rfl
@[simp] theorem State.setResult_wcur (v : Word) (s : State) : (s.setResult v).wcur = s.wcur := rfl
@[simp] theorem State.setResult_erridx (v : Word) (s : State) : (s.setResult v).erridx = s.erridx := rfl
@[simp] theorem State.setResult_idHi (v : Word) (s : State) : (s.setResult v).idHi = s.idHi := rfl
@[simp] theorem State.setResult_idLo (v : Word) (s : State) : (s.setResult v).idLo = s.idLo := rfl
@[simp] theorem State.setResult_ibuf (v : Word) (s : State) : (s.setResult v).ibuf = s.ibuf := rfl
@[simp] theorem State.setResult_obuf (v : Word) (s : State) : (s.setResult v).obuf = s.obuf := rfl
@[simp] theorem State.setResult_sin (v : Word) (s : State) : (s.setResult v).sin = s.sin := rfl
@[simp] theorem State.setResult_sout (v : Word) (s : State) : (s.setResult v).sout = s.sout := rfl
@[simp] theorem State.setResult_rbuf (v : Word) (s : State) : (s.setResult v).rbuf = s.rbuf := rfl
@[simp] theorem State.setResult_wbuf (v : Word) (s : State) : (s.setResult v).wbuf = s.wbuf := rfl
@[simp] theorem State.setResult_draws (v : Word) (s : State) : (s.setResult v).draws = s.draws := rfl
@[simp] theorem State.setResult_resetLine (v : Word) (s : State) : (s.setResult v).resetLine = s.resetLine := rfl
@[simp] theorem State.setResult_readData (v : Word) (s : State) : (s.setResult v).readData = s.readData := rfl
@[simp] theorem State.setResult_inputs (v : Word) (s : State) : (s.setResult v).inputs = s.inputs := rfl

/-! ### `brInit` -/

@[simp] theorem brInit_cfg (L : List Byte) (s : State) : (brInit L s).cfg = s.cfg := rfl
@[simp] theorem brInit_status (L : List Byte) (s : State) : (brInit L s).status = s.status := rfl
@[simp] theorem brInit_result (L : List Byte) (s : State) : (brInit L s).result = s.result := rfl
@[simp] theorem brInit_ilen (L : List Byte) (s : State) : (brInit L s).ilen = s.ilen := rfl
@[simp] theorem brInit_silen (L : List Byte) (s : State) : (brInit L s).silen = s.silen := rfl
@[simp] theorem brInit_wcap (L : List Byte) (s : State) : (brInit L s).wcap = s.wcap := rfl
@[simp] theorem brInit_olen (L : List Byte) (s : State) : (brInit L s).olen = s.olen := rfl
@[simp] theorem brInit_solen (L : List Byte) (s : State) : (brInit L s).solen = s.solen := rfl
@[simp] theorem brInit_rcur (L : List Byte) (s : State) : (brInit L s).rcur = 0 := rfl
@[simp] theorem brInit_rlen (L : List Byte) (s : State) : (brInit L s).rlen = BitVec.ofNat 32 L.length := rfl
@[simp] theorem brInit_wcur (L : List Byte) (s : State) : (brInit L s).wcur = s.wcur := rfl
@[simp] theorem brInit_erridx (L : List Byte) (s : State) : (brInit L s).erridx = s.erridx := rfl
@[simp] theorem brInit_idHi (L : List Byte) (s : State) : (brInit L s).idHi = s.idHi := rfl
@[simp] theorem brInit_idLo (L : List Byte) (s : State) : (brInit L s).idLo = s.idLo := rfl
@[simp] theorem brInit_ibuf (L : List Byte) (s : State) : (brInit L s).ibuf = s.ibuf := rfl
@[simp] theorem brInit_obuf (L : List Byte) (s : State) : (brInit L s).obuf = s.obuf := rfl
@[simp] theorem brInit_sin (L : List Byte) (s : State) : (brInit L s).sin = s.sin := rfl
@[simp] theorem brInit_sout (L : List Byte) (s : State) : (brInit L s).sout = s.sout := rfl
@[simp] theorem brInit_rbuf (L : List Byte) (s : State) : (brInit L s).rbuf = s.rbuf.writeList 0 L := rfl
@[simp] theorem brInit_wbuf (L : List Byte) (s : State) : (brInit L s).wbuf = s.wbuf := rfl
@[simp] theorem brInit_draws (L : List Byte) (s : State) : (brInit L s).draws = s.draws := rfl
@[simp] theorem brInit_resetLine (L : List Byte) (s : State) : (brInit L s).resetLine = s.resetLine := rfl
@[simp] theorem brInit_readData (L : List Byte) (s : State) : (brInit L s).readData = s.readData := rfl
@[simp] theorem brInit_inputs (L : List Byte) (s : State) : (brInit L s).inputs = s.inputs := rfl

/-! ### `bwInit` -/

@[simp] theorem bwInit_cfg (cap : Nat) (s : State) : (bwInit cap s).cfg = s.cfg := rfl
@[simp] theorem bwInit_status (cap : Nat) (s : State) : (bwInit cap s).status = s.status := rfl
@[simp] theorem bwInit_result (cap : Nat) (s : State) : (bwInit cap s).result = s.result := rfl
@[simp] theorem bwInit_ilen (cap : Nat) (s : State) : (bwInit cap s).ilen = s.ilen := rfl
@[simp] theorem bwInit_silen (cap : Nat) (s : State) : (bwInit cap s).silen = s.silen := rfl
@[simp] theorem bwInit_wcap (cap : Nat) (s : State) : (bwInit cap s).wcap = s.wcap := rfl
@[simp] theorem bwInit_olen (cap : Nat) (s : State) : (bwInit cap s).olen = s.olen := rfl
@[simp] theorem bwInit_solen (cap : Nat) (s : State) : (bwInit cap s).solen = s.solen := rfl
@[simp] theorem bwInit_rcur (cap : Nat) (s : State) : (bwInit cap s).rcur = s.rcur := rfl
@[simp] theorem bwInit_rlen (cap : Nat) (s : State) : (bwInit cap s).rlen = s.rlen := rfl
@[simp] theorem bwInit_wcur (cap : Nat) (s : State) : (bwInit cap s).wcur = 0 := rfl
@[simp] theorem bwInit_erridx (cap : Nat) (s : State) : (bwInit cap s).erridx = s.erridx := rfl
@[simp] theorem bwInit_idHi (cap : Nat) (s : State) : (bwInit cap s).idHi = s.idHi := rfl
@[simp] theorem bwInit_idLo (cap : Nat) (s : State) : (bwInit cap s).idLo = s.idLo := rfl
@[simp] theorem bwInit_ibuf (cap : Nat) (s : State) : (bwInit cap s).ibuf = s.ibuf := rfl
@[simp] theorem bwInit_obuf (cap : Nat) (s : State) : (bwInit cap s).obuf = s.obuf := rfl
@[simp] theorem bwInit_sin (cap : Nat) (s : State) : (bwInit cap s).sin = s.sin := rfl
@[simp] theorem bwInit_sout (cap : Nat) (s : State) : (bwInit cap s).sout = s.sout := rfl
@[simp] theorem bwInit_rbuf (cap : Nat) (s : State) : (bwInit cap s).rbuf = s.rbuf := rfl
@[simp] theorem bwInit_wbuf (cap : Nat) (s : State) : (bwInit cap s).wbuf = [] := rfl
@[simp] theorem bwInit_draws (cap : Nat) (s : State) : (bwInit cap s).draws = s.draws := rfl
@[simp] theorem bwInit_resetLine (cap : Nat) (s : State) : (bwInit cap s).resetLine = s.resetLine := rfl
@[simp] theorem bwInit_readData (cap : Nat) (s : State) : (bwInit cap s).readData = s.readData := rfl
@[simp] theorem bwInit_inputs (cap : Nat) (s : State) : (bwInit cap s).inputs = s.inputs := rfl

/-! ### `State.orWbuf` -/

@[simp] theorem State.orWbuf_cfg (i : Nat) (v : Byte) (s : State) : (s.orWbuf i v).cfg = s.cfg := rfl
@[simp] theorem State.orWbuf_status (i : Nat) (v : Byte) (s : State) : (s.orWbuf i v).status = s.status := rfl
@[simp] theorem State.orWbuf_result (i : Nat) (v : Byte) (s : State) : (s.orWbuf i v).result = s.result := rfl
@[simp] theorem State.orWbuf_ilen (i : Nat) (v : Byte) (s : State) : (s.orWbuf i v).ilen = s.ilen := rfl
@[simp] theorem State.orWbuf_silen (i : Nat) (v : Byte) (s : State) : (s.orWbuf i v).silen = s.silen := rfl
@[simp] theorem State.orWbuf_wcap (i : Nat) (v : Byte) (s : State) : (s.orWbuf i v).wcap = s.wcap := rfl
@[simp] theorem State.orWbuf_olen (i : Nat) (v : Byte) (s : State) : (s.orWbuf i v).olen = s.olen := rfl
@[simp] theorem State.orWbuf_solen (i : Nat) (v : Byte) (s : State) : (s.orWbuf i v).solen = s.solen := rfl
@[simp] theorem State.orWbuf_rcur (i : Nat) (v : Byte) (s : State) : (s.orWbuf i v).rcur = s.rcur := rfl
@[simp] theorem State.orWbuf_rlen (i : Nat) (v : Byte) (s : State) : (s.orWbuf i v).rlen = s.rlen := rfl
@[simp] theorem State.orWbuf_wcur (i : Nat) (v : Byte) (s : State) : (s.orWbuf i v).wcur = s.wcur := rfl
@[simp] theorem State.orWbuf_erridx (i : Nat) (v : Byte) (s : State) : (s.orWbuf i v).erridx = s.erridx := rfl
@[simp] theorem State.orWbuf_idHi (i : Nat) (v : Byte) (s : State) : (s.orWbuf i v).idHi = s.idHi := rfl
@[simp] theorem State.orWbuf_idLo (i : Nat) (v : Byte) (s : State) : (s.orWbuf i v).idLo = s.idLo := rfl
@[simp] theorem State.orWbuf_ibuf (i : Nat) (v : Byte) (s : State) : (s.orWbuf i v).ibuf = s.ibuf := rfl
@[simp] theorem State.orWbuf_obuf (i : Nat) (v : Byte) (s : State) : (s.orWbuf i v).obuf = s.obuf := rfl
@[simp] theorem State.orWbuf_sin (i : Nat) (v : Byte) (s : State) : (s.orWbuf i v).sin = s.sin := rfl
@[simp] theorem State.orWbuf_sout (i : Nat) (v : Byte) (s : State) : (s.orWbuf i v).sout = s.sout := rfl
@[simp] theorem State.orWbuf_rbuf (i : Nat) (v : Byte) (s : State) : (s.orWbuf i v).rbuf = s.rbuf := rfl
@[simp] theorem State.orWbuf_wbuf (i : Nat) (v : Byte) (s : State) : (s.orWbuf i v).wbuf = s.wbuf.writeZ i (s.wbufByte i ||| v) := rfl
@[simp] theorem State.orWbuf_draws (i : Nat) (v : Byte) (s : State) : (s.orWbuf i v).draws = s.draws := rfl
@[simp] theorem State.orWbuf_resetLine (i : Nat) (v : Byte) (s : State) : (s.orWbuf i v).resetLine = s.resetLine := rfl
@[simp] theorem State.orWbuf_readData (i : Nat) (v : Byte) (s : State) : (s.orWbuf i v).readData = s.readData := rfl
@[simp] theorem State.orWbuf_inputs (i : Nat) (v : Byte) (s : State) : (s.orWbuf i v).inputs = s.inputs := rfl

/-! ### `State.emitBytes` -/

@[simp] theorem State.emitBytes_cfg (L : List Byte) (s : State) : (s.emitBytes L).cfg = s.cfg := rfl
@[simp] theorem State.emitBytes_status (L : List Byte) (s : State) : (s.emitBytes L).status = s.status := rfl
@[simp] theorem State.emitBytes_result (L : List Byte) (s : State) : (s.emitBytes L).result = s.result := rfl
@[simp] theorem State.emitBytes_ilen (L : List Byte) (s : State) : (s.emitBytes L).ilen = s.ilen := rfl
@[simp] theorem State.emitBytes_silen (L : List Byte) (s : State) : (s.emitBytes L).silen = s.silen := rfl
@[simp] theorem State.emitBytes_wcap (L : List Byte) (s : State) : (s.emitBytes L).wcap = s.wcap := rfl
@[simp] theorem State.emitBytes_olen (L : List Byte) (s : State) : (s.emitBytes L).olen = BitVec.ofNat 32 L.length := rfl
@[simp] theorem State.emitBytes_solen (L : List Byte) (s : State) : (s.emitBytes L).solen = s.solen := rfl
@[simp] theorem State.emitBytes_rcur (L : List Byte) (s : State) : (s.emitBytes L).rcur = s.rcur := rfl
@[simp] theorem State.emitBytes_rlen (L : List Byte) (s : State) : (s.emitBytes L).rlen = s.rlen := rfl
@[simp] theorem State.emitBytes_wcur (L : List Byte) (s : State) : (s.emitBytes L).wcur = s.wcur := rfl
@[simp] theorem State.emitBytes_erridx (L : List Byte) (s : State) : (s.emitBytes L).erridx = s.erridx := rfl
@[simp] theorem State.emitBytes_idHi (L : List Byte) (s : State) : (s.emitBytes L).idHi = s.idHi := rfl
@[simp] theorem State.emitBytes_idLo (L : List Byte) (s : State) : (s.emitBytes L).idLo = s.idLo := rfl
@[simp] theorem State.emitBytes_ibuf (L : List Byte) (s : State) : (s.emitBytes L).ibuf = s.ibuf := rfl
@[simp] theorem State.emitBytes_obuf (L : List Byte) (s : State) : (s.emitBytes L).obuf = s.obuf.writeList 0 L := rfl
@[simp] theorem State.emitBytes_sin (L : List Byte) (s : State) : (s.emitBytes L).sin = s.sin := rfl
@[simp] theorem State.emitBytes_sout (L : List Byte) (s : State) : (s.emitBytes L).sout = s.sout := rfl
@[simp] theorem State.emitBytes_rbuf (L : List Byte) (s : State) : (s.emitBytes L).rbuf = s.rbuf := rfl
@[simp] theorem State.emitBytes_wbuf (L : List Byte) (s : State) : (s.emitBytes L).wbuf = s.wbuf := rfl
@[simp] theorem State.emitBytes_draws (L : List Byte) (s : State) : (s.emitBytes L).draws = s.draws := rfl
@[simp] theorem State.emitBytes_resetLine (L : List Byte) (s : State) : (s.emitBytes L).resetLine = s.resetLine := rfl
@[simp] theorem State.emitBytes_readData (L : List Byte) (s : State) : (s.emitBytes L).readData = s.readData := rfl
@[simp] theorem State.emitBytes_inputs (L : List Byte) (s : State) : (s.emitBytes L).inputs = s.inputs := rfl

/-! ### `State.setId` -/

@[simp] theorem State.setId_cfg (B : List Byte) (s : State) : (s.setId B).cfg = s.cfg := rfl
@[simp] theorem State.setId_status (B : List Byte) (s : State) : (s.setId B).status = s.status := rfl
@[simp] theorem State.setId_result (B : List Byte) (s : State) : (s.setId B).result = s.result := rfl
@[simp] theorem State.setId_ilen (B : List Byte) (s : State) : (s.setId B).ilen = s.ilen := rfl
@[simp] theorem State.setId_silen (B : List Byte) (s : State) : (s.setId B).silen = s.silen := rfl
@[simp] theorem State.setId_wcap (B : List Byte) (s : State) : (s.setId B).wcap = s.wcap := rfl
@[simp] theorem State.setId_olen (B : List Byte) (s : State) : (s.setId B).olen = s.olen := rfl
@[simp] theorem State.setId_solen (B : List Byte) (s : State) : (s.setId B).solen = s.solen := rfl
@[simp] theorem State.setId_rcur (B : List Byte) (s : State) : (s.setId B).rcur = s.rcur := rfl
@[simp] theorem State.setId_rlen (B : List Byte) (s : State) : (s.setId B).rlen = s.rlen := rfl
@[simp] theorem State.setId_wcur (B : List Byte) (s : State) : (s.setId B).wcur = s.wcur := rfl
@[simp] theorem State.setId_erridx (B : List Byte) (s : State) : (s.setId B).erridx = s.erridx := rfl
@[simp] theorem State.setId_idHi (B : List Byte) (s : State) : (s.setId B).idHi = (idFrombytes B).1 := rfl
@[simp] theorem State.setId_idLo (B : List Byte) (s : State) : (s.setId B).idLo = (idFrombytes B).2 := rfl
@[simp] theorem State.setId_ibuf (B : List Byte) (s : State) : (s.setId B).ibuf = s.ibuf := rfl
@[simp] theorem State.setId_obuf (B : List Byte) (s : State) : (s.setId B).obuf = s.obuf := rfl
@[simp] theorem State.setId_sin (B : List Byte) (s : State) : (s.setId B).sin = s.sin := rfl
@[simp] theorem State.setId_sout (B : List Byte) (s : State) : (s.setId B).sout = s.sout := rfl
@[simp] theorem State.setId_rbuf (B : List Byte) (s : State) : (s.setId B).rbuf = s.rbuf := rfl
@[simp] theorem State.setId_wbuf (B : List Byte) (s : State) : (s.setId B).wbuf = s.wbuf := rfl
@[simp] theorem State.setId_draws (B : List Byte) (s : State) : (s.setId B).draws = s.draws := rfl
@[simp] theorem State.setId_resetLine (B : List Byte) (s : State) : (s.setId B).resetLine = s.resetLine := rfl
@[simp] theorem State.setId_readData (B : List Byte) (s : State) : (s.setId B).readData = s.readData := rfl
@[simp] theorem State.setId_inputs (B : List Byte) (s : State) : (s.setId B).inputs = s.inputs := rfl

/-! ### `State.receiving` -/

@[simp] theorem State.receiving_cfg (e : BusEvent) (s : State) : (s.receiving e).cfg = s.cfg := rfl
@[simp] theorem State.receiving_status (e : BusEvent) (s : State) : (s.receiving e).status = s.status := rfl
@[simp] theorem State.receiving_result (e : BusEvent) (s : State) : (s.receiving e).result = s.result := rfl
@[simp] theorem State.receiving_ilen (e : BusEvent) (s : State) : (s.receiving e).ilen = s.ilen := rfl
@[simp] theorem State.receiving_silen (e : BusEvent) (s : State) : (s.receiving e).silen = s.silen := rfl
@[simp] theorem State.receiving_wcap (e : BusEvent) (s : State) : (s.receiving e).wcap = s.wcap := rfl
@[simp] theorem State.receiving_olen (e : BusEvent) (s : State) : (s.receiving e).olen = s.olen := rfl
@[simp] theorem State.receiving_solen (e : BusEvent) (s : State) : (s.receiving e).solen = s.solen := rfl
@[simp] theorem State.receiving_rcur (e : BusEvent) (s : State) : (s.receiving e).rcur = s.rcur := rfl
@[simp] theorem State.receiving_rlen (e : BusEvent) (s : State) : (s.receiving e).rlen = s.rlen := rfl
@[simp] theorem State.receiving_wcur (e : BusEvent) (s : State) : (s.receiving e).wcur = s.wcur := rfl
@[simp] theorem State.receiving_erridx (e : BusEvent) (s : State) : (s.receiving e).erridx = s.erridx := rfl
@[simp] theorem State.receiving_idHi (e : BusEvent) (s : State) : (s.receiving e).idHi = s.idHi := rfl
@[simp] theorem State.receiving_idLo (e : BusEvent) (s : State) : (s.receiving e).idLo = s.idLo := rfl
@[simp] theorem State.receiving_ibuf (e : BusEvent) (s : State) : (s.receiving e).ibuf = s.ibuf := rfl
@[simp] theorem State.receiving_obuf (e : BusEvent) (s : State) : (s.receiving e).obuf = s.obuf := rfl
@[simp] theorem State.receiving_sin (e : BusEvent) (s : State) : (s.receiving e).sin = s.sin := rfl
@[simp] theorem State.receiving_sout (e : BusEvent) (s : State) : (s.receiving e).sout = s.sout := rfl
@[simp] theorem State.receiving_rbuf (e : BusEvent) (s : State) : (s.receiving e).rbuf = s.rbuf := rfl
@[simp] theorem State.receiving_wbuf (e : BusEvent) (s : State) : (s.receiving e).wbuf = s.wbuf := rfl
@[simp] theorem State.receiving_draws (e : BusEvent) (s : State) : (s.receiving e).draws = s.draws := rfl
@[simp] theorem State.receiving_resetLine (e : BusEvent) (s : State) : (s.receiving e).resetLine = s.resetLine := rfl
@[simp] theorem State.receiving_readData (e : BusEvent) (s : State) : (s.receiving e).readData = s.readData := rfl
@[simp] theorem State.receiving_inputs (e : BusEvent) (s : State) : (s.receiving e).inputs = e :: s.inputs := rfl

end Sys2Proof.Machine
end

