-- ==== Sys2Proof/Laws/Memory.lean ====
section
/-! SUPPORT. The buffers: what reads after a write, and that every operation keeps the canonical form (log 4). -/

namespace Sys2Proof.Machine

/-! ### Reading after writing -/

@[simp] theorem Buffer.read_nil (d : Byte) (i : Nat) : Buffer.read d [] i = d := rfl

theorem Buffer.read_cons (d : Byte) (c : Host.Cell) (b : Buffer) (i : Nat) :
    Buffer.read d (c :: b) i = if c.1 = i then c.2 else Buffer.read d b i := rfl

@[simp] theorem Buffer.read_write (d : Byte) (b : Buffer) (i : Nat) (v : Byte) (j : Nat) :
    (b.write i v).read d j = if j = i then v else b.read d j := by
  induction b with
  | nil => simp [Buffer.write, Buffer.read_cons, eq_comm]
  | cons c b ih =>
    obtain ⟨a, w⟩ := c
    unfold Buffer.write
    split
    · simp [Buffer.read_cons, eq_comm]
    · split
      · rename_i h
        subst h
        by_cases hj : j = i
        · simp [Buffer.read_cons, hj]
        · simp [Buffer.read_cons, hj, Ne.symm hj]
      · rw [Buffer.read_cons, ih, Buffer.read_cons]
        by_cases h : a = j
        · subst h; simp [Ne.symm ‹¬ i = a›]
        · simp [h]

@[simp] theorem Buffer.read_erase (d : Byte) (b : Buffer) (i j : Nat) :
    (Buffer.erase b i).read d j = if j = i then d else b.read d j := by
  induction b with
  | nil => simp [Buffer.erase]
  | cons c b ih =>
    obtain ⟨a, w⟩ := c
    simp only [Buffer.erase] at ih
    by_cases h : a = i
    · subst h
      by_cases hj : j = a
      · subst hj; simpa [Buffer.erase] using ih
      · simp [Buffer.erase, Buffer.read_cons, ih, hj, Ne.symm hj]
    · by_cases hj : a = j
      · subst hj; simp [Buffer.erase, Buffer.read_cons, h]
      · simp [Buffer.erase, Buffer.read_cons, h, hj, ih]

@[simp] theorem Buffer.read_writeZ (b : Buffer) (i : Nat) (v : Byte) (j : Nat) :
    (b.writeZ i v).read 0#8 j = if j = i then v else b.read 0#8 j := by
  unfold Buffer.writeZ
  split
  · subst_vars; simp
  · simp

@[simp] theorem Buffer.writeList_nil (b : Buffer) (i : Nat) : b.writeList i [] = b := rfl

theorem Buffer.writeList_cons (b : Buffer) (i : Nat) (v : Byte) (vs : List Byte) :
    b.writeList i (v :: vs) = (b.write i v).writeList (i + 1) vs := rfl

/-- Appending one element to what is written. -/
theorem Buffer.writeList_append (b : Buffer) (i : Nat) (L M : List Byte) :
    b.writeList i (L ++ M) = (b.writeList i L).writeList (i + L.length) M := by
  induction L generalizing b i with
  | nil => simp
  | cons v L ih => simp [Buffer.writeList_cons, ih, Nat.add_assoc, Nat.add_comm 1]

/-- `MemWrite(BUF, i, len(L), L)`: the elements from `i` on are `L`'s, every other one is as it was. -/
theorem Buffer.read_writeList (d : Byte) (b : Buffer) (i : Nat) (L : List Byte) (j : Nat) :
    (b.writeList i L).read d j = if i ≤ j ∧ j < i + L.length then L.getD (j - i) 0 else b.read d j := by
  induction L generalizing b i with
  | nil => simp
  | cons v L ih =>
    rw [Buffer.writeList_cons, ih, Buffer.read_write, List.length_cons]
    by_cases h : j = i
    · subst h; simp
    · by_cases h2 : i + 1 ≤ j ∧ j < i + 1 + L.length
      · obtain ⟨k, rfl⟩ : ∃ k, j = i + 1 + k := ⟨j - (i + 1), by omega⟩
        have e : i + 1 + k - i = k + 1 := by omega
        simp [e, h2.2]; omega
      · rw [if_neg h2, if_neg h, if_neg (by omega)]

/-! ### The canonical form -/

theorem Buffer.mem_write {b : Buffer} {i : Nat} {v : Byte} {c : Host.Cell} (h : c ∈ b.write i v) :
    c = (i, v) ∨ c ∈ b := by
  induction b with
  | nil => simpa [Buffer.write] using h
  | cons x b ih =>
    obtain ⟨a, w⟩ := x
    unfold Buffer.write at h
    split at h
    · simpa using h
    · split at h
      · rcases List.mem_cons.1 h with h | h <;> simp [h]
      · rcases List.mem_cons.1 h with h | h
        · simp [h]
        · rcases ih h with h | h <;> simp [h]

/-- An element is listed after a write just when it is the one written or was listed before. -/
@[simp] theorem Buffer.listed_write (b : Buffer) (i : Nat) (v : Byte) (j : Nat) :
    (b.write i v).Listed j ↔ j = i ∨ b.Listed j := by
  induction b with
  | nil => simp [Buffer.write, Buffer.Listed]
  | cons x b ih =>
    obtain ⟨a, w⟩ := x
    unfold Buffer.write
    simp only [Buffer.Listed] at ih ⊢
    split
    · simp
    · split
      · subst_vars; simp
      · simp only [List.map_cons, List.mem_cons, ih]; tauto

theorem Buffer.listed_writeList (b : Buffer) (i : Nat) (L : List Byte) (j : Nat) :
    (b.writeList i L).Listed j ↔ (i ≤ j ∧ j < i + L.length) ∨ b.Listed j := by
  induction L generalizing b i with
  | nil => simp
  | cons v L ih =>
    rw [Buffer.writeList_cons, ih, Buffer.listed_write, List.length_cons, ← or_assoc]
    refine or_congr ?_ Iff.rfl
    omega

theorem Buffer.write_rising {b : Buffer} (i : Nat) (v : Byte) (h : b.Rising) : (b.write i v).Rising := by
  induction b with
  | nil => simp [Buffer.write, Buffer.Rising]
  | cons x b ih =>
    obtain ⟨a, w⟩ := x
    simp only [Buffer.Rising, List.map_cons, List.pairwise_cons] at h ih
    unfold Buffer.write
    split
    · rename_i hlt
      simp only [Buffer.Rising, List.map_cons, List.pairwise_cons, List.mem_cons, forall_eq_or_imp]
      exact ⟨⟨hlt, fun k hk => lt_trans hlt (h.1 k hk)⟩, h.1, h.2⟩
    · split
      · subst_vars
        simpa [Buffer.Rising] using h
      · simp only [Buffer.Rising, List.map_cons, List.pairwise_cons]
        refine ⟨fun k hk => ?_, ih h.2⟩
        rcases (Buffer.listed_write b i v k).1 hk with rfl | hk
        · omega
        · exact h.1 k hk

theorem Buffer.erase_rising {b : Buffer} (i : Nat) (h : b.Rising) : (Buffer.erase b i).Rising :=
  List.Pairwise.sublist (List.Sublist.map _ List.filter_sublist) h

theorem Buffer.writeZ_rising {b : Buffer} (i : Nat) (v : Byte) (h : b.Rising) : (b.writeZ i v).Rising := by
  unfold Buffer.writeZ
  split
  · exact Buffer.erase_rising i h
  · exact Buffer.write_rising i v h

theorem Buffer.writeList_rising {b : Buffer} (i : Nat) (L : List Byte) (h : b.Rising) : (b.writeList i L).Rising := by
  induction L generalizing b i with
  | nil => exact h
  | cons v L ih => exact ih (i + 1) (Buffer.write_rising i v h)

theorem Buffer.write_below {cap : Nat} {b : Buffer} {i : Nat} (v : Byte) (h : b.Below cap) (hi : i < cap) :
    (b.write i v).Below cap := by
  intro c hc
  rcases Buffer.mem_write hc with rfl | hc
  · exact hi
  · exact h c hc

theorem Buffer.writeZ_below {cap : Nat} {b : Buffer} {i : Nat} (v : Byte) (h : b.Below cap) (hi : v ≠ 0 → i < cap) :
    (b.writeZ i v).Below cap := by
  unfold Buffer.writeZ
  split
  · exact fun c hc => h c (List.mem_of_mem_filter hc)
  · exact Buffer.write_below v h (hi ‹_›)

theorem Buffer.writeList_below {cap : Nat} {b : Buffer} (i : Nat) (L : List Byte) (h : b.Below cap)
    (hi : i + L.length ≤ cap) : (b.writeList i L).Below cap := by
  induction L generalizing b i with
  | nil => exact h
  | cons v L ih =>
    simp only [List.length_cons] at hi
    exact ih (i + 1) (Buffer.write_below v h (by omega)) (by omega)

theorem Buffer.writeZ_noZero {b : Buffer} (i : Nat) (v : Byte) (h : b.NoZero) : (b.writeZ i v).NoZero := by
  unfold Buffer.writeZ
  split
  · exact fun c hc => h c (List.mem_of_mem_filter hc)
  · intro c hc
    rcases Buffer.mem_write hc with rfl | hc
    · assumption
    · exact h c hc

theorem Buffer.read_eq_of_lt_head {d : Byte} {b : Buffer} {i : Nat} (h : ∀ k ∈ b.map Prod.fst, i < k) :
    b.read d i = d := by
  induction b with
  | nil => rfl
  | cons c b ih =>
    simp only [List.map_cons, List.mem_cons, forall_eq_or_imp] at h
    rw [Buffer.read_cons, if_neg (by omega), ih h.2]

/-- Equal memories are equal data: two buffers in canonical form that read the same at every index, whatever the unwritten
elements hold, are the same list. -/
theorem Buffer.ext_of_read {a b : Buffer} (ha : a.Rising) (hb : b.Rising)
    (h : ∀ d i, a.read d i = b.read d i) : a = b := by
  induction a generalizing b with
  | nil =>
    cases b with
    | nil => rfl
    | cons y b =>
      have := h (y.2 + 1) y.1
      simp [Buffer.read_cons] at this
  | cons x a ih =>
    cases b with
    | nil =>
      have := h (x.2 + 1) x.1
      simp [Buffer.read_cons] at this
    | cons y b =>
      obtain ⟨i, v⟩ := x
      obtain ⟨j, w⟩ := y
      simp only [Buffer.Rising, List.map_cons, List.pairwise_cons] at ha hb
      have hij : i = j := by
        rcases lt_trichotomy i j with hlt | heq | hgt
        · have e := h (v + 1) i
          rw [Buffer.read_cons, Buffer.read_cons, if_pos rfl, if_neg (by simp; omega),
            Buffer.read_eq_of_lt_head (fun k hk => lt_trans hlt (hb.1 k hk))] at e
          simp at e
        · exact heq
        · have e := h (w + 1) j
          rw [Buffer.read_cons, Buffer.read_cons, if_pos rfl, if_neg (by simp; omega),
            Buffer.read_eq_of_lt_head (fun k hk => lt_trans hgt (ha.1 k hk))] at e
          simp at e
      subst hij
      have hvw : v = w := by simpa [Buffer.read_cons] using h 0 i
      subst hvw
      congr 1
      refine ih ha.2 hb.2 fun d k => ?_
      by_cases hk : i = k
      · subst hk
        rw [Buffer.read_eq_of_lt_head ha.1, Buffer.read_eq_of_lt_head hb.1]
      · simpa [Buffer.read_cons, hk] using h d k

/-- The state after reset has the canonical form, at any parameters. -/
theorem atReset_wf (c : Config) (draws : Nat) (r : Word) (inputs : List BusEvent) :
    Memory.wf (State.atReset c draws r inputs) := by
  simp [Memory.wf, State.atReset, Buffer.Rising, Buffer.Below, Buffer.NoZero]

/-! ### Elements -/

@[simp] theorem memRead_length (f : Nat → Byte) (n : Nat) : (memRead f n).length = n := by simp [memRead]

@[simp] theorem memRead_zero (f : Nat → Byte) : memRead f 0 = [] := rfl

theorem memRead_getD (f : Nat → Byte) (n k : Nat) (d : Byte) (h : k < n) : (memRead f n).getD k d = f k := by
  simp [memRead, List.getD, h]

theorem memRead_congr {f g : Nat → Byte} {n : Nat} (h : ∀ k, k < n → f k = g k) : memRead f n = memRead g n := by
  simp only [memRead]
  exact List.map_congr_left fun k hk => h k (List.mem_range.1 hk)

theorem memRead_succ (f : Nat → Byte) (n : Nat) : memRead f (n + 1) = memRead f n ++ [f n] := by
  simp [memRead, List.range_succ]

/-- Reading back what was written over the start of a buffer. -/
theorem memRead_writeList (d : Nat → Byte) (b : Buffer) (L : List Byte) :
    memRead (fun i => (b.writeList 0 L).read (d i) i) L.length = L := by
  refine List.ext_getElem (by simp) fun k h1 h2 => ?_
  simp [memRead, Buffer.read_writeList, h2]

end Sys2Proof.Machine
end

