-- ==== Sys2Proof/Laws/Ops.lean ====
section
/-! SUPPORT. For each shared operation, once, everything it can do. -/

namespace Sys2Proof.Machine

/-! ### How commands end -/

@[simp] theorem Result.bind_done {α β : Type} (a : α) (s : State) (f : α → State → Result β) :
    (Result.done a s).bind f = f a s := rfl

@[simp] theorem Result.bind_raised {α β : Type} (e : ErrKind) (s : State) (f : α → State → Result β) :
    (Result.raised e s).bind f = .raised e s := rfl

@[simp] theorem Result.bind_refused {α β : Type} (r : Refusal) (f : α → State → Result β) :
    (Result.refused r).bind f = .refused r := rfl

theorem Result.bind_assoc {α β γ : Type} (r : Result α) (f : α → State → Result β) (g : β → State → Result γ) :
    (r.bind f).bind g = r.bind fun a s => (f a s).bind g := by cases r <;> rfl

@[simp] theorem Result.finish_done (s : State) : (Result.done () s).finish = .next s.complete := rfl

@[simp] theorem Result.finish_raised (e : ErrKind) (s : State) : (Result.raised e s).finish = .next (s.report e) := rfl

@[simp] theorem Result.finish_refused (r : Refusal) : (Result.refused r).finish = .refused r := rfl

theorem command_of_fault {s : State} (body : State → Result Unit) (h : s.status.fault = true) :
    command body s = .next (s.report .boundsError) := by simp [command, h]

theorem command_of_not_fault {s : State} (body : State → Result Unit) (h : s.status.fault = false) :
    command body s = (body s).finish := by simp [command, h]

/-- Everything a command can answer: nothing but BoundsError while FAULT = 1, else what its pseudocode ends with. -/
theorem command_cases {body : State → Result Unit} {s t : State} (h : command body s = .next t) :
    (s.status.fault = true ∧ t = s.report .boundsError) ∨
    (s.status.fault = false ∧ ((∃ u, body s = .done () u ∧ t = u.complete) ∨
      ∃ e u, body s = .raised e u ∧ t = u.report e)) := by
  unfold command at h
  split at h
  · rename_i hf; exact .inl ⟨hf, by cases h; rfl⟩
  · rename_i hf
    refine .inr ⟨by simpa using hf, ?_⟩
    cases hb : body s with
    | done a u => rw [hb] at h; cases h; exact .inl ⟨u, rfl, rfl⟩
    | raised e u => rw [hb] at h; cases h; exact .inr ⟨e, u, rfl, rfl⟩
    | refused r => rw [hb] at h; cases h

theorem report_boundsError {s : State} :
    s.report .boundsError = { s with status := { err := some .boundsError, fault := true } } := by
  simp [State.report]

theorem report_of_ne {s : State} {e : ErrKind} (h : s.status.fault = false) (he : e ≠ .boundsError) :
    s.report e = { s with status := { err := some e, fault := false } } := by
  simp [State.report, h, he]

theorem checkIlen_of_le {s : State} (h : s.ilen.toNat ≤ s.cfg.pIbytes) : checkIlen s = .done () s := by
  simp [checkIlen, Nat.not_lt.2 h]

theorem checkIlen_of_lt {s : State} (h : s.cfg.pIbytes < s.ilen.toNat) : checkIlen s = .raised .capacityError s := by
  simp [checkIlen, h]

theorem checkSilen_of_le {s : State} (h : s.silen.toNat ≤ s.cfg.pSchars) : checkSilen s = .done () s := by
  simp [checkSilen, Nat.not_lt.2 h]

theorem checkSilen_of_lt {s : State} (h : s.cfg.pSchars < s.silen.toNat) : checkSilen s = .raised .capacityError s := by
  simp [checkSilen, h]

/-! ### Bit groups -/

theorem lowMask_getLsbD (n j : Nat) : (lowMask n).getLsbD j = (decide (j < 16) && decide (j < n)) := by
  rw [lowMask, BitVec.getLsbD_ofNat, Nat.testBit_two_pow_sub_one]

/-- R60, reading: bit `j` of the group is bit `o + j` of the pair. -/
theorem groupFrom_getLsbD (cur nxt : Byte) {o n j : Nat} (ho : o < 8) (hn : n ≤ 7) :
    (groupFrom cur nxt o n).getLsbD j =
      (decide (j < n) && if o + j < 8 then cur.getLsbD (o + j) else nxt.getLsbD (o + j - 8)) := by
  by_cases hj : j < n
  · have h1 : o + j < 16 := by omega
    by_cases h2 : o + j < 8
    · simp [groupFrom, lowMask_getLsbD, hj, h2, h1, show j < 16 by omega]
    · simp [groupFrom, lowMask_getLsbD, hj, h2, h1, show j < 16 by omega,
        BitVec.getLsbD_of_ge cur (o + j) (by omega)]
  · simp [groupFrom, lowMask_getLsbD, hj]

/-- R60, writing: bit `m` of the moved group is bit `m - o` of the value, within the `n` bits. -/
theorem groupAt_getLsbD (v : Byte) {o n m : Nat} (ho : o < 8) (hn : n ≤ 7) :
    (groupAt v o n).getLsbD m = (decide (o ≤ m ∧ m < o + n) && v.getLsbD (m - o)) := by
  by_cases h1 : o ≤ m
  · by_cases h2 : m < o + n
    · simp [groupAt, lowMask_getLsbD, h1, h2, show m < 16 by omega, show ¬ m < o by omega, show m - o < 16 by omega,
        show m - o < n by omega]
    · simp [groupAt, lowMask_getLsbD, h1, h2, show ¬ m - o < n by omega]
  · simp [groupAt, h1, show m < o by omega]

theorem groupLow_getLsbD (b : BytePair) (m : Nat) : (groupLow b).getLsbD m = (decide (m < 8) && b.getLsbD m) := by
  simp [groupLow]

theorem groupHigh_getLsbD (b : BytePair) (m : Nat) : (groupHigh b).getLsbD m = (decide (m < 8) && b.getLsbD (8 + m)) := by
  simp [groupHigh]

/-! ### BitReader -/

/-- br_read with a current byte (R102): it answers the next `n` stream bits and moves the cursor, and does nothing else. -/
theorem brRead_of_lt {s : State} {n : Nat} (hn : n ≤ 6) (h : s.rcur.toNat < 8 * s.rlen.toNat) :
    ∃ v, brRead n s = .done v { s with rcur := BitVec.ofNat 32 (s.rcur.toNat + n) } ∧
      ∀ j, v.getLsbD j = (decide (j < n) && s.readerBit (s.rcur.toNat + j)) := by
  unfold brRead
  simp only [Nat.not_le.2 h, if_false]
  refine ⟨_, rfl, fun j => ?_⟩
  by_cases hj : j < n
  · rw [BitVec.getLsbD_setWidth, groupFrom_getLsbD _ _ (Nat.mod_lt _ (by norm_num)) (by omega)]
    simp only [hj, show j < 6 by omega, decide_true, Bool.true_and, State.readerBit, streamBit]
    by_cases h8 : s.rcur.toNat % 8 + j < 8
    · have e1 : (s.rcur.toNat + j) / 8 = s.rcur.toNat / 8 := by omega
      have e2 : (s.rcur.toNat + j) % 8 = s.rcur.toNat % 8 + j := by omega
      have e3 : s.rcur.toNat + j < 8 * s.rlen.toNat := by omega
      simp [h8, e1, e2, e3]
    · have e1 : (s.rcur.toNat + j) / 8 = s.rcur.toNat / 8 + 1 := by omega
      have e2 : (s.rcur.toNat + j) % 8 = s.rcur.toNat % 8 + j - 8 := by omega
      rw [if_neg h8, e1, e2]
      by_cases h9 : s.rcur.toNat / 8 + 1 < s.rlen.toNat
      · simp [h9, show s.rcur.toNat + j < 8 * s.rlen.toNat by omega]
      · simp [h9, show ¬ s.rcur.toNat + j < 8 * s.rlen.toNat by omega]
  · rw [BitVec.getLsbD_setWidth, groupFrom_getLsbD _ _ (Nat.mod_lt _ (by norm_num)) (by omega)]
    simp [hj]

/-- br_read without a current byte (R102, 92_eei_decisions.md D9). -/
theorem brRead_of_ge {s : State} (n : Nat) (h : 8 * s.rlen.toNat ≤ s.rcur.toNat) :
    brRead n s = .raised .boundsError s := by simp [brRead, h]

theorem brSeekback_of_pos {s : State} (h : s.rcur ≠ 0) :
    brSeekback s = .done () { s with rcur := BitVec.ofNat 32 (s.rcur.toNat - 1) } := if_neg h

theorem brSeekback_of_zero {s : State} (h : s.rcur = 0) : brSeekback s = .raised .boundsError s := if_pos h

theorem brHasmore_iff (s : State) : brHasmore s = true ↔ s.rcur.toNat < 8 * s.rlen.toNat := by simp [brHasmore]

/-! ### BitWriter -/

theorem wbufByte_orWbuf (s : State) (i : Nat) (v : Byte) (j : Nat) :
    (s.orWbuf i v).wbufByte j = if j = i then s.wbufByte i ||| v else s.wbufByte j := by
  simp [State.wbufByte]

theorem writerBit_orWbuf (s : State) (i : Nat) (v : Byte) (k : Nat) :
    (s.orWbuf i v).writerBit k = (s.writerBit k || (decide (k / 8 = i) && v.getLsbD (k % 8))) := by
  unfold State.writerBit streamBit
  rw [wbufByte_orWbuf]
  by_cases h : k / 8 = i
  · simp [h]
  · simp [h]

/-- bw_write that fits (R122), for n ≤ 7: it ORs the low `n` bits in at the cursor, moves the cursor, and does nothing
else; only WBUF's bytes `WCUR div 8` and the next can change. -/
theorem bwWrite_of_le {s : State} {n : Nat} (v : Byte) (hn : n ≤ 7) (h : s.wcur.toNat + n ≤ 8 * s.cfg.pObytes) :
    ∃ b, bwWrite n v s = .done () { s with wbuf := b, wcur := BitVec.ofNat 32 (s.wcur.toNat + n) } ∧
      (∀ k, ({ s with wbuf := b } : State).writerBit k = (s.writerBit k ||
        (decide (s.wcur.toNat ≤ k ∧ k < s.wcur.toNat + n) && v.getLsbD (k - s.wcur.toNat)))) ∧
      (∀ i, i ≠ s.wcur.toNat / 8 → i ≠ s.wcur.toNat / 8 + 1 → b.read 0 i = s.wbufByte i) ∧
      (s.wbuf.Rising → b.Rising) ∧ (s.wbuf.NoZero → b.NoZero) ∧
      (s.wbuf.Below s.cfg.pObytes → b.Below s.cfg.pObytes) := by
  generalize hc : s.wcur.toNat = c at *
  have ho : c % 8 < 8 := Nat.mod_lt _ (by norm_num)
  by_cases h0 : n = 0
  · subst h0
    refine ⟨s.wbuf, ?_, fun k => ?_, fun _ _ _ => rfl, id, id, id⟩
    · simpa [bwWrite, hc, show ¬ 8 < c % 8 by omega] using h
    · have hk : ¬ (c ≤ k ∧ k < c + 0) := by omega
      simp only [hk, decide_false, Bool.false_and, Bool.or_false]
  · by_cases h8 : 8 < c % 8 + n
    · refine ⟨((s.orWbuf (c / 8) (groupLow (groupAt v (c % 8) n))).orWbuf (c / 8 + 1)
        (groupHigh (groupAt v (c % 8) n))).wbuf, ?_, fun k => ?_, fun i h1 h2 => ?_, fun hr => ?_, fun hz => ?_,
        fun hb => ?_⟩
      · simp [bwWrite, hc, Nat.not_lt.2 h, h8, Nat.pos_of_ne_zero h0, State.orWbuf]
      · have e : ({ s with wbuf := ((s.orWbuf (c / 8) (groupLow (groupAt v (c % 8) n))).orWbuf (c / 8 + 1)
            (groupHigh (groupAt v (c % 8) n))).wbuf } : State).writerBit k =
            ((s.orWbuf (c / 8) (groupLow (groupAt v (c % 8) n))).orWbuf (c / 8 + 1)
              (groupHigh (groupAt v (c % 8) n))).writerBit k := rfl
        rw [e, writerBit_orWbuf, writerBit_orWbuf, groupLow_getLsbD, groupHigh_getLsbD, groupAt_getLsbD v ho hn,
          groupAt_getLsbD v ho hn, Bool.or_assoc]
        congr 1
        have hk : k % 8 < 8 := Nat.mod_lt _ (by norm_num)
        by_cases k1 : k / 8 = c / 8
        · have k2 : ¬ k / 8 = c / 8 + 1 := by omega
          have k3 : k % 8 - c % 8 = k - c := by omega
          have k4 : (c % 8 ≤ k % 8 ∧ k % 8 < c % 8 + n) ↔ (c ≤ k ∧ k < c + n) := by omega
          simp only [k1, hk, k3, k4, decide_true, Bool.true_and, show ¬ c / 8 = c / 8 + 1 by omega, decide_false,
            Bool.false_and, Bool.or_false]
        · by_cases k2 : k / 8 = c / 8 + 1
          · have k3 : 8 + k % 8 - c % 8 = k - c := by omega
            have k4 : (c % 8 ≤ 8 + k % 8 ∧ 8 + k % 8 < c % 8 + n) ↔ (c ≤ k ∧ k < c + n) := by omega
            simp only [k2, hk, k3, k4, decide_true, Bool.true_and, show ¬ c / 8 + 1 = c / 8 by omega, decide_false,
              Bool.false_and, Bool.false_or]
          · have k4 : ¬ (c ≤ k ∧ k < c + n) := by omega
            simp only [k1, k2, k4, decide_false, Bool.false_and, Bool.or_false]
      · have e := wbufByte_orWbuf (s.orWbuf (c / 8) (groupLow (groupAt v (c % 8) n))) (c / 8 + 1)
          (groupHigh (groupAt v (c % 8) n)) i
        rw [if_neg h2] at e
        exact e.trans ((wbufByte_orWbuf s _ _ i).trans (if_neg h1))
      · exact Buffer.writeZ_rising _ _ (Buffer.writeZ_rising _ _ hr)
      · exact Buffer.writeZ_noZero _ _ (Buffer.writeZ_noZero _ _ hz)
      · exact Buffer.writeZ_below _ (Buffer.writeZ_below _ hb fun _ => by omega) fun _ => by omega
    · refine ⟨(s.orWbuf (c / 8) (groupLow (groupAt v (c % 8) n))).wbuf, ?_, fun k => ?_, fun i h1 _ => ?_,
        fun hr => Buffer.writeZ_rising _ _ hr, fun hz => Buffer.writeZ_noZero _ _ hz,
        fun hb => Buffer.writeZ_below _ hb fun _ => by omega⟩
      · simp [bwWrite, hc, Nat.not_lt.2 h, h8, Nat.pos_of_ne_zero h0, State.orWbuf]
      · have e : ({ s with wbuf := (s.orWbuf (c / 8) (groupLow (groupAt v (c % 8) n))).wbuf } : State).writerBit k =
            (s.orWbuf (c / 8) (groupLow (groupAt v (c % 8) n))).writerBit k := rfl
        rw [e, writerBit_orWbuf, groupLow_getLsbD, groupAt_getLsbD v ho hn]
        congr 1
        have hk : k % 8 < 8 := Nat.mod_lt _ (by norm_num)
        by_cases k1 : k / 8 = c / 8
        · have k3 : k % 8 - c % 8 = k - c := by omega
          have k4 : (c % 8 ≤ k % 8 ∧ k % 8 < c % 8 + n) ↔ (c ≤ k ∧ k < c + n) := by omega
          simp only [k1, hk, k3, k4, decide_true, Bool.true_and]
        · have k4 : ¬ (c ≤ k ∧ k < c + n) := by omega
          simp only [k1, k4, decide_false, Bool.false_and]
      · have e := wbufByte_orWbuf s (c / 8) (groupLow (groupAt v (c % 8) n)) i
        rw [if_neg h1] at e
        exact e

theorem bwWrite_of_gt {s : State} {n : Nat} (v : Byte) (h : 8 * s.cfg.pObytes < s.wcur.toNat + n) :
    bwWrite n v s = .raised .capacityError s := by simp [bwWrite, h]

/-- bw_btb asks for fewer than 8 bits, and they complete the byte (R123). -/
theorem bwBtb_completes (s : State) : bwBtb s ≤ 7 ∧ (s.wcur.toNat + bwBtb s) % 8 = 0 := by
  unfold bwBtb; omega

end Sys2Proof.Machine
end

