-- ==== Sys2Proof/Laws/Codec.lean ====
section
/-! SUPPORT. The two loops of the Base62 sequencer (43_base62codec.md R150, R156) against the data flows on bit lists. -/

namespace Sys2Proof.Machine

/-! ### Bit lists -/

theorem natOfBits_testBit (B : List Bool) (j : Nat) : (natOfBits B).testBit j = B.getD j false := by
  induction B generalizing j with
  | nil => simp [natOfBits]
  | cons b B ih =>
    cases j with
    | zero => cases b <;> simp [natOfBits, Nat.testBit_zero]
    | succ j =>
      have e : natOfBits (b :: B) / 2 = natOfBits B := by cases b <;> simp only [natOfBits, Bool.toNat_true, Bool.toNat_false] <;> omega
      rw [Nat.testBit_succ, e, ih]
      simp

theorem getD_drop (B : List Bool) (n j : Nat) : (B.drop n).getD j false = B.getD (n + j) false := by
  simp [List.getD]

theorem headSymbol_getLsbD (B : List Bool) (j : Nat) :
    (headSymbol B).getLsbD j = (decide (j < 6) && B.getD j false) := by
  rw [headSymbol, BitVec.getLsbD_ofNat, natOfBits_testBit]
  by_cases hj : j < 6
  · simp [hj, List.getD]
  · simp [hj]

/-- A compact value has its bits 1 to 4 set (R140). -/
theorem compact_bits {v : Symbol} (h : compact v = true) : v.getLsbD 4 = true := by
  revert h; revert v; decide

/-- The value a symbol settles on has an alphabet entry and keeps the width its raw value had (R141, R152). -/
theorem settled_symbol (raw : Symbol) :
    (compact raw = true → (alpha ((raw &&& 0b011111).setWidth 8)).isSome = true ∧ compact (raw &&& 0b011111) = true) ∧
    (compact raw = false → (alpha (raw.setWidth 8)).isSome = true) := by
  revert raw; decide

/-! ### ENCODE -/

theorem symbolsOfBits_nil (f : Nat) : symbolsOfBits f [] = [] := by cases f <;> rfl

/-- More fuel than bits changes nothing. -/
theorem symbolsOfBits_fuel {f g : Nat} {B : List Bool} (hf : B.length ≤ f) (hg : B.length ≤ g) :
    symbolsOfBits f B = symbolsOfBits g B := by
  induction f generalizing g B with
  | zero =>
    have : B = [] := List.length_eq_zero_iff.1 (Nat.le_zero.1 hf)
    subst this; rw [symbolsOfBits_nil, symbolsOfBits_nil]
  | succ f ih =>
    cases B with
    | nil => rw [symbolsOfBits_nil, symbolsOfBits_nil]
    | cons b B =>
      cases g with
      | zero => simp at hg
      | succ g =>
        simp only [List.length_cons] at hf hg
        simp only [symbolsOfBits]
        split
        · rw [ih (B := (b :: B).drop 5) (g := g) (by simp; omega) (by simp; omega)]
        · rw [ih (B := (b :: B).drop 6) (g := g) (by simp; omega) (by simp; omega)]

/-- R151: each symbol takes 5 or 6 bits. -/
theorem symbolsOfBits_length {f : Nat} {B : List Bool} (hf : B.length ≤ f) :
    (B.length + 5) / 6 ≤ (symbolsOfBits f B).length ∧ (symbolsOfBits f B).length ≤ (B.length + 4) / 5 := by
  induction f generalizing B with
  | zero =>
    have : B = [] := List.length_eq_zero_iff.1 (Nat.le_zero.1 hf)
    subst this; simp [symbolsOfBits]
  | succ f ih =>
    cases B with
    | nil => simp [symbolsOfBits]
    | cons b B =>
      simp only [List.length_cons] at hf
      simp only [symbolsOfBits]
      split
      · have := ih (B := (b :: B).drop 5) (by simp; omega)
        simp only [List.length_drop, List.length_cons] at this ⊢
        omega
      · have := ih (B := (b :: B).drop 6) (by simp; omega)
        simp only [List.length_drop, List.length_cons] at this ⊢
        omega

/-- Appending the symbol to SOUT is the first write of the list of characters. -/
theorem writeList_cons_sout (b : Buffer) (k : Nat) (c : Byte) (cs : List Byte) :
    (b.write k c).writeList (k + 1) cs = b.writeList k (c :: cs) := rfl

/-- The ENCODE loop (R150), whole: over a reader that still holds the bits `B`, with enough fuel and enough room in SOUT, it
appends the characters of `B`'s symbols, moves RCUR by their widths, and does nothing else. -/
theorem encodeLoop_eq {fuel k : Nat} {s : State} {B : List Bool} (hlen : B.length = 8 * s.rlen.toNat - s.rcur.toNat)
    (hB : ∀ j, B.getD j false = s.readerBit (s.rcur.toNat + j)) (hfuel : B.length < fuel)
    (hsmall : 8 * s.rlen.toNat + 6 < 2 ^ 32) (hcur : s.rcur.toNat ≤ 8 * s.rlen.toNat + 6)
    (hroom : k + (symbolsOfBits B.length B).length ≤ s.cfg.pSchars) :
    ∃ cs : List Byte, cs.map some = (symbolsOfBits B.length B).map (fun v => alpha (v.setWidth 8)) ∧
      encodeLoop fuel k s = .done (k + (symbolsOfBits B.length B).length)
        { s with rcur := BitVec.ofNat 32 (s.rcur.toNat + ((symbolsOfBits B.length B).map symbolWidth).sum)
                 sout := s.sout.writeList k cs } := by
  induction fuel generalizing k s B with
  | zero => omega
  | succ fuel ih =>
    cases B with
    | nil =>
      refine ⟨[], rfl, ?_⟩
      have hno : brHasmore s = false := by
        simp only [List.length_nil] at hlen
        simp [brHasmore]; omega
      simp [encodeLoop, hno, symbolsOfBits]
    | cons b B =>
      have hlt : s.rcur.toNat < 8 * s.rlen.toNat := by
        simp only [List.length_cons] at hlen; omega
      have hyes : brHasmore s = true := (brHasmore_iff s).2 hlt
      obtain ⟨raw, hread, hbits⟩ := brRead_of_lt (n := 6) le_rfl hlt
      have hraw : raw = headSymbol (b :: B) := by
        refine BitVec.eq_of_getLsbD_eq fun j _ => ?_
        rw [hbits, headSymbol_getLsbD, hB]
      set c := s.rcur.toNat with hc
      have hc6 : (BitVec.ofNat 32 (c + 6)).toNat = c + 6 := by
        rw [BitVec.toNat_ofNat]; exact Nat.mod_eq_of_lt (by omega)
      have hlen' : (b :: B).length = 8 * s.rlen.toNat - c := hlen
      cases hcomp : compact (headSymbol (b :: B)) with
      | true =>
        have h5 : 5 ≤ (b :: B).length := by
          by_contra hlt5
          have := compact_bits hcomp
          rw [headSymbol_getLsbD, List.getD_eq_default _ _ (by omega)] at this
          simp at this
        obtain ⟨a, ha⟩ := Option.isSome_iff_exists.1 ((settled_symbol (headSymbol (b :: B))).1 hcomp).1
        have hw : symbolWidth (headSymbol (b :: B) &&& 0b011111) = 5 :=
          if_pos ((settled_symbol (headSymbol (b :: B))).1 hcomp).2
        have hsyms : symbolsOfBits (b :: B).length (b :: B) = (headSymbol (b :: B) &&& 0b011111) ::
            symbolsOfBits ((b :: B).drop 5).length ((b :: B).drop 5) := by
          rw [List.length_cons, symbolsOfBits, if_pos hcomp,
            symbolsOfBits_fuel (g := ((b :: B).drop 5).length) (by simp) le_rfl]
        have hc5 : (BitVec.ofNat 32 (c + 5)).toNat = c + 5 := by
          rw [BitVec.toNat_ofNat]; exact Nat.mod_eq_of_lt (by omega)
        let s' : State := { s with rcur := BitVec.ofNat 32 (c + 5), sout := s.sout.write k a }
        have hs' : s'.rcur.toNat = c + 5 := hc5
        have hroom' : k < s.cfg.pSchars := by rw [hsyms] at hroom; simp only [List.length_cons] at hroom; omega
        obtain ⟨cs, hcs, hrun⟩ := ih (k := k + 1) (s := s') (B := (b :: B).drop 5)
          (by rw [hs', List.length_drop]; show _ = 8 * s.rlen.toNat - (c + 5); omega)
          (fun j => by
            rw [hs', getD_drop, hB]
            show s.readerBit (c + (5 + j)) = s.readerBit (c + 5 + j)
            rw [Nat.add_assoc])
          (by simp only [List.length_drop]; omega) hsmall (by rw [hs']; show c + 5 ≤ 8 * s.rlen.toNat + 6; omega)
          (by rw [hsyms] at hroom; simp only [List.length_cons] at hroom; show _ ≤ s.cfg.pSchars; omega)
        refine ⟨a :: cs, by rw [hsyms, List.map_cons, List.map_cons, hcs, ha], ?_⟩
        have hne : (BitVec.ofNat 32 (c + 6)) ≠ 0 := by
          intro h0
          rw [h0] at hc6
          simp at hc6
        have hstep : encodeLoop (fuel + 1) k s = encodeLoop fuel (k + 1) s' := by
          rw [encodeLoop, if_pos hyes, hread, Result.bind_done, hraw, settleSymbol, if_pos hcomp,
            brSeekback_of_pos hne, Result.bind_done, Result.bind_done, appendSymbol,
            if_neg (show ¬ s.cfg.pSchars ≤ k by omega), ha]
          simp only [Result.bind_done, hc6]
          rfl
        rw [hstep, hrun, hsyms]
        simp only [List.length_cons, List.map_cons, List.sum_cons, hw, hs', Buffer.writeList_cons]
        congr 1
        · omega
        · congr 2
          omega
      | false =>
        obtain ⟨a, ha⟩ := Option.isSome_iff_exists.1 ((settled_symbol (headSymbol (b :: B))).2 hcomp)
        have hw : symbolWidth (headSymbol (b :: B)) = 6 := by simp [symbolWidth, hcomp]
        have hsyms : symbolsOfBits (b :: B).length (b :: B) = headSymbol (b :: B) ::
            symbolsOfBits ((b :: B).drop 6).length ((b :: B).drop 6) := by
          rw [List.length_cons, symbolsOfBits, if_neg (by simp [hcomp]),
            symbolsOfBits_fuel (g := ((b :: B).drop 6).length) (by simp) le_rfl]
        let s' : State := { s with rcur := BitVec.ofNat 32 (c + 6), sout := s.sout.write k a }
        have hs' : s'.rcur.toNat = c + 6 := hc6
        have hroom' : k < s.cfg.pSchars := by rw [hsyms] at hroom; simp only [List.length_cons] at hroom; omega
        obtain ⟨cs, hcs, hrun⟩ := ih (k := k + 1) (s := s') (B := (b :: B).drop 6)
          (by rw [hs', List.length_drop]; show _ = 8 * s.rlen.toNat - (c + 6); omega)
          (fun j => by
            rw [hs', getD_drop, hB]
            show s.readerBit (c + (6 + j)) = s.readerBit (c + 6 + j)
            rw [Nat.add_assoc])
          (by simp only [List.length_drop]; omega) hsmall (by rw [hs']; show c + 6 ≤ 8 * s.rlen.toNat + 6; omega)
          (by rw [hsyms] at hroom; simp only [List.length_cons] at hroom; show _ ≤ s.cfg.pSchars; omega)
        refine ⟨a :: cs, by rw [hsyms, List.map_cons, List.map_cons, hcs, ha], ?_⟩
        have hstep : encodeLoop (fuel + 1) k s = encodeLoop fuel (k + 1) s' := by
          rw [encodeLoop, if_pos hyes, hread, Result.bind_done, hraw, settleSymbol, if_neg (by simp [hcomp]),
            Result.bind_done, appendSymbol, if_neg (show ¬ s.cfg.pSchars ≤ k by omega), ha]
          simp only [Result.bind_done]
          rfl
        rw [hstep, hrun, hsyms]
        simp only [List.length_cons, List.map_cons, List.sum_cons, hw, hs', Buffer.writeList_cons]
        congr 1
        · omega
        · congr 2
          omega

theorem bitsOfBytes_cons (b : Byte) (L : List Byte) :
    bitsOfBytes (b :: L) = (List.range 8).map b.getLsbD ++ bitsOfBytes L := by simp [bitsOfBytes]

@[simp] theorem bitsOfBytes_length (L : List Byte) : (bitsOfBytes L).length = 8 * L.length := by
  induction L with
  | nil => rfl
  | cons b L ih => rw [bitsOfBytes_cons, List.length_append, ih]; simp; omega

/-- Element `k` of a byte list's bits is its stream bit `k` (R60). -/
theorem bitsOfBytes_getD (L : List Byte) (k : Nat) :
    (bitsOfBytes L).getD k false = (L.getD (k / 8) 0).getLsbD (k % 8) := by
  induction L generalizing k with
  | nil => simp [bitsOfBytes]
  | cons b L ih =>
    rw [bitsOfBytes_cons]
    by_cases h : k < 8
    · rw [List.getD_append _ _ _ _ (by simpa using h)]
      simp [List.getD, h, Nat.div_eq_of_lt h, Nat.mod_eq_of_lt h]
    · rw [List.getD_append_right _ _ _ _ (by simpa using h)]
      obtain ⟨j, rfl⟩ : ∃ j, k = 8 + j := ⟨k - 8, by omega⟩
      simp only [List.length_map, List.length_range, Nat.add_sub_cancel_left, ih]
      rw [show (8 + j) / 8 = j / 8 + 1 by omega, show (8 + j) % 8 = j % 8 by omega, List.getD_cons_succ]

/-- The reader constructed over `L` reads `L`'s stream bits (R100, R102). -/
theorem readerBit_brInit {L : List Byte} (s : State) (h : L.length < 2 ^ 32) (k : Nat) :
    (brInit L s).readerBit k = (bitsOfBytes L).getD k false := by
  have hl : (BitVec.ofNat 32 L.length).toNat = L.length := by
    rw [BitVec.toNat_ofNat]; exact Nat.mod_eq_of_lt h
  have hb : (brInit L s).rbufByte (k / 8) =
      if k / 8 < L.length then L.getD (k / 8) 0 else s.rbufByte (k / 8) := by
    show (s.rbuf.writeList 0 L).read _ _ = _
    rw [Buffer.read_writeList]
    simp [State.rbufByte, State.ramByte]
  rw [State.readerBit, streamBit, hb, bitsOfBytes_getD, brInit_rlen, hl]
  by_cases hk : k < 8 * L.length
  · simp [hk, show k / 8 < L.length by omega]
  · rw [List.getD_eq_default _ _ (by omega)]
    simp [hk]

/-- b62_encode over a freshly constructed reader (R150, R173): SOUT gets the characters of the bits' symbols, SOLEN their
number, RCUR the sum of their widths, and nothing else is written. -/
theorem b62Encode_eq {L : List Byte} {s : State} (hL : 8 * L.length + 6 < 2 ^ 32)
    (hroom : (encodeSymbols L).length ≤ s.cfg.pSchars) :
    ∃ cs : List Byte, cs.map some = (encodeSymbols L).map (fun v => alpha (v.setWidth 8)) ∧
      b62Encode (brInit L s) = .done () { brInit L s with
        rcur := BitVec.ofNat 32 ((encodeSymbols L).map symbolWidth).sum
        sout := s.sout.writeList 0 cs
        solen := BitVec.ofNat 32 (encodeSymbols L).length } := by
  have hl : (brInit L s).rlen.toNat = L.length := by
    rw [brInit_rlen, BitVec.toNat_ofNat]; exact Nat.mod_eq_of_lt (by omega)
  have h0 : (brInit L s).rcur.toNat = 0 := rfl
  obtain ⟨cs, hcs, hrun⟩ := encodeLoop_eq (fuel := 8 * (brInit L s).rlen.toNat + 1) (k := 0) (s := brInit L s)
    (B := bitsOfBytes L) (by rw [hl, h0, bitsOfBytes_length, Nat.sub_zero])
    (fun j => by rw [h0, Nat.zero_add, readerBit_brInit s (by omega)])
    (by rw [hl, bitsOfBytes_length]; omega) (by rw [hl]; omega) (by rw [h0]; omega)
    (by rw [Nat.zero_add]; exact hroom)
  refine ⟨cs, hcs, ?_⟩
  rw [b62Encode, hrun, Result.bind_done, h0, Nat.zero_add, Nat.zero_add]
  rfl

/-- What the ENCODE loop can do in any state, whatever its outcome: it writes RCUR and SOUT only, it ends with the number of
symbols or one of two errors, and it is never refused (R152). -/
theorem encodeLoop_frame (fuel k : Nat) (s : State) :
    (∃ n t, encodeLoop fuel k s = .done n t ∧ t = { s with rcur := t.rcur, sout := t.sout }) ∨
    ∃ e t, encodeLoop fuel k s = .raised e t ∧ (e = .boundsError ∨ e = .capacityError) ∧
      t = { s with rcur := t.rcur, sout := t.sout } := by
  induction fuel generalizing k s with
  | zero => exact .inl ⟨k, s, rfl, rfl⟩
  | succ fuel ih =>
    rw [encodeLoop]
    cases hm : brHasmore s with
    | false => exact .inl ⟨k, s, rfl, rfl⟩
    | true =>
      obtain ⟨raw, hread, -⟩ := brRead_of_lt (n := 6) le_rfl ((brHasmore_iff s).1 hm)
      rw [if_pos rfl, hread, Result.bind_done]
      have key : ∀ (v : Symbol) (u : State), (alpha (v.setWidth 8)).isSome = true →
          u = { s with rcur := u.rcur } →
          (∃ n t, ((appendSymbol k v u).bind fun _ s => encodeLoop fuel (k + 1) s) = .done n t ∧
            t = { s with rcur := t.rcur, sout := t.sout }) ∨
          ∃ e t, ((appendSymbol k v u).bind fun _ s => encodeLoop fuel (k + 1) s) = .raised e t ∧
            (e = .boundsError ∨ e = .capacityError) ∧ t = { s with rcur := t.rcur, sout := t.sout } := by
        intro v u hv hu
        obtain ⟨a, ha⟩ := Option.isSome_iff_exists.1 hv
        unfold appendSymbol
        split
        · exact .inr ⟨_, u, rfl, .inr rfl, by rw [hu]⟩
        · rw [ha]
          simp only [Result.bind_done]
          rcases ih (k + 1) { u with sout := u.sout.write k a } with ⟨n, t, h1, h2⟩ | ⟨e, t, h1, h2, h3⟩
          · exact .inl ⟨n, t, h1, by rw [h2, hu]⟩
          · exact .inr ⟨e, t, h1, h2, by rw [h3, hu]⟩
      unfold settleSymbol
      cases hc : compact raw with
      | true =>
        rw [if_pos rfl]
        by_cases h0 : (BitVec.ofNat 32 (s.rcur.toNat + 6)) = 0
        · rw [brSeekback_of_zero h0]
          exact .inr ⟨_, _, rfl, .inl rfl, rfl⟩
        · rw [brSeekback_of_pos h0]
          exact key _ _ ((settled_symbol raw).1 hc).1 rfl
      | false => exact key _ _ ((settled_symbol raw).2 hc) rfl

/-! ### DECODE -/

@[simp] theorem bitsOfSymbol_length (n : Nat) (v : Symbol) : (bitsOfSymbol n v).length = n := by simp [bitsOfSymbol]

theorem bitsOfSymbol_getD (n : Nat) (v : Symbol) (j : Nat) :
    (bitsOfSymbol n v).getD j false = (decide (j < n) && v.getLsbD j) := by
  by_cases h : j < n <;> simp [bitsOfSymbol, List.getD, h]

/-- A writer that holds `B` takes `n` more bits of a symbol (R122): it then holds them after `B`, and nothing else moved. -/
theorem bwWrite_appends {n : Nat} {v : Symbol} {s : State} {B : List Bool} (hn : n ≤ 7) (hB : WriterHolds B s)
    (hfit : B.length + n ≤ 8 * s.cfg.pObytes) (hsmall : 8 * s.cfg.pObytes < 2 ^ 32) :
    ∃ b, bwWrite n (v.setWidth 8) s =
        .done () { s with wbuf := b, wcur := BitVec.ofNat 32 (B ++ bitsOfSymbol n v).length } ∧
      WriterHolds (B ++ bitsOfSymbol n v)
        { s with wbuf := b, wcur := BitVec.ofNat 32 (B ++ bitsOfSymbol n v).length } ∧
      (s.wbuf.Rising → b.Rising) ∧ (s.wbuf.NoZero → b.NoZero) ∧
      (s.wbuf.Below s.cfg.pObytes → b.Below s.cfg.pObytes) := by
  obtain ⟨hc, hbits⟩ := hB
  obtain ⟨b, hrun, hw, -, hr, hz, hb⟩ := bwWrite_of_le (s := s) (n := n) (v.setWidth 8) hn (by omega)
  have hlen : (B ++ bitsOfSymbol n v).length = s.wcur.toNat + n := by simp [hc]
  refine ⟨b, by rw [hrun, hlen], ⟨?_, fun k => ?_⟩, hr, hz, hb⟩
  · show (BitVec.ofNat 32 _).toNat = _
    rw [BitVec.toNat_ofNat]; exact Nat.mod_eq_of_lt (by omega)
  · refine (hw k).trans ?_
    rw [hbits, hc]
    by_cases h1 : k < B.length
    · rw [List.getD_append _ _ _ _ h1]
      simp [show ¬ B.length ≤ k by omega]
    · rw [List.getD_append_right _ _ _ _ (by omega), bitsOfSymbol_getD, List.getD_eq_default _ _ (by omega)]
      by_cases h2 : k < B.length + n
      · simp [show B.length ≤ k by omega, h2, show k - B.length < n by omega, show k - B.length < 8 by omega]
      · simp [h2, show ¬ k - B.length < n by omega]

theorem contributedBits_inner (x : Symbol) (s : State) : contributedBits x false s = symbolWidth x := by
  simp [contributedBits, symbolWidth]

theorem symbolWidth_le (x : Symbol) : symbolWidth x ≤ 6 := by
  unfold symbolWidth; split <;> omega

/-- The DECODE loop over valid characters that more characters follow (R156). -/
theorem decodeLoop_inner {chars rest : List Byte} {v : List Symbol} {i : Nat} {s : State} {B : List Bool}
    (hv : chars.map dtab = v.map some) (hrest : rest ≠ []) (hB : WriterHolds B s)
    (hfit : (B ++ innerBits v).length ≤ 8 * s.cfg.pObytes) (hsmall : 8 * s.cfg.pObytes < 2 ^ 32) :
    ∃ b, decodeLoop (chars ++ rest) i s = decodeLoop rest (i + chars.length)
        { s with wbuf := b, wcur := BitVec.ofNat 32 (B ++ innerBits v).length } ∧
      WriterHolds (B ++ innerBits v) { s with wbuf := b, wcur := BitVec.ofNat 32 (B ++ innerBits v).length } ∧
      (s.wbuf.Rising → b.Rising) ∧ (s.wbuf.NoZero → b.NoZero) ∧
      (s.wbuf.Below s.cfg.pObytes → b.Below s.cfg.pObytes) := by
  induction chars generalizing v i s B with
  | nil =>
    cases v with
    | cons x v => simp at hv
    | nil =>
      have hs : ({ s with wcur := BitVec.ofNat 32 B.length } : State) = s := by
        have : BitVec.ofNat 32 B.length = s.wcur := by rw [← hB.1]; simp
        rw [this]
      refine ⟨s.wbuf, ?_, ?_, id, id, id⟩
      · simp [innerBits, hs]
      · simpa [innerBits, hs] using hB
  | cons ch chars ih =>
    cases v with
    | nil => simp at hv
    | cons x v =>
      simp only [List.map_cons, List.cons.injEq] at hv
      have hi : innerBits (x :: v) = bitsOfSymbol (symbolWidth x) x ++ innerBits v := by simp [innerBits]
      rw [hi, ← List.append_assoc] at hfit ⊢
      have hw := symbolWidth_le x
      obtain ⟨b, hrun, hB', hr, hz, hb⟩ := bwWrite_appends (n := symbolWidth x) (v := x) (by omega) hB
        (by simp only [List.length_append, bitsOfSymbol_length] at hfit; omega) hsmall
      obtain ⟨b', hrun', hB'', hr', hz', hb'⟩ := ih (i := i + 1) hv.2 hB' hfit hsmall
      refine ⟨b', ?_, hB'', fun h => hr' (hr h), fun h => hz' (hz h), fun h => hb' (hb h)⟩
      have hne : (chars ++ rest).isEmpty = false := by simp [hrest]
      rw [List.cons_append, decodeLoop, hv.1]
      simp only [hne, contributedBits_inner, hrun, Result.bind_done, hrun', List.length_cons]
      congr 1
      omega

/-- joinSymbols with the last symbol apart: the symbols before it contribute their widths. -/
theorem joinSymbols_concat (v : List Symbol) (x : Symbol) (B : List Bool) :
    joinSymbols (v ++ [x]) B = B ++ innerBits v ++
      bitsOfSymbol (if compact x then 5 else (8 - (B ++ innerBits v).length % 8) % 8) x := by
  induction v generalizing B with
  | nil => simp [joinSymbols, innerBits]
  | cons y v ih =>
    have hi : innerBits (y :: v) = bitsOfSymbol (symbolWidth y) y ++ innerBits v := by simp [innerBits]
    have hne : (v ++ [x]).isEmpty = false := by cases v <;> rfl
    rw [List.cons_append, joinSymbols, hne, ih, hi, symbolWidth]
    simp only [Bool.false_eq_true, if_false, List.append_assoc]

/-- At most 6 bits a character when others follow (R157). -/
theorem innerBits_length_le (v : List Symbol) : (innerBits v).length ≤ 6 * v.length := by
  induction v with
  | nil => simp [innerBits]
  | cons x v ih =>
    have hi : innerBits (x :: v) = bitsOfSymbol (symbolWidth x) x ++ innerBits v := by simp [innerBits]
    have := symbolWidth_le x
    simp only [hi, List.length_append, bitsOfSymbol_length, List.length_cons]
    omega

/-- `WCUR ≤ 6·m + 1` (R157); a count above `6·m` ends on a byte boundary. -/
theorem joinSymbols_length (v : List Symbol) :
    (joinSymbols v []).length ≤ 6 * v.length ∨
    ((joinSymbols v []).length = 6 * v.length + 1 ∧ (joinSymbols v []).length % 8 = 0) := by
  rcases List.eq_nil_or_concat' v with rfl | ⟨v, x, rfl⟩
  · simp [joinSymbols]
  · have := innerBits_length_le v
    simp only [joinSymbols_concat, List.nil_append, List.length_append, bitsOfSymbol_length, List.length_cons,
      List.length_nil]
    split <;> omega

/-- Where WBUF has room for six bits a character, no DECODE within P_SCHARS fills it (R157, log 21). -/
theorem joinSymbols_fits {c : Config} (hc : c.Roomy) {v : List Symbol} (hv : v.length ≤ c.pSchars) :
    (joinSymbols v []).length ≤ 8 * c.pObytes := by
  have hc : 6 * c.pSchars ≤ 8 * c.pObytes := hc
  have := joinSymbols_length v
  omega

/-- At every capacities that R6 admits, only the last character of a DECODE can fail to fit (R6, log 21). -/
theorem innerBits_fits {c : Config} (hc : c.Admissible) {v : List Symbol} (hv : v.length ≤ c.pSchars) :
    (innerBits v.dropLast).length ≤ 8 * c.pObytes := by
  have := innerBits_length_le v.dropLast
  rw [List.length_dropLast] at this
  obtain ⟨-, -, -, -, -, hO, -⟩ := hc
  omega

theorem contributedBits_last (x : Symbol) {s : State} {B : List Bool} (hB : WriterHolds B s) :
    contributedBits x true s = if compact x then 5 else (8 - B.length % 8) % 8 := by
  simp [contributedBits, bwBtb, hB.1]

/-- The DECODE loop, whole, over valid characters whose contributions fit (R156): the writer then holds the joined bits, and
nothing else moved. -/
theorem decodeLoop_valid {chars : List Byte} {v : List Symbol} {i : Nat} {s : State} {B : List Bool}
    (hv : chars.map dtab = v.map some) (hB : WriterHolds B s)
    (hfit : (joinSymbols v B).length ≤ 8 * s.cfg.pObytes) (hsmall : 8 * s.cfg.pObytes < 2 ^ 32) :
    ∃ b, decodeLoop chars i s = .done () { s with wbuf := b, wcur := BitVec.ofNat 32 (joinSymbols v B).length } ∧
      WriterHolds (joinSymbols v B) { s with wbuf := b, wcur := BitVec.ofNat 32 (joinSymbols v B).length } ∧
      (s.wbuf.Rising → b.Rising) ∧ (s.wbuf.NoZero → b.NoZero) ∧
      (s.wbuf.Below s.cfg.pObytes → b.Below s.cfg.pObytes) := by
  rcases List.eq_nil_or_concat' v with rfl | ⟨v, x, rfl⟩
  · have hc : chars = [] := by simpa using hv
    subst hc
    have hs : ({ s with wcur := BitVec.ofNat 32 B.length } : State) = s := by
      have : BitVec.ofNat 32 B.length = s.wcur := by rw [← hB.1]; simp
      rw [this]
    exact ⟨s.wbuf, by simp [decodeLoop, joinSymbols, hs], by simpa [joinSymbols, hs] using hB, id, id, id⟩
  · obtain ⟨chars, ch, rfl⟩ : ∃ cs c, chars = cs ++ [c] := by
      rcases List.eq_nil_or_concat' chars with rfl | ⟨cs, c, rfl⟩
      · simp at hv
      · exact ⟨cs, c, rfl⟩
    simp only [List.map_append, List.map_cons, List.map_nil] at hv
    obtain ⟨hv1, hv2⟩ := List.append_inj' hv (by simp)
    rw [joinSymbols_concat] at hfit ⊢
    have hn : (if compact x then 5 else (8 - (B ++ innerBits v).length % 8) % 8) ≤ 7 := by
      split <;> omega
    obtain ⟨b, hrun, hB', hr, hz, hb⟩ := decodeLoop_inner (rest := [ch]) (i := i) hv1 (by simp) hB
      (by rw [List.length_append] at hfit; omega) hsmall
    obtain ⟨b', hrun', hB'', hr', hz', hb'⟩ := bwWrite_appends (v := x) hn hB'
      (by rw [List.length_append, bitsOfSymbol_length] at hfit; exact hfit) hsmall
    refine ⟨b', ?_, hB'', fun h => hr' (hr h), fun h => hz' (hz h), fun h => hb' (hb h)⟩
    rw [hrun, decodeLoop, show dtab ch = some x by simpa using hv2]
    simp only [List.isEmpty_nil, contributedBits_last x hB', hrun', Result.bind_done, decodeLoop]

/-- The DECODE loop that meets an invalid character at position `i` after the valid ones (R156, R204). -/
theorem decodeLoop_invalid {chars rest : List Byte} {ch : Byte} {v : List Symbol} {i : Nat} {s : State} {B : List Bool}
    (hv : chars.map dtab = v.map some) (hch : dtab ch = none) (hB : WriterHolds B s)
    (hfit : (B ++ innerBits v).length ≤ 8 * s.cfg.pObytes) (hsmall : 8 * s.cfg.pObytes < 2 ^ 32) :
    ∃ b, decodeLoop (chars ++ ch :: rest) i s = .raised .invalidSymbol
        { s with wbuf := b, wcur := BitVec.ofNat 32 (B ++ innerBits v).length, olen := 0,
                 erridx := BitVec.ofNat 32 (i + chars.length) } ∧
      WriterHolds (B ++ innerBits v) { s with wbuf := b, wcur := BitVec.ofNat 32 (B ++ innerBits v).length } ∧
      (s.wbuf.Rising → b.Rising) ∧ (s.wbuf.NoZero → b.NoZero) ∧
      (s.wbuf.Below s.cfg.pObytes → b.Below s.cfg.pObytes) := by
  obtain ⟨b, hrun, hB', hk⟩ := decodeLoop_inner (rest := ch :: rest) (i := i) hv (by simp) hB hfit hsmall
  refine ⟨b, ?_, hB', hk⟩
  rw [hrun, decodeLoop, hch]

/-- The DECODE loop over valid characters of which only the last does not fit: bw_write's CapacityError (R122, log 21). -/
theorem decodeLoop_capacity {chars : List Byte} {v : List Symbol} {i : Nat} {s : State} {B : List Bool}
    (hv : chars.map dtab = v.map some) (hB : WriterHolds B s)
    (hinner : (B ++ innerBits v.dropLast).length ≤ 8 * s.cfg.pObytes)
    (hfull : 8 * s.cfg.pObytes < (joinSymbols v B).length) (hsmall : 8 * s.cfg.pObytes < 2 ^ 32) :
    ∃ b, decodeLoop chars i s = .raised .capacityError
        { s with wbuf := b, wcur := BitVec.ofNat 32 (B ++ innerBits v.dropLast).length } ∧
      WriterHolds (B ++ innerBits v.dropLast)
        { s with wbuf := b, wcur := BitVec.ofNat 32 (B ++ innerBits v.dropLast).length } ∧
      (s.wbuf.Rising → b.Rising) ∧ (s.wbuf.NoZero → b.NoZero) ∧
      (s.wbuf.Below s.cfg.pObytes → b.Below s.cfg.pObytes) := by
  rcases List.eq_nil_or_concat' v with rfl | ⟨v, x, rfl⟩
  · simp [joinSymbols] at hfull
    simp [innerBits] at hinner
    omega
  · obtain ⟨chars, ch, rfl⟩ : ∃ cs c, chars = cs ++ [c] := by
      rcases List.eq_nil_or_concat' chars with rfl | ⟨cs, c, rfl⟩
      · simp at hv
      · exact ⟨cs, c, rfl⟩
    simp only [List.map_append, List.map_cons, List.map_nil] at hv
    obtain ⟨hv1, hv2⟩ := List.append_inj' hv (by simp)
    rw [joinSymbols_concat, List.length_append, bitsOfSymbol_length] at hfull
    rw [List.dropLast_concat] at hinner ⊢
    obtain ⟨b, hrun, hB', hk⟩ := decodeLoop_inner (rest := [ch]) (i := i) hv1 (by simp) hB hinner hsmall
    refine ⟨b, ?_, hB', hk⟩
    rw [hrun, decodeLoop, show dtab ch = some x by simpa using hv2]
    simp only [List.isEmpty_nil, contributedBits_last x hB']
    rw [bwWrite_of_gt _ (by rw [hB'.1]; exact hfull), Result.bind_raised]

/-- What the DECODE loop can do in any state, whatever its outcome: on success and on CapacityError it writes WBUF and WCUR
only, on InvalidSymbol also OLEN and ERRIDX, and nothing else can happen. -/
theorem decodeLoop_frame (chars : List Byte) (i : Nat) (s : State) :
    (∃ t, decodeLoop chars i s = .done () t ∧ t = { s with wbuf := t.wbuf, wcur := t.wcur }) ∨
    (∃ t, decodeLoop chars i s = .raised .capacityError t ∧ t = { s with wbuf := t.wbuf, wcur := t.wcur }) ∨
    ∃ t j, decodeLoop chars i s = .raised .invalidSymbol t ∧ i ≤ j ∧ j < i + chars.length ∧
      t = { s with wbuf := t.wbuf, wcur := t.wcur, olen := 0, erridx := BitVec.ofNat 32 j } ∧
      dtab (chars.getD (j - i) 0) = none ∧ ∀ m, m < j - i → dtab (chars.getD m 0) ≠ none := by
  induction chars generalizing i s with
  | nil => exact .inl ⟨s, rfl, rfl⟩
  | cons ch chars ih =>
    rw [decodeLoop]
    cases hd : dtab ch with
    | none => exact .inr (.inr ⟨_, i, rfl, le_rfl, by simp, rfl, by simpa using hd, by simp⟩)
    | some x =>
      by_cases hfit : s.wcur.toNat + contributedBits x chars.isEmpty s ≤ 8 * s.cfg.pObytes
      · have hn : contributedBits x chars.isEmpty s ≤ 7 := by
          have := (bwBtb_completes s).1
          unfold contributedBits
          split
          · omega
          · split <;> omega
        obtain ⟨b, hrun, -⟩ := bwWrite_of_le (x.setWidth 8) hn hfit
        simp only [hrun, Result.bind_done]
        rcases ih (i + 1) { s with wbuf := b, wcur := BitVec.ofNat 32 (s.wcur.toNat + contributedBits x chars.isEmpty s) }
          with ⟨t, h1, h2⟩ | ⟨t, h1, h2⟩ | ⟨t, j, h1, h2, h3, h4, h5, h6⟩
        · exact .inl ⟨t, h1, h2⟩
        · exact .inr (.inl ⟨t, h1, h2⟩)
        · refine .inr (.inr ⟨t, j, h1, by omega, by simp only [List.length_cons]; omega, h4, ?_, fun m hm => ?_⟩)
          · rw [show j - i = j - (i + 1) + 1 by omega, List.getD_cons_succ]; exact h5
          · cases m with
            | zero => simp [hd]
            | succ m => rw [List.getD_cons_succ]; exact h6 m (by omega)
      · simp only [bwWrite_of_gt _ (Nat.lt_of_not_le hfit), Result.bind_raised]
        exact .inr (.inl ⟨s, rfl, rfl⟩)

/-- bw_tobytes of a writer that holds `B` emits `B`'s complete bytes (R124). -/
theorem bwTobytes_eq {s : State} {B : List Bool} (hB : WriterHolds B s) : bwTobytes s = completeBytes B := by
  rw [bwTobytes, hB.1, memRead, completeBytes]
  refine List.map_congr_left fun q hq => BitVec.eq_of_getLsbD_eq fun j hj => ?_
  have h := hB.2 (8 * q + j)
  rw [State.writerBit, streamBit, show (8 * q + j) / 8 = q by omega, show (8 * q + j) % 8 = j by omega] at h
  rw [h, BitVec.getLsbD_ofNat, natOfBits_testBit]
  simp [hj, List.getD]

/-- The writer that bw_init leaves holds no bits (R120). -/
theorem bwInit_holds (cap : Nat) (s : State) : WriterHolds [] (bwInit cap s) :=
  ⟨rfl, fun k => by simp [State.writerBit, streamBit, State.wbufByte]⟩

end Sys2Proof.Machine
end

