-- ==== Sys2Proof/Laws/PerInstr.lean ====
section
/-! SUPPORT. Statements about every command, one lemma a constructor. -/

namespace Sys2Proof.Laws.EncodingFields

/-- R82, R85: the word of a command has its reserved bits clear and an opcode from 0x01 to 0x10. -/
def Statement (i : Instr) : Prop :=
  fieldRsv (encode i) = 0 ∧ 1 ≤ (fieldOpc (encode i)).toNat ∧ (fieldOpc (encode i)).toNat ≤ 0x10

/-- The fields of a packed word are the packed fields (R82). -/
theorem fields_packWord (opc : BitVec 5) (n : BitVec 3) (imm : Byte) :
    fieldRsv (packWord opc n imm) = 0 ∧ fieldOpc (packWord opc n imm) = opc ∧
    fieldN (packWord opc n imm) = n ∧ fieldImm8 (packWord opc n imm) = imm := by
  refine ⟨?_, ?_, ?_, ?_⟩ <;> refine BitVec.eq_of_getLsbD_eq fun j hj => ?_
  · simp [fieldRsv, packWord, show ¬ 16 + j < 11 by omega, show ¬ 16 + j < 8 by omega,
      BitVec.getLsbD_of_ge opc (16 + j - 11) (by omega), BitVec.getLsbD_of_ge n (16 + j - 8) (by omega),
      BitVec.getLsbD_of_ge imm (16 + j) (by omega)]
  · simp [fieldOpc, packWord, hj, show 11 + j < 32 by omega, show ¬ 11 + j < 8 by omega,
      BitVec.getLsbD_of_ge n (11 + j - 8) (by omega), BitVec.getLsbD_of_ge imm (11 + j) (by omega)]
  · simp [fieldN, packWord, hj, show 8 + j < 32 by omega, show 8 + j < 11 by omega]
  · simp [fieldImm8, packWord, hj, show j < 11 by omega, show j < 32 by omega]

theorem of_packWord {i : Instr} {opc : BitVec 5} {n : BitVec 3} {imm : Byte} (h : encode i = packWord opc n imm)
    (h1 : 1 ≤ opc.toNat) (h2 : opc.toNat ≤ 0x10) : Statement i := by
  obtain ⟨hr, ho, -, -⟩ := fields_packWord opc n imm
  exact ⟨by rw [h, hr], by rw [h, ho]; exact h1, by rw [h, ho]; exact h2⟩

theorem rdInit : Statement .rdInit := of_packWord (opc := 0x01) rfl (by decide) (by decide)
theorem rdHasmore : Statement .rdHasmore := of_packWord (opc := 0x02) rfl (by decide) (by decide)
theorem rdRead (n : BitVec 3) : Statement (.rdRead n) := of_packWord (opc := 0x03) rfl (by decide) (by decide)
theorem rdSeekback : Statement .rdSeekback := of_packWord (opc := 0x04) rfl (by decide) (by decide)
theorem wrInit : Statement .wrInit := of_packWord (opc := 0x05) rfl (by decide) (by decide)
theorem wrWrite (n : BitVec 3) (value : Byte) : Statement (.wrWrite n value) :=
  of_packWord (opc := 0x06) rfl (by decide) (by decide)
theorem wrBtb : Statement .wrBtb := of_packWord (opc := 0x07) rfl (by decide) (by decide)
theorem wrTobytes : Statement .wrTobytes := of_packWord (opc := 0x08) rfl (by decide) (by decide)
theorem symEnc (v : Byte) : Statement (.symEnc v) := of_packWord (opc := 0x09) rfl (by decide) (by decide)
theorem symDec (c : Byte) : Statement (.symDec c) := of_packWord (opc := 0x0A) rfl (by decide) (by decide)
theorem encode : Statement .encode := of_packWord (opc := 0x0B) rfl (by decide) (by decide)
theorem decode : Statement .decode := of_packWord (opc := 0x0C) rfl (by decide) (by decide)
theorem idTobytes : Statement .idTobytes := of_packWord (opc := 0x0D) rfl (by decide) (by decide)
theorem idFrombytes : Statement .idFrombytes := of_packWord (opc := 0x0E) rfl (by decide) (by decide)
theorem idTobase62 : Statement .idTobase62 := of_packWord (opc := 0x0F) rfl (by decide) (by decide)
theorem idFrombase62 : Statement .idFrombase62 := of_packWord (opc := 0x10) rfl (by decide) (by decide)

end Sys2Proof.Laws.EncodingFields
end

