-- ==== Sys2Proof/Laws/Step.lean ====
section
/-! SUPPORT. The step and the bus: what each input does, once. -/

namespace Sys2Proof.Machine

@[simp] theorem step_receiving (e : BusEvent) (s : State) : step (s.receiving e) = perform e s := rfl

/-- Everything a step can do: wait, or take the oldest input. -/
theorem step_cases (s : State) :
    (s.inputs = [] ∧ step s = .next s) ∨
    ∃ e rest, s.inputs = e :: rest ∧ step s = perform e { s with inputs := rest } := by
  cases h : s.inputs with
  | nil => exact .inl ⟨rfl, by simp [step, nextInput, h]⟩
  | cons e rest => exact .inr ⟨e, rest, rfl, by simp [step, nextInput, h]⟩

theorem windowOffset_inside (c : Config) {off : Nat} (h : off < 2 ^ 20) :
    Config.windowOffset c (c.pBase + off) = some off := by
  simp only [Config.windowOffset]
  rw [if_pos ⟨by omega, by omega⟩]
  simp

/-- An access inside the window, with reset released, goes to its offset (R66). -/
theorem access_inside {s : State} {off : Nat} (act : Nat → State → Answer) (hr : s.resetLine = false)
    (h : off < 2 ^ 20) : access (s.cfg.pBase + off) act s = act off s := by
  simp [access, windowOffset_inside _ h, hr]

/-- Everything an access can do. -/
theorem access_cases {addr : Nat} {act : Nat → State → Answer} {s t : State} (h : access addr act s = .next t) :
    ∃ off, addr = s.cfg.pBase + off ∧ off < 2 ^ 20 ∧ s.resetLine = false ∧ act off s = .next t := by
  unfold access Config.windowOffset at h
  by_cases ha : s.cfg.pBase ≤ addr ∧ addr < s.cfg.pBase + 2 ^ 20
  · rw [if_pos ha] at h
    simp only at h
    split at h
    · cases h
    · rename_i hr
      exact ⟨addr - s.cfg.pBase, by omega, by omega, by simpa using hr, h⟩
  · rw [if_neg ha] at h
    cases h

/-- The CMD register is where an aligned 32-bit access at offset 0 goes, and nowhere else is (R22, R65). -/
theorem target_eq_cmd {c : Config} {off size : Nat} : target c off size = .reg .cmd ↔ off = 0 ∧ size = 4 := by
  constructor
  · intro h
    unfold target at h
    split at h
    · split at h
      · rename_i hs
        refine ⟨?_, hs.1⟩
        unfold HostReg.atOffset at h
        split at h
        · rename_i r hr
          cases h
          split at hr <;> first | rfl | cases hr
        · cases h
      · cases h
    · split at h
      · split at h <;> cases h
      · cases h
  · rintro ⟨rfl, rfl⟩
    rfl

/-- The next step runs a CMD write's word: the command it decodes to, or IllegalCommand (R80, R81). -/
theorem perform_cmd {s : State} (w : Word) (hr : s.resetLine = false) :
    perform (.store s.cfg.pBase 4 w) s = writeCmd w s :=
  access_inside (off := 0) _ hr (by norm_num)

/-- Everything a host write can do, a CMD write apart: it writes nothing, or one register or element the host may write. -/
theorem poke_cases {off size : Nat} {v : Word} {s : State} (h : ¬ (off = 0 ∧ size = 4)) :
    ∃ t, poke off size v s = .next t ∧
      t = { s with ilen := t.ilen, silen := t.silen, wcap := t.wcap, idHi := t.idHi, idLo := t.idLo,
                   ibuf := t.ibuf, sin := t.sin } ∧
      (t.ibuf = s.ibuf ∨ ∃ i, i < s.cfg.pIbytes ∧ t.ibuf = s.ibuf.write i (v.setWidth 8)) ∧
      (t.sin = s.sin ∨ ∃ i, i < s.cfg.pSchars ∧ t.sin = s.sin.write i (v.setWidth 8)) := by
  unfold poke
  cases ht : target s.cfg off size with
  | nothing => exact ⟨s, rfl, rfl, .inl rfl, .inl rfl⟩
  | reg r =>
    cases r with
    | cmd => exact absurd (target_eq_cmd.1 ht) h
    | ilen | silen | wcap | idHiU | idHiL | idLoU | idLoL | status | result | olen | solen | rcur | rlen | wcur | erridx =>
      exact ⟨_, rfl, rfl, .inl rfl, .inl rfl⟩
  | elem w i =>
    have hi : i < w.capacity s.cfg := by
      unfold target at ht
      split at ht
      · split at ht
        · split at ht <;> cases ht
        · cases ht
      · split at ht
        · split at ht
          · rename_i hs
            cases ht
            exact hs.2
          · cases ht
        · cases ht
    cases w with
    | ibuf => exact ⟨_, rfl, rfl, .inr ⟨i, hi, rfl⟩, .inl rfl⟩
    | sin => exact ⟨_, rfl, rfl, .inl rfl, .inr ⟨i, hi, rfl⟩⟩
    | obuf => exact ⟨_, rfl, rfl, .inl rfl, .inl rfl⟩
    | sout => exact ⟨_, rfl, rfl, .inl rfl, .inl rfl⟩

end Sys2Proof.Machine
end

