-- ==== Sys2Proof/Tests/Slice0.lean ====
section
/-! SUPPORT. Tests whose expected values are written out from 30_encoding.md R85 and 95_test_vectors.md, and for every
statement with hypotheses a concrete state and operands that meet them. -/

namespace Sys2Proof.Tests

-- One theorem after another: so many kernel evaluations at once would ask for more threads than there are.
set_option Elab.async false

open Sys2Proof.Machine

/-! ### Helpers: small states, and looking at an answer -/

/-- The state an answer leaves, if it is a next state. -/
def after : Answer → Option State
  | .next t => some t
  | _ => none

/-- `p` of the next state. -/
def ends (a : Answer) (p : State → Bool) : Bool := (after a).any p

theorem next_of_ends {a : Answer} {p : State → Bool} (h : ends a p = true) : ∃ t, a = .next t ∧ p t = true := by
  cases a with
  | next t => exact ⟨t, rfl, h⟩
  | fault _ => cases h
  | refused _ => cases h

theorem runs {a : Answer} (h : (after a).isSome = true) : ∃ t, a = .next t := by
  cases a with
  | next t => exact ⟨t, rfl⟩
  | fault _ => cases h
  | refused _ => cases h

/-- After reset, IBUF and ILEN as the host wrote them. -/
def withBytes (L : List Byte) : State :=
  { State.reset with ibuf := Buffer.writeList [] 0 L, ilen := BitVec.ofNat 32 L.length }

/-- After reset, SIN and SILEN as the host wrote them. -/
def withChars (L : List Byte) : State :=
  { State.reset with sin := Buffer.writeList [] 0 L, silen := BitVec.ofNat 32 L.length }

/-- A reader constructed over `L`, at bit `c`. -/
def reading (L : List Byte) (c : Nat) : State :=
  { State.reset with rbuf := Buffer.writeList [] 0 L, rlen := BitVec.ofNat 32 L.length, rcur := BitVec.ofNat 32 c }

/-- A writer that holds the bytes `L` and stands at bit `c`. -/
def writing (L : List Byte) (c : Nat) : State :=
  { State.reset with wbuf := Buffer.writeList [] 0 L, wcur := BitVec.ofNat 32 c }

/-- After reset, an identifier. -/
def withId (hi lo : IdHalf) : State := { State.reset with idHi := hi, idLo := lo }

/-- Smallest capacities that leave a 27-character DECODE without room (log 21). -/
def tight : Config := { pIbytes := 16, pSchars := 27, pObytes := 20, pBase := 0 }

/-- 26 `A`s and an `e`: 161 contributed bits. -/
def overfull : State := { withChars (List.replicate 26 0x41 ++ [0x65]) with cfg := tight }

/-- A state in which the sticky fault is set (R206). -/
def faulty : State := { State.reset with status := { err := some .boundsError, fault := true } }

/-- A state in reset (log 7). -/
def held : State := { State.reset with resetLine := true }

/-- "A59eA" (V1). -/
def a59eA : List Byte := [0x41, 0x35, 0x39, 0x65, 0x41]

/-- V3's identifier as text: "GWFlTJOJJFiuuftaBuEXKE". -/
def v3Text : List Byte :=
  [0x47, 0x57, 0x46, 0x6C, 0x54, 0x4A, 0x4F, 0x4A, 0x4A, 0x46, 0x69, 0x75, 0x75, 0x66, 0x74, 0x61, 0x42, 0x75, 0x45, 0x58,
   0x4B, 0x45]

/-- V3's identifier as bytes. -/
def v3Bytes : List Byte :=
  [0x86, 0x55, 0x94, 0x53, 0xE2, 0x24, 0x49, 0x21, 0xBA, 0xEE, 0x6F, 0xB5, 0xC0, 0x25, 0x2E, 0x85]

/-- V3's identifier. -/
def v3Id : State := withId 0x86559453E2244921 0xBAEE6FB5C0252E85

/-! ### Well-formedness: ill-formed terms are refused (R84) -/

theorem test_wf_rdRead_zero : (Instr.rdRead 0).wf = false := by decide
theorem test_wf_rdRead_seven : (Instr.rdRead 7).wf = false := by decide
theorem test_wf_wrWrite_seven : (Instr.wrWrite 7 0).wf = false := by decide
theorem test_wf_rdRead_six : (Instr.rdRead 6).wf = true := by decide
theorem test_wf_wrWrite_zero : (Instr.wrWrite 0 255).wf = true := by decide

/-! ### Decoding: the words of 95_test_vectors.md and of R85's table -/

theorem test_decode_rdInit : decode 0x00000800 = .ok .rdInit := by decide
theorem test_decode_rdHasmore : decode 0x00001000 = .ok .rdHasmore := by decide
theorem test_decode_rdRead : decode 0b0000000000000000_00011_101_00000000 = .ok (.rdRead 5) := by decide
theorem test_decode_rdSeekback : decode 0x00002100 = .ok .rdSeekback := by decide
theorem test_decode_wrInit : decode 0x00002800 = .ok .wrInit := by decide
theorem test_decode_wrWrite : decode 0b0000000000000000_00110_101_00011110 = .ok (.wrWrite 5 30) := by decide
theorem test_decode_wrWrite_zero : decode 0x000030FF = .ok (.wrWrite 0 255) := by decide
theorem test_decode_wrBtb : decode 0x00003800 = .ok .wrBtb := by decide
theorem test_decode_wrTobytes : decode 0x00004000 = .ok .wrTobytes := by decide
theorem test_decode_symEnc : decode 0b0000000000000000_01001_000_00111101 = .ok (.symEnc 61) := by decide
theorem test_decode_symDec : decode 0x000050C1 = .ok (.symDec 0xC1) := by decide
theorem test_decode_encode : decode 0x00005800 = .ok .encode := by decide
theorem test_decode_decode : decode 0x00006000 = .ok .decode := by decide
theorem test_decode_idTobytes : decode 0x00006800 = .ok .idTobytes := by decide
theorem test_decode_idFrombytes : decode 0x00007000 = .ok .idFrombytes := by decide
theorem test_decode_idTobase62 : decode 0x00007800 = .ok .idTobase62 := by decide
theorem test_decode_idFrombase62 : decode 0x00008000 = .ok .idFrombase62 := by decide

/-- V52, V52a, V52b: reserved OPC. -/
theorem test_decode_reserved_opcodes :
    decode 0x00000000 = .error .noOpcode ∧ decode 0x00008800 = .error .noOpcode ∧ decode 0x0000F800 = .error .noOpcode := by
  decide

/-- V52c, and the word of P4. -/
theorem test_decode_reserved_bits :
    decode 0x00010800 = .error .reservedBits ∧ decode 0x12345678 = .error .reservedBits := by decide

/-- V52e to V52h, V15's step 6, and V19's SYM_ENC with N = 1. -/
theorem test_decode_bad_counts :
    decode 0x00001800 = .error .badCount ∧ decode 0x00001F00 = .error .badCount ∧ decode 0x00002200 = .error .badCount ∧
    decode 0x00002000 = .error .badCount ∧ decode 0x0000377F = .error .badCount ∧ decode 0x00004900 = .error .badCount := by
  decide

/-- V52d, and the ENCODE of section 5 with IMM8 = 1. -/
theorem test_decode_bad_immediates :
    decode 0x00000801 = .error .badImmediate ∧ decode 0x00005801 = .error .badImmediate := by decide

theorem test_decodeTableWord :
    decodeTableWord 32 0x00005800 = some .encode ∧ decodeTableWord 16 0x00005800 = some .encode ∧
    decodeTableWord 32 0x00010800 = none := by decide

/-! ### BitReader -/

/-- V10 step 1. -/
theorem test_rdInit_snapshots :
    ends (exec .rdInit (withBytes [0x40, 0xDE, 0x7B]))
      (fun t => t.rlen == 3 && t.rcur == 0 && memRead t.rbufByte 3 == [0x40, 0xDE, 0x7B] && t.status.word == 0) = true := by
  decide +kernel

/-- V12: ILEN = 1025. -/
theorem test_rdInit_capacity :
    ends (exec .rdInit { State.reset with ilen := 1025 }) (fun t => t.status.word == 5 && t.rlen == 0) = true := by
  decide +kernel

/-- V13: RLEN = 3, RCUR = 23 and 24. -/
theorem test_rdHasmore_last_bit :
    ends (exec .rdHasmore (reading [0x40, 0xDE, 0x7B] 23)) (fun t => t.result == 1) = true ∧
    ends (exec .rdHasmore { reading [0x40, 0xDE, 0x7B] 24 with result := 9 }) (fun t => t.result == 0) = true := by
  decide +kernel

/-- V11: [A5 3C] at 5. -/
theorem test_rdRead_straddles :
    ends (exec (.rdRead 6) (reading [0xA5, 0x3C] 5)) (fun t => t.result == 37 && t.rcur == 11) = true := by decide +kernel

/-- V11: [80] at 7, five missing bits. V12: [FF] at 8. -/
theorem test_rdRead_end :
    ends (exec (.rdRead 6) (reading [0x80] 7)) (fun t => t.result == 1 && t.rcur == 13) = true ∧
    ends (exec (.rdRead 6) (reading [0xFF] 8)) (fun t => t.status.word == 0xB && t.rcur == 8) = true := by decide +kernel

/-- V12: RCUR = 24. -/
theorem test_rdSeekback_rewinds :
    ends (exec .rdSeekback (reading [0x40, 0xDE, 0x7B] 24)) (fun t => t.rcur == 23 && t.status.word == 0) = true := by
  decide +kernel

/-- V12: the reset state. -/
theorem test_rdSeekback_at_zero : ends (exec .rdSeekback State.reset) (fun t => t.status.word == 0xB) = true := by
  decide +kernel

/-! ### BitWriter -/

/-- R120: WBUF all zero, WCUR 0, whatever they were; WCAP = 0 is advisory (V16). -/
theorem test_wrInit_clears :
    ends (exec .wrInit (writing [0xFD, 0x01] 9)) (fun t => t.wcur == 0 && memRead t.wbufByte 2 == [0, 0]) = true := by
  decide +kernel

/-- V15 step 2. -/
theorem test_wrWrite_straddles :
    ends (exec (.wrWrite 6 63) (writing [0x05] 3)) (fun t => memRead t.wbufByte 2 == [0xFD, 0x01] && t.wcur == 9) = true := by
  decide +kernel

/-- V17: 12285 + 4 > 12288, 12285 + 3 is not. -/
theorem test_wrWrite_capacity :
    ends (exec (.wrWrite 4 0) (writing [] 12285)) (fun t => t.status.word == 5 && t.wcur == 12285) = true ∧
    ends (exec (.wrWrite 3 0) (writing [] 12285)) (fun t => t.status.word == 0 && t.wcur == 12288) = true := by decide +kernel

/-- V15 step 3; an aligned writer needs none (R123). -/
theorem test_wrBtb :
    ends (exec .wrBtb (writing [0xFD, 0x01] 9)) (fun t => t.result == 7) = true ∧
    ends (exec .wrBtb { writing [0xFD] 8 with result := 9 }) (fun t => t.result == 0) = true := by decide +kernel

/-- V15 step 4. -/
theorem test_wrTobytes_drops_partial_byte :
    ends (exec .wrTobytes (writing [0xFD, 0x01] 9)) (fun t => t.olen == 1 && t.obufByte 0 == 0xFD && t.wcur == 9) = true := by
  decide +kernel

/-! ### Symbols -/

/-- V18. -/
theorem test_symEnc :
    ends (exec (.symEnc 26) State.reset) (fun t => t.result == 0x61) = true ∧
    ends (exec (.symEnc 52) State.reset) (fun t => t.result == 0x30) = true ∧
    ends (exec (.symEnc 62) { State.reset with result := 9 }) (fun t => t.result == 9 && t.status.word == 1) = true := by
  decide +kernel

/-- V19. -/
theorem test_symDec :
    ends (exec (.symDec 0x65) State.reset) (fun t => t.result == 30) = true ∧
    ends (exec (.symDec 0x39) State.reset) (fun t => t.result == 61) = true ∧
    ends (exec (.symDec 0xC1) { State.reset with result := 9 }) (fun t => t.result == 9 && t.status.word == 1) = true := by
  decide +kernel

/-! ### ENCODE and DECODE -/

/-- V1. -/
theorem test_encode_v1 :
    ends (exec .encode (withBytes [0x40, 0xDE, 0x7B]))
      (fun t => memRead t.soutChar 5 == a59eA && t.solen == 5 && t.rcur == 29) = true := by decide +kernel

/-- V26: "eB". -/
theorem test_encode_compact :
    ends (exec .encode (withBytes [0x3E])) (fun t => memRead t.soutChar 2 == [0x65, 0x42] && t.rcur == 11) = true := by
  decide +kernel

/-- V35: "AAeX", whose last character contributes 7 bits. -/
theorem test_decode_seven_bits :
    ends (exec .decode (withChars [0x41, 0x41, 0x65, 0x58]))
      (fun t => memRead t.obufByte 3 == [0x00, 0xE0, 0x2F] && t.olen == 3 && t.wcur == 24) = true := by decide +kernel

/-- V2: "A+B". -/
theorem test_decode_invalid :
    ends (exec .decode { withChars [0x41, 0x2B, 0x42] with olen := 9 })
      (fun t => t.status.word == 1 && t.erridx == 1 && t.olen == 0 && t.wcur == 6) = true := by decide +kernel

/-! ### Identifiers -/

/-- V3. -/
theorem test_idTobytes_v3 :
    ends (exec .idTobytes v3Id) (fun t => memRead t.obufByte 16 == v3Bytes && t.olen == 16) = true := by decide +kernel

/-- V49: 17 bytes. -/
theorem test_idFrombytes_v49 :
    ends (exec .idFrombytes (withBytes (v3Bytes ++ [0xAA])))
      (fun t => t.idHi == 0x86559453E2244921 && t.idLo == 0xBAEE6FB5C0252E85) = true := by decide +kernel

/-- V4: 15 bytes. -/
theorem test_idFrombytes_short :
    ends (exec .idFrombytes { withBytes (v3Bytes.take 15) with idLo := 0x2222 })
      (fun t => t.status.word == 2 && t.idLo == 0x2222) = true := by decide +kernel

/-- V3. -/
theorem test_idTobase62_v3 :
    ends (exec .idTobase62 v3Id) (fun t => memRead t.soutChar 22 == v3Text && t.solen == 22 && t.rcur == 131) = true := by
  decide +kernel

/-- V3. -/
theorem test_idFrombase62_v3 :
    ends (exec .idFrombase62 (withChars v3Text))
      (fun t => t.idHi == 0x86559453E2244921 && t.idLo == 0xBAEE6FB5C0252E85 && t.wcur == 128) = true := by decide +kernel

/-- V41: 23 `A`s. -/
theorem test_idFrombase62_long :
    ends (exec .idFrombase62 { withChars (List.replicate 23 0x41) with idHi := 7 })
      (fun t => t.status.word == 2 && t.idHi == 7 && t.olen == 17 && t.wcur == 136) = true := by decide +kernel

/-! ### The step -/

/-- Section 7a, Fault: a legal word under FAULT. V52: an illegal word without it. -/
theorem test_step_fault_and_illegal :
    ends (step (faulty.receiving (.store 0 4 0x00005800))) (fun t => t.status.word == 0xB) = true ∧
    ends (step (State.reset.receiving (.store 0 4 0x00000000))) (fun t => t.status.word == 0x4) = true := by decide +kernel

/-- P3: the identifier written by its upper half, and read back. -/
theorem test_step_identifier_halves :
    ends (step ((withId 0x0000000000000005 0).receiving (.store 0x030 4 0x86559453)))
      (fun t => t.idHi == 0x8655945300000005) = true ∧
    ends (step (v3Id.receiving (.load 0x03C 4))) (fun t => t.readData == 0xC0252E85) = true := by decide +kernel

/-- R66, R67: IBUF's window takes a byte; OBUF's takes none. -/
theorem test_step_windows :
    ends (step (State.reset.receiving (.store 0x10002 1 0x7B))) (fun t => t.ibuf == [(2, 0x7B)]) = true ∧
    ends (step (State.reset.receiving (.store 0x20002 1 0x7B))) (fun t => t.obuf == []) = true := by decide +kernel

/-- R230: reset clears the sticky fault. -/
theorem test_step_reset_clears_fault :
    ends (step (({ faulty with resetLine := true } : State).receiving .releaseReset))
      (fun t => t.status.word == 0 && t.draws == 1) = true := by decide +kernel

theorem test_withFetchWord_runs :
    ends (step ((withBytes [0x40, 0xDE, 0x7B]).withFetchWord 32 0x00005800)) (fun t => t.solen == 5) = true := by
  decide +kernel

/-! ### Witnesses: for each statement with hypotheses, states and operands that meet them, clause by clause -/

theorem witness_DecodeOfEncodeIsIdentity :
    (Instr.rdRead 1).wf = true ∧ (Instr.rdRead 6).wf = true ∧ (Instr.wrWrite 0 255).wf = true ∧
    (Instr.wrWrite 6 0).wf = true ∧ (Instr.symDec 255).wf = true := by decide

theorem witness_DecodedWordsAreEncodings : decode 0x000036FF = .ok (.wrWrite 6 255) := by decide

/-- No command has the word 0x0000377F (V15 step 6). -/
theorem witness_IllegalWordsReportIllegalCommand :
    State.reset.resetLine = false ∧ State.reset.status.fault = false ∧
    ∀ i : Instr, i.wf = true → encode i ≠ 0x0000377F := by
  refine ⟨rfl, rfl, fun i => ?_⟩
  cases i with
  | rdRead n => revert n; decide
  | wrWrite n v => revert n v; decide +kernel
  | symEnc v => revert v; decide +kernel
  | symDec v => revert v; decide +kernel
  | _ => decide

/-- One word for each clause of the list, at the ends of the reserved ranges. -/
theorem witness_IllegalWordsReportIllegalCommand_words :
    fieldRsv 0x00010800 ≠ 0 ∧ fieldOpc 0x00000000 = 0 ∧ 0x11 ≤ (fieldOpc 0x00008800).toNat ∧
    0x11 ≤ (fieldOpc 0x0000F800).toNat ∧ (fieldOpc 0x00001800 = 0x03 ∧ fieldN 0x00001800 = 0) ∧
    (fieldOpc 0x00001F00 = 0x03 ∧ fieldN 0x00001F00 = 7) ∧ (fieldOpc 0x00002200 = 0x04 ∧ fieldN 0x00002200 ≠ 1) ∧
    (fieldOpc 0x0000377F = 0x06 ∧ fieldN 0x0000377F = 7) ∧
    (fieldOpc 0x00004900 = 0x09 ∧ fieldN 0x00004900 ≠ 0) ∧ (fieldOpc 0x00000801 = 0x01 ∧ fieldImm8 0x00000801 ≠ 0) := by
  decide

theorem witness_StepRunsTheWrittenCommand : State.reset.resetLine = false ∧ decode 0x00005800 = .ok .encode := by decide

theorem witness_FetchWordRunsTheDecodedInstruction :
    decodeTableWord 32 0x00001E00 = some (.rdRead 6) ∧ decodeTableWord 16 0x00001E00 = some (.rdRead 6) := by decide

/-- Addresses on both sides of both ends of a window at 0x100000. -/
theorem witness_StepStopsOnlyOutsideTheCore :
    State.reset.inputs = [] ∧
    (0xFFFFF < ({ Config.reference with pBase := 0x100000 } : Config).pBase) ∧
    (({ Config.reference with pBase := 0x100000 } : Config).pBase + 2 ^ 20 ≤ 0x200000) ∧
    (held.resetLine = true ∧ 0xFFFFF < 2 ^ 20) ∧ State.reset.resetLine = false := by decide

theorem witness_ParametersNeverChange : ∃ t, step (held.receiving .releaseReset) = .next t := ⟨_, rfl⟩

/-- ILEN at P_IBYTES, and one above. -/
theorem witness_RdInitSnapshotsIbuf :
    State.reset.status.fault = false ∧
    ({ State.reset with ilen := 1024 } : State).ilen.toNat ≤ State.reset.cfg.pIbytes ∧
    State.reset.cfg.pIbytes < ({ State.reset with ilen := 1025 } : State).ilen.toNat ∧ State.reset.ilen = 0 ∧
    ∃ u, step (State.reset.receiving (.store (State.reset.cfg.pBase + (0x10000 + 0xFFFF)) 1 0)) = .next u :=
  ⟨by decide, by decide, by decide, by decide, runs (by decide +kernel)⟩

theorem witness_RdHasmoreTestsTheCursor : (reading [0xFF] 7).status.fault = false := by decide

/-- RCUR one below the end with the counts 1 and 6, RCUR at the end, and the counts 0 and 7. -/
theorem witness_RdReadReturnsTheNextBits :
    (reading [0x80] 7).status.fault = false ∧ (reading [0x80] 7).rcur.toNat < 8 * (reading [0x80] 7).rlen.toNat ∧
    8 * (reading [0x80] 8).rlen.toNat ≤ (reading [0x80] 8).rcur.toNat ∧
    (1 ≤ (1 : BitVec 3).toNat ∧ (6 : BitVec 3).toNat ≤ 6) ∧ (0 : BitVec 3).toNat = 0 ∧ (7 : BitVec 3).toNat = 7 := by
  decide

theorem witness_RdSeekbackRewindsOneBit :
    State.reset.status.fault = false ∧ 0 < (reading [0x80] 1).rcur.toNat ∧ State.reset.rcur.toNat = 0 ∧
    (2 : BitVec 3) ≠ 1 ∧ (0 : BitVec 3) ≠ 1 := by decide

theorem witness_IbufWritesMissTheReader :
    (∃ t, exec (.rdRead 6) (reading [0xA5, 0x3C] 5) = .next t) ∧
    (withBytes [0x40]).status.fault = false ∧ (withBytes [0x40]).ilen.toNat ≤ (withBytes [0x40]).cfg.pIbytes :=
  ⟨⟨_, rfl⟩, by decide⟩

theorem witness_WrInitClearsTheWriter : (writing [0xFD, 0x01] 9).status.fault = false := by decide

/-- V17: the last room for 3 bits, one bit too many, and the count 7. -/
theorem witness_WrWriteAppendsTheLowBits :
    (writing [] 12285).status.fault = false ∧ (6 : BitVec 3).toNat ≤ 6 ∧
    (writing [] 12285).wcur.toNat + (3 : BitVec 3).toNat ≤ 8 * (writing [] 12285).cfg.pObytes ∧
    8 * (writing [] 12285).cfg.pObytes < (writing [] 12285).wcur.toNat + (4 : BitVec 3).toNat ∧
    (7 : BitVec 3).toNat = 7 := by decide

theorem witness_WrBtbCountsToTheBoundary : (writing [0xFD, 0x01] 9).status.fault = false := by decide

theorem witness_WrTobytesEmitsCompleteBytes : (writing [0xFD, 0x01] 9).status.fault = false := by decide

theorem witness_WcapChangesNoResult : ∃ t, exec .wrInit { State.reset with wcap := 30 } = .next t := ⟨_, rfl⟩

theorem witness_AlphabetTableEntries : 62 ≤ (62 : Byte).toNat ∧ 62 ≤ (255 : Byte).toNat := by decide

theorem witness_TablesAreInverse : (61 : Symbol).toNat ≤ 61 ∧ dtab 0x39 = some 61 := by decide

theorem witness_CompactionKeepsTheSymbol : compact 63 = true ∧ compact 61 = false := by decide

theorem witness_SymEncLooksUpTheAlphabet :
    State.reset.status.fault = false ∧ (61 : Byte).toNat < 62 ∧ 62 ≤ (62 : Byte).toNat := by decide

theorem witness_SymDecLooksUpTheValue :
    State.reset.status.fault = false ∧ dtab 0x7A = some 51 ∧ dtab 0x7B = none := by decide

/-- ILEN at 0, at P_IBYTES, and one above. -/
theorem witness_EncodeFollowsTheBitStream :
    State.reset.status.fault = false ∧ State.reset.cfg.Admissible ∧
    State.reset.ilen.toNat ≤ State.reset.cfg.pIbytes ∧
    ({ State.reset with ilen := 1024 } : State).ilen.toNat ≤ State.reset.cfg.pIbytes ∧
    State.reset.cfg.pIbytes < ({ State.reset with ilen := 1025 } : State).ilen.toNat := by decide

theorem witness_EncodeLengthIsBounded :
    ((withBytes [0x3E]).status.fault = false ∧ (withBytes [0x3E]).cfg.Admissible ∧
      (withBytes [0x3E]).ilen.toNat ≤ (withBytes [0x3E]).cfg.pIbytes) ∧
    (∃ t, exec .encode (withBytes [0x3E]) = .next t ∧ t.solen == 2) ∧
    (∃ t, exec .idTobase62 (withId 0 0) = .next t ∧ t.solen == 22) ∧
    (∃ t, exec .idTobase62 (withId (BitVec.allOnes 64) (BitVec.allOnes 64)) = .next t ∧ t.solen == 26) :=
  ⟨by decide, next_of_ends (by decide +kernel), next_of_ends (by decide +kernel), next_of_ends (by decide +kernel)⟩

theorem witness_EncodeEmitsOnlyAlphabetCharacters :
    ((withBytes [0x3E]).status.fault = false ∧ (withBytes [0x3E]).cfg.Admissible ∧
      (withBytes [0x3E]).ilen.toNat ≤ (withBytes [0x3E]).cfg.pIbytes) ∧
    ∃ t, exec .encode (withBytes [0x3E]) = .next t ∧ decide (1 < t.solen.toNat) = true :=
  ⟨by decide, next_of_ends (p := fun t => decide (1 < t.solen.toNat)) (by decide +kernel)⟩

theorem witness_EncodeConsumesEveryBit :
    ((withBytes [0x80]).status.fault = false ∧ (withBytes [0x80]).cfg.Admissible ∧
      (withBytes [0x80]).ilen.toNat ≤ (withBytes [0x80]).cfg.pIbytes) ∧
    ∃ t, exec .encode (withBytes [0x80]) = .next t ∧ t.rcur == 12 := ⟨by decide, next_of_ends (by decide +kernel)⟩

/-- SILEN one above P_SCHARS, a valid string, one that fills the writer, and an invalid first and last character. -/
theorem witness_DecodeFollowsTheContributions :
    (State.reset.status.fault = false ∧ State.reset.cfg.Admissible ∧ overfull.status.fault = false ∧ tight.Admissible) ∧
    State.reset.cfg.pSchars < ({ State.reset with silen := 2049 } : State).silen.toNat ∧
    (SinSymbols 5 [0, 57, 61, 30, 0] (withChars a59eA) ∧ (joinSymbols [0, 57, 61, 30, 0] []).length = 24) ∧
    (SinSymbols 27 (List.replicate 26 0 ++ [30]) overfull ∧ overfull.silen.toNat ≤ overfull.cfg.pSchars ∧
      8 * overfull.cfg.pObytes < (joinSymbols (List.replicate 26 0 ++ [30]) []).length) ∧
    (SinSymbols 0 [] (withChars [0x2B]) ∧ dtab ((withChars [0x2B]).sinChar 0) = none) ∧
    (SinSymbols 1 [0] (withChars [0x41, 0x2B]) ∧ dtab ((withChars [0x41, 0x2B]).sinChar 1) = none) := by
  unfold SinSymbols
  decide +kernel

/-- One state for both clauses; ENCODE and ID_TOBASE62 at capacities that are not roomy. -/
theorem witness_DecodeFitsUnderMarginedCapacities :
    ((withChars a59eA).status.fault = false ∧ (withChars a59eA).cfg.Admissible ∧ (withChars a59eA).cfg.Roomy ∧
      (withChars a59eA).silen.toNat ≤ (withChars a59eA).cfg.pSchars) ∧
    (∃ t, exec .decode (withChars a59eA) = .next t ∧ (t.wcur == 24 && t.status.err == none) = true) ∧
    (tight.Admissible ∧ ¬ tight.Roomy ∧ overfull.status.fault = false ∧ overfull.ilen.toNat ≤ tight.pIbytes) ∧
    (∃ t, exec .encode overfull = .next t) ∧ (∃ t, exec .idTobase62 overfull = .next t) :=
  ⟨by decide, next_of_ends (p := fun t => t.wcur == 24 && t.status.err == none) (by decide +kernel), by decide,
   runs (by decide +kernel), runs (by decide +kernel)⟩

theorem witness_DecodeCanFillTheWriter : tight.Admissible ∧ ¬ tight.Roomy := by decide

/-- V1: the text that ENCODE leaves, copied to SIN. -/
theorem witness_EncodeThenDecodeIsIdentity :
    ((withBytes [0x40, 0xDE, 0x7B]).status.fault = false ∧ (withBytes [0x40, 0xDE, 0x7B]).cfg.Admissible ∧
      (withBytes [0x40, 0xDE, 0x7B]).ilen.toNat ≤ (withBytes [0x40, 0xDE, 0x7B]).cfg.pIbytes) ∧
    ∃ t, exec .encode (withBytes [0x40, 0xDE, 0x7B]) = .next t ∧
      ((withChars a59eA).cfg == (withBytes [0x40, 0xDE, 0x7B]).cfg && (withChars a59eA).silen == t.solen &&
        memRead (withChars a59eA).sinChar t.solen.toNat == memRead t.soutChar t.solen.toNat) = true :=
  ⟨by decide, next_of_ends (p := fun t => (withChars a59eA).cfg == (withBytes [0x40, 0xDE, 0x7B]).cfg &&
    (withChars a59eA).silen == t.solen &&
    memRead (withChars a59eA).sinChar t.solen.toNat == memRead t.soutChar t.solen.toNat) (by decide +kernel)⟩

theorem witness_IdTobytesSerializesBigEndian : v3Id.status.fault = false := by decide

/-- ILEN one above P_IBYTES, at 15, at 16 and at P_IBYTES. -/
theorem witness_IdFrombytesReadsSixteenBytes :
    State.reset.status.fault = false ∧
    State.reset.cfg.pIbytes < ({ State.reset with ilen := 1025 } : State).ilen.toNat ∧
    ({ State.reset with ilen := 15 } : State).ilen.toNat < 16 ∧
    16 ≤ ({ State.reset with ilen := 16 } : State).ilen.toNat ∧
    ({ State.reset with ilen := 1024 } : State).ilen.toNat ≤ State.reset.cfg.pIbytes := by decide

theorem witness_IdTobase62EncodesTheIdentifier : v3Id.status.fault = false ∧ v3Id.cfg.Admissible := by decide

/-- SILEN one above P_SCHARS; 22, 21 and 23 `A`s (V39, V40, V41); the string that fills the writer; V50's invalid character. -/
theorem witness_IdFrombase62DecodesTheIdentifier :
    (State.reset.status.fault = false ∧ State.reset.cfg.Admissible) ∧
    State.reset.cfg.pSchars < ({ State.reset with silen := 2049 } : State).silen.toNat ∧
    (SinSymbols 22 (List.replicate 22 0) (withChars (List.replicate 22 0x41)) ∧
      (decodeSymbols (List.replicate 22 0)).length = 16 ∧ (joinSymbols (List.replicate 22 0) []).length = 128) ∧
    (SinSymbols 21 (List.replicate 21 0) (withChars (List.replicate 21 0x41)) ∧
      (decodeSymbols (List.replicate 21 0)).length = 15) ∧
    (SinSymbols 23 (List.replicate 23 0) (withChars (List.replicate 23 0x41)) ∧
      (decodeSymbols (List.replicate 23 0)).length = 17) ∧
    (SinSymbols 27 (List.replicate 26 0 ++ [30]) overfull ∧ overfull.silen.toNat ≤ overfull.cfg.pSchars ∧
      8 * overfull.cfg.pObytes < (joinSymbols (List.replicate 26 0 ++ [30]) []).length) ∧
    (SinSymbols 10 (List.replicate 10 0) (withChars (List.replicate 10 0x41 ++ 0x2B :: List.replicate 11 0x41)) ∧
      dtab ((withChars (List.replicate 10 0x41 ++ 0x2B :: List.replicate 11 0x41)).sinChar 10) = none) := by
  unfold SinSymbols
  decide +kernel

/-- V3: the text that ID_TOBASE62 leaves, copied to SIN. -/
theorem witness_IdentifierBase62RoundTrip :
    (v3Id.status.fault = false ∧ v3Id.cfg.Admissible) ∧
    ∃ t, exec .idTobase62 v3Id = .next t ∧
      ((withChars v3Text).cfg == v3Id.cfg && (withChars v3Text).silen == t.solen &&
        memRead (withChars v3Text).sinChar t.solen.toNat == memRead t.soutChar t.solen.toNat) = true :=
  ⟨by decide, next_of_ends (p := fun t => (withChars v3Text).cfg == v3Id.cfg && (withChars v3Text).silen == t.solen &&
    memRead (withChars v3Text).sinChar t.solen.toNat == memRead t.soutChar t.solen.toNat) (by decide +kernel)⟩

/-- R6's smallest and largest capacities. -/
theorem witness_ResetStateMeetsInvariant :
    ({ pIbytes := 16, pSchars := 26, pObytes := 19, pBase := 0 } : Config).Admissible ∧
    ({ pIbytes := 40960, pSchars := 65536, pObytes := 65536, pBase := 0 } : Config).Admissible := by decide

/-- A state with something in it: a writer at bit 9, a listed SOUT, a pending command. -/
def lively : State :=
  { writing [0xFD, 0x01] 9 with sout := [(0, 0x41)], solen := 1, obuf := [(0, 0xFD)], olen := 1,
                                inputs := [cmdWrite Config.reference 0x00004000] }

theorem lively_inv : lively.Inv where
  admissible := by decide
  readerLength := by decide
  readerCursor := by decide
  writerCursor := by decide
  bytesOut := by decide
  symbolsOut := by decide
  writerTail k hk := by
    have hk : 9 ≤ k := hk
    show (Buffer.read 0 [(0, 0xFD), (1, 0x01)] (k / 8)).getLsbD (k % 8) = false
    by_cases h : k / 8 = 1
    · have hm : 1 ≤ k % 8 ∧ k % 8 < 8 := by omega
      simp only [h, Buffer.read]
      generalize k % 8 = m at hm
      obtain ⟨h1, h2⟩ := hm
      interval_cases m <;> decide
    · have h0 : ¬ 0 = k / 8 := by omega
      have h1 : ¬ 1 = k / 8 := fun e => h e.symm
      simp [Buffer.read, h0, h1]
  memory := by decide +kernel
  stickyFault := by decide
  alphabetOut := by decide

theorem witness_StepKeepsInvariant : lively.Inv ∧ ∃ t, step lively = .next t ∧ (t.olen == 1) = true :=
  ⟨lively_inv, next_of_ends (by decide +kernel)⟩

theorem witness_StepKeepsExtentsWritten :
    lively.cfg.Admissible ∧ lively.ExtentsWritten ∧ ∃ t, step lively = .next t ∧ (t.olen == 1) = true :=
  ⟨by decide,
   { obuf := fun i (hi : i < 1) => by obtain rfl : i = 0 := by omega
                                      decide
     sout := fun i (hi : i < 1) => by obtain rfl : i = 0 := by omega
                                      decide
     rbuf := fun i (hi : i < 0) => by omega },
   next_of_ends (by decide +kernel)⟩

theorem witness_ResetClearsEveryRegister :
    held.resetLine = true ∧ ∃ t, exec .wrInit State.reset = .next t := ⟨rfl, _, rfl⟩

theorem witness_ResetUnitsAreEmpty :
    Config.reference.Admissible ∧ State.reset = State.atReset Config.reference 0 0 [] ∧
    (1 ≤ (1 : BitVec 3).toNat ∧ (6 : BitVec 3).toNat ≤ 6) := by decide

theorem witness_UnwrittenElementsAreDraws :
    held.resetLine = true ∧ ∃ t, step (held.receiving .releaseReset) = .next t := ⟨rfl, _, rfl⟩

theorem witness_ResultWrittenOnlyByScalarCommands :
    (∃ t, exec (.symEnc 62) State.reset = .next t ∧ (t.status.err == some .invalidSymbol) = true) ∧
    (∃ t, exec (.symEnc 61) State.reset = .next t ∧ (t.status.err == none) = true) :=
  ⟨next_of_ends (by decide +kernel), next_of_ends (by decide +kernel)⟩

theorem witness_ErridxWrittenOnlyOnInvalidSymbol :
    (∃ t, exec .decode (withChars [0x41, 0x2B, 0x42]) = .next t ∧
      (t.status.err == some .invalidSymbol && t.erridx == 1) = true) ∧
    (∃ t, exec .encode (withBytes [0x3E]) = .next t ∧ (t.status.err == none) = true) ∧
    (∃ t, step ((withChars [0x41, 0x2B, 0x42]).receiving (.store 0 4 0x00006000)) = .next t ∧ (t.erridx != 0) = true) :=
  ⟨next_of_ends (p := fun t => t.status.err == some .invalidSymbol && t.erridx == 1) (by decide +kernel),
   next_of_ends (by decide +kernel), next_of_ends (p := fun t => t.erridx != 0) (by decide +kernel)⟩

theorem witness_CommandsWriteOnlyTheirMatrixRow :
    v3Id.cfg.Admissible ∧ ∃ t, exec .idTobytes v3Id = .next t ∧ (t.status.err == none) = true :=
  ⟨by decide, next_of_ends (by decide +kernel)⟩

/-- Each kind of error, in each form that the statement tells apart. -/
theorem witness_FailingCommandsWriteOnlyTheirReport :
    (State.reset.cfg.Admissible ∧ overfull.cfg.Admissible ∧ ¬ overfull.cfg.Roomy) ∧
    (∃ t, exec .decode overfull = .next t ∧ (t.status.err == some .capacityError && t.wcur == 156) = true) ∧
    (∃ t, exec (.rdRead 7) State.reset = .next t ∧ (t.status.err == some .illegalCommand) = true) ∧
    (∃ t, exec .rdInit { State.reset with ilen := 1025 } = .next t ∧ (t.status.err == some .capacityError) = true) ∧
    (∃ t, exec .rdSeekback State.reset = .next t ∧ (t.status.err == some .boundsError) = true) ∧
    (∃ t, exec .encode faulty = .next t ∧ (t.status.err == some .boundsError) = true) ∧
    (∃ t, exec (.symDec 0x2B) State.reset = .next t ∧ (t.status.err == some .invalidSymbol) = true) ∧
    (∃ t, exec .decode (withChars [0x41, 0x2B, 0x42]) = .next t ∧ (t.status.err == some .invalidSymbol) = true) ∧
    (∃ t, exec .idFrombytes State.reset = .next t ∧ (t.status.err == some .lengthError) = true) ∧
    (∃ t, exec .idFrombase62 (withChars (List.replicate 21 0x41)) = .next t ∧
      (t.status.err == some .lengthError) = true) :=
  ⟨by decide, next_of_ends (p := fun t => t.status.err == some .capacityError && t.wcur == 156) (by decide +kernel),
   next_of_ends (by decide +kernel), next_of_ends (by decide +kernel), next_of_ends (by decide +kernel),
   next_of_ends (by decide +kernel), next_of_ends (by decide +kernel), next_of_ends (by decide +kernel),
   next_of_ends (by decide +kernel), next_of_ends (by decide +kernel)⟩

theorem witness_CompositeCommandErrors :
    ((withChars [0x2B]).status.fault = false ∧ (withChars [0x2B]).cfg.Admissible) ∧
    (∃ t, exec .idFrombase62 (withChars [0x2B]) = .next t ∧ (t.status.err == some .invalidSymbol) = true) ∧
    (∃ t, exec .idFrombase62 (withChars [0x41]) = .next t ∧ (t.status.err == some .lengthError) = true) :=
  ⟨by decide, next_of_ends (by decide +kernel), next_of_ends (by decide +kernel)⟩

/-- One state for each clause, in order, at the boundary of its length or cursor. -/
theorem witness_ErrorPriorityOrder :
    (faulty.resetLine = false ∧ faulty.status.fault = true) ∧
    (State.reset.resetLine = false ∧ State.reset.status.fault = false ∧ decode 0x00000801 = .error .badImmediate) ∧
    State.reset.cfg.pIbytes < ({ State.reset with ilen := 1025 } : State).ilen.toNat ∧
    State.reset.cfg.pSchars < ({ State.reset with silen := 2049 } : State).silen.toNat ∧
    ((withChars [0x41, 0x2B]).silen.toNat ≤ (withChars [0x41, 0x2B]).cfg.pSchars ∧ 1 < (withChars [0x41, 0x2B]).silen.toNat ∧
      dtab ((withChars [0x41, 0x2B]).sinChar 1) = none ∧ ∀ j, j < 1 → dtab ((withChars [0x41, 0x2B]).sinChar j) ≠ none) ∧
    ({ State.reset with ilen := 15 } : State).ilen.toNat < 16 ∧
    8 * State.reset.rlen.toNat ≤ State.reset.rcur.toNat ∧ State.reset.rcur = 0 ∧
    8 * (writing [] 12288).cfg.pObytes < (writing [] 12288).wcur.toNat + (1 : BitVec 3).toNat := by decide +kernel

theorem witness_BoundsErrorIsSticky :
    (∃ t, exec .rdSeekback State.reset = .next t ∧ (t.status.err == some .boundsError) = true) ∧
    (faulty.resetLine = false ∧ faulty.status.fault = true) ∧
    (∃ t, step (({ faulty with resetLine := true } : State).receiving .releaseReset) = .next t ∧
      (t.status.fault == false) = true) ∧
    ¬ (0 = 0 ∧ 1 = 4) ∧ ¬ (4 = 0 ∧ 4 = 4) ∧ 0xFFFFF < 2 ^ 20 :=
  ⟨next_of_ends (by decide +kernel), by decide, next_of_ends (by decide +kernel), by decide, by decide, by decide⟩

theorem witness_HostReadHasNoSideEffect : State.reset.resetLine = false ∧ 0xFFFFF < 2 ^ 20 := by decide

/-- The offsets of the clauses: the last writable register, the first reserved offset, a misaligned one. -/
theorem witness_HostRegisterAccessRules :
    State.reset.resetLine = false ∧ 0x03C < 0x10000 ∧ 0xFFFF < 0x10000 ∧ (0x40 ≤ 0x40) ∧ 0x002 % 4 ≠ 0 ∧
    (0x004 ∈ [0x004, 0x008, 0x018, 0x01C, 0x020, 0x024, 0x028, 0x02C]) ∧ (0x03C ∈ [0x030, 0x034, 0x038, 0x03C]) ∧
    (∃ t, step (State.reset.receiving (.load (State.reset.cfg.pBase + 0x004) 4)) = .next t) ∧
    (∃ t, step (State.reset.receiving (.store (State.reset.cfg.pBase + 0x004) 4 1)) = .next t) :=
  ⟨by decide, by decide, by decide, by decide, by decide, by decide, by decide, ⟨_, rfl⟩, ⟨_, rfl⟩⟩

/-- The last element of each window, the first index above it, and the ends of the reserved range. -/
theorem witness_HostWindowAccessRules :
    State.reset.resetLine = false ∧ State.reset.cfg.Admissible ∧
    1023 < State.reset.cfg.pIbytes ∧ State.reset.cfg.pIbytes ≤ 1024 ∧
    2047 < State.reset.cfg.pSchars ∧ State.reset.cfg.pSchars ≤ 2048 ∧
    1535 < State.reset.cfg.pObytes ∧ State.reset.cfg.pObytes ≤ 1536 ∧ 1536 < 0x10000 ∧
    0x20000 ∈ [0x20000, 0x40000] ∧ (4 : Nat) ≠ 1 ∧ 0x50000 ≤ 0x50000 ∧ 0xFFFFF < 2 ^ 20 := by decide

/-- The three terms that have no word. -/
theorem witness_IllFormedTermsReportIllegalCommand :
    (Instr.rdRead 0).wf = false ∧ (Instr.rdRead 7).wf = false ∧ (Instr.wrWrite 7 255).wf = false ∧
    State.reset.status.fault = false := by decide

end Sys2Proof.Tests
end

section
/-! PROOFS. The tables ALPHA and DTAB in code numbers (10_state.md R40 to R42). -/

namespace Sys2Proof.Machine

/-- Widening a symbol to a byte keeps its number. -/
@[simp] theorem Symbol.toNat_setWidth_byte (v : Symbol) : (v.setWidth 8).toNat = v.toNat :=
  BitVec.toNat_setWidth_of_le (by decide)

/-- R40: the three runs of codes. -/
theorem alpha_eq_some_iff {v c : Byte} : alpha v = some c ↔
    (v.toNat ≤ 25 ∧ c.toNat = 0x41 + v.toNat) ∨
    (26 ≤ v.toNat ∧ v.toNat ≤ 51 ∧ c.toNat = 0x61 + (v.toNat - 26)) ∨
    (52 ≤ v.toNat ∧ v.toNat ≤ 61 ∧ c.toNat = 0x30 + (v.toNat - 52)) := by
  unfold alpha
  split_ifs
  · rw [Option.some.injEq]; bv_omega
  · rw [Option.some.injEq]; bv_omega
  · rw [Option.some.injEq]; bv_omega
  · simp only [false_iff]; omega

/-- R40: ALPHA has an entry exactly below 62. -/
theorem alpha_eq_none_iff {v : Byte} : alpha v = none ↔ 62 ≤ v.toNat := by
  unfold alpha
  split_ifs
  · simp only [false_iff]; omega
  · simp only [false_iff]; omega
  · simp only [false_iff]; omega
  · simp only [true_iff]; omega

/-- R41: the three ranges of valid codes. -/
theorem dtab_eq_some_iff {c : Byte} {v : Symbol} : dtab c = some v ↔
    (0x41 ≤ c.toNat ∧ c.toNat ≤ 0x5A ∧ v.toNat = c.toNat - 0x41) ∨
    (0x61 ≤ c.toNat ∧ c.toNat ≤ 0x7A ∧ v.toNat = c.toNat - 0x61 + 26) ∨
    (0x30 ≤ c.toNat ∧ c.toNat ≤ 0x39 ∧ v.toNat = c.toNat - 0x30 + 52) := by
  unfold dtab
  split_ifs
  · rw [Option.some.injEq]; bv_omega
  · rw [Option.some.injEq]; bv_omega
  · rw [Option.some.injEq]; bv_omega
  · simp only [false_iff]; omega

/-- R42: a character's value is the index at which ALPHA has the character. -/
theorem dtab_eq_some_iff_alpha {c : Byte} {v : Symbol} : dtab c = some v ↔ alpha (v.setWidth 8) = some c := by
  rw [dtab_eq_some_iff, alpha_eq_some_iff, Symbol.toNat_setWidth_byte]
  omega

/-- R41: the values of valid characters end at 61. -/
theorem dtab_le {c : Byte} {v : Symbol} (h : dtab c = some v) : v.toNat ≤ 61 := by
  rw [dtab_eq_some_iff] at h
  omega

/-- Settles O21, range by range. -/
theorem decodeTableEntries : Obligations.DecodeTableEntries := by
  unfold Obligations.DecodeTableEntries
  refine ⟨fun c => ?_, by decide⟩
  split_ifs with hupper hlower hdigit
  · rw [dtab_eq_some_iff, BitVec.toNat_ofNat]; omega
  · rw [dtab_eq_some_iff, BitVec.toNat_ofNat]; omega
  · rw [dtab_eq_some_iff, BitVec.toNat_ofNat]; omega
  · rw [dtab, if_neg hupper, if_neg hlower, if_neg hdigit]

/-- Settles O22: an entry below 62 exists, and `dtab_eq_some_iff_alpha` is both directions. -/
theorem tablesAreInverse : Obligations.TablesAreInverse := by
  unfold Obligations.TablesAreInverse
  refine ⟨fun v hv => ?_, fun c v h => ⟨dtab_le h, dtab_eq_some_iff_alpha.1 h⟩⟩
  have hentry : alpha (v.setWidth 8) ≠ none := by
    rw [Ne, alpha_eq_none_iff, Symbol.toNat_setWidth_byte]; omega
  obtain ⟨c, hc⟩ := Option.ne_none_iff_exists'.1 hentry
  exact ⟨c, hc, dtab_eq_some_iff_alpha.2 hc⟩

end Sys2Proof.Machine
end

section
/-! PROOFS. What each command can do, once: with which errors it ends, and what it has written by then (60_exceptions.md R203
to R206, and the rule of each command). -/

namespace Sys2Proof.Machine

/-! ### Pieces of pseudocode -/

/-- A piece of pseudocode is not refused; it goes on as `ok` says, or raises as `bad` says. -/
def Result.Ends {α : Type} (r : Result α) (ok : α → State → Prop) (bad : ErrKind → State → Prop) : Prop :=
  match r with
  | .done a u => ok a u
  | .raised e u => bad e u
  | .refused _ => False

/-- A second piece starts from what the first leaves; what the first raises is raised (R11). -/
theorem Result.Ends.bind {α β : Type} {r : Result α} {f : α → State → Result β} {ok : α → State → Prop}
    {ok' : β → State → Prop} {bad bad' : ErrKind → State → Prop} (h : r.Ends ok bad)
    (hf : ∀ a u, ok a u → (f a u).Ends ok' bad') (hbad : ∀ e u, bad e u → bad' e u) : (r.bind f).Ends ok' bad' := by
  cases r with
  | done a u => exact hf a u h
  | raised e u => exact hbad e u h
  | refused _ => exact h.elim

theorem Result.Ends.mono {α : Type} {r : Result α} {ok ok' : α → State → Prop} {bad bad' : ErrKind → State → Prop}
    (h : r.Ends ok bad) (hok : ∀ a u, ok a u → ok' a u) (hbad : ∀ e u, bad e u → bad' e u) : r.Ends ok' bad' := by
  cases r with
  | done a u => exact hok a u h
  | raised e u => exact hbad e u h
  | refused _ => exact h.elim

theorem checkIlen_ends (s : State) :
    (checkIlen s).Ends (fun _ u => u = s ∧ s.ilen.toNat ≤ s.cfg.pIbytes) (fun e u => e = .capacityError ∧ u = s) := by
  unfold checkIlen
  split
  · exact ⟨rfl, rfl⟩
  · exact ⟨rfl, by omega⟩

theorem checkSilen_ends (s : State) :
    (checkSilen s).Ends (fun _ u => u = s ∧ s.silen.toNat ≤ s.cfg.pSchars) (fun e u => e = .capacityError ∧ u = s) := by
  unfold checkSilen
  split
  · exact ⟨rfl, rfl⟩
  · exact ⟨rfl, by omega⟩

/-- br_read (R102) writes RCUR only. -/
theorem brRead_ends (n : Nat) (s : State) :
    (brRead n s).Ends (fun _ u => u = { s with rcur := BitVec.ofNat 32 (s.rcur.toNat + n) })
      (fun e u => e = .boundsError ∧ u = s) := by
  unfold brRead
  dsimp only
  split
  · exact ⟨rfl, rfl⟩
  · rfl

/-- br_seekback (R104) writes RCUR only. -/
theorem brSeekback_ends (s : State) :
    (brSeekback s).Ends (fun _ u => u = { s with rcur := BitVec.ofNat 32 (s.rcur.toNat - 1) })
      (fun e u => e = .boundsError ∧ u = s) := by
  unfold brSeekback
  split
  · exact ⟨rfl, rfl⟩
  · rfl

/-- bw_write (R122), for n ≤ 7, writes WBUF and WCUR only. -/
theorem bwWrite_ends {n : Nat} (v : Byte) (s : State) (hn : n ≤ 7) :
    (bwWrite n v s).Ends (fun _ u => u = { s with wbuf := u.wbuf, wcur := BitVec.ofNat 32 (s.wcur.toNat + n) })
      (fun e u => e = .capacityError ∧ u = s) := by
  by_cases hfit : s.wcur.toNat + n ≤ 8 * s.cfg.pObytes
  · obtain ⟨b, hrun, -⟩ := bwWrite_of_le v hn hfit
    rw [hrun]
    rfl
  · rw [bwWrite_of_gt v (Nat.lt_of_not_le hfit)]
    exact ⟨rfl, rfl⟩

/-- b62_encode (R150) over any reader. -/
theorem b62Encode_ends (s : State) :
    (b62Encode s).Ends (fun _ u => u = { s with rcur := u.rcur, sout := u.sout, solen := u.solen })
      (fun e u => (e = .boundsError ∨ e = .capacityError) ∧ u = { s with rcur := u.rcur, sout := u.sout }) := by
  unfold b62Encode
  rcases encodeLoop_frame (8 * s.rlen.toNat + 1) 0 s with ⟨n, t, hrun, ht⟩ | ⟨e, t, hrun, he, ht⟩
  · rw [hrun, ht]
    rfl
  · rw [hrun]
    exact ⟨he, ht⟩

/-- `j` is the position of the first invalid character among the first SILEN of SIN (R34, R156). -/
def FirstInvalid (s : State) (j : Nat) : Prop :=
  j < s.silen.toNat ∧ dtab (s.sinChar j) = none ∧ ∀ m, m < j → dtab (s.sinChar m) ≠ none

/-- How DECODE can fail (R156): CapacityError with WBUF and WCUR as they then are, or InvalidSymbol at the first invalid
character, with OLEN = 0 and the position in ERRIDX besides. -/
def DecodeFails (s : State) (e : ErrKind) (u : State) : Prop :=
  (e = .capacityError ∧ u = { s with wbuf := u.wbuf, wcur := u.wcur }) ∨
  (e = .invalidSymbol ∧ ∃ j, FirstInvalid s j ∧
    u = { s with wbuf := u.wbuf, wcur := u.wcur, olen := 0, erridx := BitVec.ofNat 32 j })

/-- b62_decode (R156) of the SILEN characters of SIN. -/
theorem b62Decode_ends (s : State) :
    (b62Decode s.silen.toNat s).Ends
      (fun _ u => u = { s with wbuf := u.wbuf, wcur := u.wcur, obuf := u.obuf, olen := u.olen }) (DecodeFails s) := by
  unfold b62Decode
  rcases decodeLoop_frame (memRead s.sinChar s.silen.toNat) 0 (bwInit (6 * s.silen.toNat) s) with
    ⟨t, hrun, ht⟩ | ⟨t, hrun, ht⟩ | ⟨t, j, hrun, -, hj, ht, hinvalid, hvalid⟩
  · rw [hrun, ht]
    rfl
  · rw [hrun]
    exact .inl ⟨rfl, ht⟩
  · rw [hrun]
    rw [Nat.zero_add, memRead_length] at hj
    rw [Nat.sub_zero] at hinvalid hvalid
    rw [memRead_getD _ _ _ _ hj] at hinvalid
    refine .inr ⟨rfl, j, ⟨hj, hinvalid, fun m hm => ?_⟩, ht⟩
    have := hvalid m hm
    rwa [memRead_getD _ _ _ _ (by omega)] at this

/-- DECODE's pseudocode with its test of SILEN (R27, R156). -/
theorem decodeSin_ends (s : State) :
    ((checkSilen s).bind fun _ s => b62Decode s.silen.toNat s).Ends
      (fun _ u => u = { s with wbuf := u.wbuf, wcur := u.wcur, obuf := u.obuf, olen := u.olen }) (DecodeFails s) := by
  refine (checkSilen_ends s).bind ?_ ?_
  · rintro _ _ ⟨rfl, -⟩
    exact b62Decode_ends _
  · rintro _ _ ⟨rfl, rfl⟩
    exact .inl ⟨rfl, rfl⟩

/-! ### Commands -/

/-- A command ends in a next state: with FAULT set it only reports BoundsError; else it completes as `ok` says or reports as
`bad` says. -/
def CommandEnds (s : State) (ok : State → Prop) (bad : ErrKind → State → Prop) (a : Answer) : Prop :=
  (s.status.fault = true ∧ a = .next (s.report .boundsError)) ∨
  (s.status.fault = false ∧ ((∃ u, a = .next u.complete ∧ ok u) ∨ ∃ e u, a = .next (u.report e) ∧ bad e u))

/-- R81, R203: the FAULT test comes first, then the pseudocode decides how the command ends. -/
theorem command_ends {body : State → Result Unit} {s : State} {ok : State → Prop} {bad : ErrKind → State → Prop}
    (h : (body s).Ends (fun _ u => ok u) bad) : CommandEnds s ok bad (command body s) := by
  cases hf : s.status.fault with
  | true => exact .inl ⟨hf, command_of_fault body hf⟩
  | false =>
    refine .inr ⟨hf, ?_⟩
    rw [command_of_not_fault body hf]
    cases hb : body s with
    | done a u => rw [hb] at h; exact .inl ⟨u, rfl, h⟩
    | raised e u => rw [hb] at h; exact .inr ⟨e, u, rfl, h⟩
    | refused r => rw [hb] at h; exact h.elim

theorem CommandEnds.exists_next {s : State} {ok : State → Prop} {bad : ErrKind → State → Prop} {a : Answer}
    (h : CommandEnds s ok bad a) : ∃ t, a = .next t := by
  rcases h with ⟨-, h⟩ | ⟨-, ⟨u, h, -⟩ | ⟨e, u, h, -⟩⟩ <;> exact ⟨_, h⟩

/-- What holds of each way a command can end holds of its next state. -/
theorem CommandEnds.elim {s t : State} {ok : State → Prop} {bad : ErrKind → State → Prop} {a : Answer}
    (h : CommandEnds s ok bad a) (ha : a = .next t) {P : State → Prop} (hfault : P (s.report .boundsError))
    (hok : ∀ u, ok u → P u.complete) (hbad : ∀ e u, bad e u → P (u.report e)) : P t := by
  rcases h with ⟨-, h⟩ | ⟨-, ⟨u, h, hu⟩ | ⟨e, u, h, hu⟩⟩
  · cases ha.symm.trans h; exact hfault
  · cases ha.symm.trans h; exact hok u hu
  · cases ha.symm.trans h; exact hbad e u hu

/-- R100. -/
theorem execRdInit_ends (s : State) :
    CommandEnds s (fun u => u = brInit (memRead s.ibufByte s.ilen.toNat) s) (fun e u => e = .capacityError ∧ u = s)
      (execRdInit s) := by
  unfold execRdInit
  refine command_ends ((checkIlen_ends s).bind ?_ fun _ _ h => h)
  rintro _ _ ⟨rfl, -⟩
  rfl

/-- R101. -/
theorem execRdHasmore_ends (s : State) :
    CommandEnds s (fun u => u = s.setResult (if brHasmore s then 1 else 0)) (fun _ _ => False) (execRdHasmore s) := by
  unfold execRdHasmore
  exact command_ends rfl

/-- R102; IllegalCommand is for the terms without a word (log 12). -/
theorem execRdRead_ends (n : BitVec 3) (s : State) :
    CommandEnds s
      (fun u => ∃ v : Symbol, u = { s with rcur := BitVec.ofNat 32 (s.rcur.toNat + n.toNat), result := v.setWidth 32 })
      (fun e u => (e = .boundsError ∨ e = .illegalCommand) ∧ u = s) (execRdRead n s) := by
  unfold execRdRead
  refine command_ends ?_
  split
  · refine (brRead_ends (countOperand n) s).bind ?_ ?_
    · rintro v _ rfl
      exact ⟨v, rfl⟩
    · rintro _ _ ⟨rfl, rfl⟩
      exact ⟨.inl rfl, rfl⟩
  · exact ⟨.inr rfl, rfl⟩

/-- R104. -/
theorem execRdSeekback_ends (s : State) :
    CommandEnds s (fun u => u = { s with rcur := BitVec.ofNat 32 (s.rcur.toNat - 1) })
      (fun e u => e = .boundsError ∧ u = s) (execRdSeekback s) := by
  unfold execRdSeekback
  exact command_ends (brSeekback_ends s)

/-- R120. -/
theorem execWrInit_ends (s : State) :
    CommandEnds s (fun u => u = bwInit s.wcap.toNat s) (fun _ _ => False) (execWrInit s) := by
  unfold execWrInit
  exact command_ends rfl

/-- R121; IllegalCommand is for the terms without a word (log 12). -/
theorem execWrWrite_ends (n : BitVec 3) (value : Byte) (s : State) :
    CommandEnds s (fun u => u = { s with wbuf := u.wbuf, wcur := BitVec.ofNat 32 (s.wcur.toNat + n.toNat) })
      (fun e u => (e = .capacityError ∨ e = .illegalCommand) ∧ u = s) (execWrWrite n value s) := by
  unfold execWrWrite
  refine command_ends ?_
  split
  · refine (bwWrite_ends value s (show countOperand n ≤ 7 from Nat.le_of_lt_succ n.isLt)).mono (fun _ _ h => h) ?_
    rintro _ _ ⟨rfl, rfl⟩
    exact ⟨.inl rfl, rfl⟩
  · exact ⟨.inr rfl, rfl⟩

/-- R123. -/
theorem execWrBtb_ends (s : State) :
    CommandEnds s (fun u => u = s.setResult (BitVec.ofNat 32 (bwBtb s))) (fun _ _ => False) (execWrBtb s) := by
  unfold execWrBtb
  exact command_ends rfl

/-- R124. -/
theorem execWrTobytes_ends (s : State) :
    CommandEnds s (fun u => u = s.emitBytes (bwTobytes s)) (fun _ _ => False) (execWrTobytes s) := by
  unfold execWrTobytes
  exact command_ends rfl

/-- R145. -/
theorem execSymEnc_ends (v : Byte) (s : State) :
    CommandEnds s (fun u => ∃ c, alpha v = some c ∧ u = s.setResult (c.setWidth 32))
      (fun e u => alpha v = none ∧ e = .invalidSymbol ∧ u = s) (execSymEnc v s) := by
  unfold execSymEnc
  refine command_ends ?_
  cases alpha v with
  | none => exact ⟨rfl, rfl, rfl⟩
  | some c => exact ⟨c, rfl, rfl⟩

/-- R146. -/
theorem execSymDec_ends (c : Byte) (s : State) :
    CommandEnds s (fun u => ∃ v, dtab c = some v ∧ u = s.setResult (v.setWidth 32))
      (fun e u => dtab c = none ∧ e = .invalidSymbol ∧ u = s) (execSymDec c s) := by
  unfold execSymDec
  refine command_ends ?_
  cases dtab c with
  | none => exact ⟨rfl, rfl, rfl⟩
  | some v => exact ⟨v, rfl, rfl⟩

/-- R150, in any state. -/
theorem execEncode_ends (s : State) :
    CommandEnds s
      (fun u => u = { s with rbuf := u.rbuf, rlen := u.rlen, rcur := u.rcur, sout := u.sout, solen := u.solen })
      (fun e u => (e = .boundsError ∨ e = .capacityError) ∧
        u = { s with rbuf := u.rbuf, rlen := u.rlen, rcur := u.rcur, sout := u.sout }) (execEncode s) := by
  unfold execEncode
  refine command_ends ((checkIlen_ends s).bind ?_ ?_)
  · rintro _ _ ⟨rfl, -⟩
    exact (b62Encode_ends _).mono (fun _ u h => by rw [h]; rfl) fun _ u h => ⟨h.1, by rw [h.2]; rfl⟩
  · rintro _ _ ⟨rfl, rfl⟩
    exact ⟨.inr rfl, rfl⟩

/-- R156, in any state. -/
theorem execDecode_ends (s : State) :
    CommandEnds s (fun u => u = { s with wbuf := u.wbuf, wcur := u.wcur, obuf := u.obuf, olen := u.olen })
      (DecodeFails s) (execDecode s) := by
  unfold execDecode
  exact command_ends (decodeSin_ends s)

/-- R171. -/
theorem execIdTobytes_ends (s : State) :
    CommandEnds s (fun u => u = s.emitBytes (idTobytes s.idHi s.idLo)) (fun _ _ => False) (execIdTobytes s) := by
  unfold execIdTobytes
  exact command_ends rfl

/-- R172. -/
theorem execIdFrombytes_ends (s : State) :
    CommandEnds s (fun u => u = s.setId (memRead s.ibufByte 16))
      (fun e u => (e = .capacityError ∨ e = .lengthError) ∧ u = s) (execIdFrombytes s) := by
  unfold execIdFrombytes
  refine command_ends ((checkIlen_ends s).bind ?_ ?_)
  · rintro _ _ ⟨rfl, -⟩
    split
    · exact ⟨.inr rfl, rfl⟩
    · rfl
  · rintro _ _ ⟨rfl, rfl⟩
    exact ⟨.inl rfl, rfl⟩

/-- R173, in any state. -/
theorem execIdTobase62_ends (s : State) :
    CommandEnds s
      (fun u => u = { s with rbuf := u.rbuf, rlen := u.rlen, rcur := u.rcur, sout := u.sout, solen := u.solen })
      (fun e u => (e = .boundsError ∨ e = .capacityError) ∧
        u = { s with rbuf := u.rbuf, rlen := u.rlen, rcur := u.rcur, sout := u.sout }) (execIdTobase62 s) := by
  unfold execIdTobase62
  exact command_ends ((b62Encode_ends _).mono (fun _ u h => by rw [h]; rfl) fun _ u h => ⟨h.1, by rw [h.2]; rfl⟩)

/-- R174, in any state: DECODE's failures, then LengthError over what DECODE has written. -/
theorem execIdFrombase62_ends (s : State) :
    CommandEnds s
      (fun u => u = { s with wbuf := u.wbuf, wcur := u.wcur, obuf := u.obuf, olen := u.olen, idHi := u.idHi, idLo := u.idLo })
      (fun e u => DecodeFails s e u ∨
        (e = .lengthError ∧ u = { s with wbuf := u.wbuf, wcur := u.wcur, obuf := u.obuf, olen := u.olen }))
      (execIdFrombase62 s) := by
  unfold execIdFrombase62
  refine command_ends ?_
  rw [← Result.bind_assoc]
  refine (decodeSin_ends s).bind (fun _ u hu => ?_) fun _ _ h => .inl h
  split
  · exact .inr ⟨rfl, hu⟩
  · show u.setId _ = _
    rw [hu]
    rfl

/-- R203: every command ends in a next state; no ALPHA index is without an entry (R152). -/
theorem exec_exists_next (i : Instr) (s : State) : ∃ t, exec i s = .next t := by
  cases i with
  | rdInit => exact (execRdInit_ends s).exists_next
  | rdHasmore => exact (execRdHasmore_ends s).exists_next
  | rdRead n => exact (execRdRead_ends n s).exists_next
  | rdSeekback => exact (execRdSeekback_ends s).exists_next
  | wrInit => exact (execWrInit_ends s).exists_next
  | wrWrite n value => exact (execWrWrite_ends n value s).exists_next
  | wrBtb => exact (execWrBtb_ends s).exists_next
  | wrTobytes => exact (execWrTobytes_ends s).exists_next
  | symEnc v => exact (execSymEnc_ends v s).exists_next
  | symDec c => exact (execSymDec_ends c s).exists_next
  | encode => exact (execEncode_ends s).exists_next
  | decode => exact (execDecode_ends s).exists_next
  | idTobytes => exact (execIdTobytes_ends s).exists_next
  | idFrombytes => exact (execIdFrombytes_ends s).exists_next
  | idTobase62 => exact (execIdTobase62_ends s).exists_next
  | idFrombase62 => exact (execIdFrombase62_ends s).exists_next

/-- Settles O20: the table's list is evaluated, the entries above it are `alpha_eq_none_iff`, and a command that ends in a
next state is not refused. -/
theorem alphabetTableEntries : Obligations.AlphabetTableEntries := by
  unfold Obligations.AlphabetTableEntries
  refine ⟨by decide, fun v hv => alpha_eq_none_iff.2 hv, fun i s h => ?_⟩
  obtain ⟨t, ht⟩ := exec_exists_next i s
  cases h.symm.trans ht

end Sys2Proof.Machine
end

section
/-! PROOFS. Which commands and steps write RESULT (10_state.md R25) and ERRIDX (R34). -/

namespace Sys2Proof.Machine

/-- R25 for one command: a failure keeps RESULT, and a success leaves `Q`. -/
theorem CommandEnds.result_rule {s t : State} {ok : State → Prop} {bad : ErrKind → State → Prop} {a : Answer}
    (h : CommandEnds s ok bad a) (ha : a = .next t) (Q : Word → Prop) (hok : ∀ u, ok u → Q u.result)
    (hbad : ∀ e u, bad e u → u.result = s.result) :
    (t.status.err ≠ none → t.result = s.result) ∧ (t.status.err = none → Q t.result) := by
  refine h.elim ha (P := fun t => (t.status.err ≠ none → t.result = s.result) ∧ (t.status.err = none → Q t.result))
    ⟨fun _ => rfl, fun hnone => ?_⟩ (fun u hu => ⟨fun herr => absurd rfl herr, fun _ => hok u hu⟩)
    fun e u hu => ⟨fun _ => hbad e u hu, fun hnone => ?_⟩
  · cases hnone
  · cases hnone

theorem DecodeFails.result_eq {s u : State} {e : ErrKind} (h : DecodeFails s e u) : u.result = s.result := by
  obtain ⟨-, hu⟩ | ⟨-, j, -, hu⟩ := h <;> rw [hu]

/-- Settles O49, command by command: what its outcomes leave in RESULT. -/
theorem resultWrittenOnlyByScalarCommands : Obligations.ResultWrittenOnlyByScalarCommands := by
  unfold Obligations.ResultWrittenOnlyByScalarCommands
  refine ⟨fun i s t h => ?_, rfl⟩
  cases i with
  | rdInit =>
    exact (execRdInit_ends s).result_rule h (· = s.result) (fun u hu => by rw [hu]; rfl) fun e u hu => by rw [hu.2]
  | rdHasmore =>
    refine (execRdHasmore_ends s).result_rule h (·.toNat ≤ 1) (fun u hu => ?_) fun e u hu => hu.elim
    rw [hu, State.setResult_result]
    split <;> decide
  | rdRead n =>
    refine (execRdRead_ends n s).result_rule h (·.toNat ≤ 63) ?_ fun e u hu => by rw [hu.2]
    rintro u ⟨v, rfl⟩
    show (v.setWidth 32).toNat ≤ 63
    rw [BitVec.toNat_setWidth_of_le (by decide)]
    exact Nat.le_of_lt_succ v.isLt
  | rdSeekback =>
    exact (execRdSeekback_ends s).result_rule h (· = s.result) (fun u hu => by rw [hu]) fun e u hu => by rw [hu.2]
  | wrInit =>
    exact (execWrInit_ends s).result_rule h (· = s.result) (fun u hu => by rw [hu]; rfl) fun e u hu => hu.elim
  | wrWrite n value =>
    exact (execWrWrite_ends n value s).result_rule h (· = s.result) (fun u hu => by rw [hu]) fun e u hu => by rw [hu.2]
  | wrBtb =>
    refine (execWrBtb_ends s).result_rule h (·.toNat ≤ 7) (fun u hu => ?_) fun e u hu => hu.elim
    have := (bwBtb_completes s).1
    rw [hu, State.setResult_result, BitVec.toNat_ofNat]
    omega
  | wrTobytes =>
    exact (execWrTobytes_ends s).result_rule h (· = s.result) (fun u hu => by rw [hu]; rfl) fun e u hu => hu.elim
  | symEnc v =>
    refine (execSymEnc_ends v s).result_rule h (·.toNat ≤ 255) ?_ fun e u hu => by rw [hu.2.2]
    rintro u ⟨c, -, rfl⟩
    rw [State.setResult_result, BitVec.toNat_setWidth_of_le (by decide)]
    exact Nat.le_of_lt_succ c.isLt
  | symDec c =>
    refine (execSymDec_ends c s).result_rule h (·.toNat ≤ 61) ?_ fun e u hu => by rw [hu.2.2]
    rintro u ⟨v, hv, rfl⟩
    rw [State.setResult_result, BitVec.toNat_setWidth_of_le (by decide)]
    exact dtab_le hv
  | encode =>
    exact (execEncode_ends s).result_rule h (· = s.result) (fun u hu => by rw [hu]) fun e u hu => by rw [hu.2]
  | decode =>
    exact (execDecode_ends s).result_rule h (· = s.result) (fun u hu => by rw [hu]) fun e u hu => hu.result_eq
  | idTobytes =>
    exact (execIdTobytes_ends s).result_rule h (· = s.result) (fun u hu => by rw [hu]; rfl) fun e u hu => hu.elim
  | idFrombytes =>
    exact (execIdFrombytes_ends s).result_rule h (· = s.result) (fun u hu => by rw [hu]; rfl) fun e u hu => by rw [hu.2]
  | idTobase62 =>
    exact (execIdTobase62_ends s).result_rule h (· = s.result) (fun u hu => by rw [hu]) fun e u hu => by rw [hu.2]
  | idFrombase62 =>
    refine (execIdFrombase62_ends s).result_rule h (· = s.result) (fun u hu => by rw [hu]) ?_
    rintro e u (hu | ⟨-, hu⟩)
    · exact hu.result_eq
    · rw [hu]

/-! ### ERRIDX -/

theorem CommandEnds.erridx_kept {s t : State} {ok : State → Prop} {bad : ErrKind → State → Prop} {a : Answer}
    (h : CommandEnds s ok bad a) (ha : a = .next t) (hok : ∀ u, ok u → u.erridx = s.erridx)
    (hbad : ∀ e u, bad e u → u.erridx = s.erridx) : t.erridx = s.erridx :=
  h.elim ha (P := fun t => t.erridx = s.erridx) rfl hok hbad

/-- R34: the commands that do not decode characters keep ERRIDX, whatever their outcome. -/
theorem exec_erridx_kept {i : Instr} {s t : State} (hi : ¬ (i = .decode ∨ i = .idFrombase62)) (h : exec i s = .next t) :
    t.erridx = s.erridx := by
  cases i with
  | rdInit => exact (execRdInit_ends s).erridx_kept h (fun u hu => by rw [hu]; rfl) fun e u hu => by rw [hu.2]
  | rdHasmore => exact (execRdHasmore_ends s).erridx_kept h (fun u hu => by rw [hu]; rfl) fun e u hu => hu.elim
  | rdRead n =>
    exact (execRdRead_ends n s).erridx_kept h (fun u ⟨v, hu⟩ => by rw [hu]) fun e u hu => by rw [hu.2]
  | rdSeekback => exact (execRdSeekback_ends s).erridx_kept h (fun u hu => by rw [hu]) fun e u hu => by rw [hu.2]
  | wrInit => exact (execWrInit_ends s).erridx_kept h (fun u hu => by rw [hu]; rfl) fun e u hu => hu.elim
  | wrWrite n value =>
    exact (execWrWrite_ends n value s).erridx_kept h (fun u hu => by rw [hu]) fun e u hu => by rw [hu.2]
  | wrBtb => exact (execWrBtb_ends s).erridx_kept h (fun u hu => by rw [hu]; rfl) fun e u hu => hu.elim
  | wrTobytes => exact (execWrTobytes_ends s).erridx_kept h (fun u hu => by rw [hu]; rfl) fun e u hu => hu.elim
  | symEnc v =>
    exact (execSymEnc_ends v s).erridx_kept h (fun u ⟨c, _, hu⟩ => by rw [hu]; rfl) fun e u hu => by rw [hu.2.2]
  | symDec c =>
    exact (execSymDec_ends c s).erridx_kept h (fun u ⟨v, _, hu⟩ => by rw [hu]; rfl) fun e u hu => by rw [hu.2.2]
  | encode => exact (execEncode_ends s).erridx_kept h (fun u hu => by rw [hu]) fun e u hu => by rw [hu.2]
  | decode => exact absurd (.inl rfl) hi
  | idTobytes => exact (execIdTobytes_ends s).erridx_kept h (fun u hu => by rw [hu]; rfl) fun e u hu => hu.elim
  | idFrombytes =>
    exact (execIdFrombytes_ends s).erridx_kept h (fun u hu => by rw [hu]; rfl) fun e u hu => by rw [hu.2]
  | idTobase62 => exact (execIdTobase62_ends s).erridx_kept h (fun u hu => by rw [hu]) fun e u hu => by rw [hu.2]
  | idFrombase62 => exact absurd (.inr rfl) hi

/-- What R34 says of ERRIDX after DECODE or ID_FROMBASE62: the first invalid position on InvalidSymbol, else as before. -/
def ErridxAfterDecode (s t : State) : Prop :=
  (t.status.err = some .invalidSymbol → FirstInvalid s t.erridx.toNat) ∧
  (t.status.err ≠ some .invalidSymbol → t.erridx = s.erridx)

theorem erridxAfterDecode_of_kept {s t : State} (herr : t.status.err ≠ some .invalidSymbol)
    (hkept : t.erridx = s.erridx) : ErridxAfterDecode s t :=
  ⟨fun h => absurd h herr, fun _ => hkept⟩

theorem DecodeFails.erridxAfterDecode {s u : State} {e : ErrKind} (h : DecodeFails s e u) :
    ErridxAfterDecode s (u.report e) := by
  obtain ⟨rfl, hu⟩ | ⟨rfl, j, hj, hu⟩ := h
  · exact erridxAfterDecode_of_kept (by simp) (by rw [hu]; rfl)
  · have hidx : (u.report .invalidSymbol).erridx.toNat = j := by
      rw [State.report_erridx, hu, BitVec.toNat_ofNat]
      exact Nat.mod_eq_of_lt (hj.1.trans s.silen.isLt)
    exact ⟨fun _ => hidx ▸ hj, fun h => absurd rfl h⟩

/-- R34, for the two commands that decode characters. -/
theorem exec_erridxAfterDecode {i : Instr} {s t : State} (hi : i = .decode ∨ i = .idFrombase62)
    (h : exec i s = .next t) : ErridxAfterDecode s t := by
  have hfault : ErridxAfterDecode s (s.report .boundsError) := erridxAfterDecode_of_kept (by simp) rfl
  obtain rfl | rfl := hi
  · exact (execDecode_ends s).elim h hfault
      (fun u hu => erridxAfterDecode_of_kept (by simp) (by rw [hu]; rfl)) fun e u hu => hu.erridxAfterDecode
  · refine (execIdFrombase62_ends s).elim h hfault
      (fun u hu => erridxAfterDecode_of_kept (by simp) (by rw [hu]; rfl)) ?_
    rintro e u (hu | ⟨rfl, hu⟩)
    · exact hu.erridxAfterDecode
    · exact erridxAfterDecode_of_kept (by simp) (by rw [hu]; rfl)

/-- R34, R230: of the inputs, only a CMD write and a release of reset can change ERRIDX. -/
theorem perform_erridx {b : BusEvent} {s t : State} (h : perform b s = .next t) (hne : t.erridx ≠ s.erridx) :
    b = .releaseReset ∨ ∃ w, b = .store s.cfg.pBase 4 w := by
  cases b with
  | assertReset => cases h; exact absurd rfl hne
  | releaseReset => exact .inl rfl
  | load addr size =>
    rw [perform] at h
    obtain ⟨off, -, -, -, ht⟩ := access_cases h
    cases ht
    exact absurd rfl hne
  | store addr size v =>
    rw [perform] at h
    obtain ⟨off, haddr, -, -, ht⟩ := access_cases h
    by_cases hcmd : off = 0 ∧ size = 4
    · obtain ⟨rfl, rfl⟩ := hcmd
      exact .inr ⟨v, by rw [haddr, Nat.add_zero]⟩
    · obtain ⟨u, hu, hframe, -⟩ := poke_cases (s := s) (v := v) hcmd
      cases hu.symm.trans ht
      exact absurd (by rw [hframe]) hne

/-- Settles O50: the two decoding commands, the other commands, and the inputs of a step. -/
theorem erridxWrittenOnlyOnInvalidSymbol : Obligations.ErridxWrittenOnlyOnInvalidSymbol := by
  unfold Obligations.ErridxWrittenOnlyOnInvalidSymbol
  refine ⟨fun i s t h => ⟨fun ⟨herr, hi⟩ => (exec_erridxAfterDecode hi h).1 herr, fun hno => ?_⟩, fun s t h hne => ?_, rfl⟩
  · by_cases hi : i = .decode ∨ i = .idFrombase62
    · exact (exec_erridxAfterDecode hi h).2 fun herr => hno ⟨herr, hi⟩
    · exact exec_erridx_kept hi h
  · obtain ⟨-, hwait⟩ | ⟨b, rest, hin, hstep⟩ := step_cases s
    · cases hwait.symm.trans h
      exact absurd rfl hne
    · rw [hin, List.head?_cons]
      obtain rfl | ⟨w, rfl⟩ := perform_erridx (hstep.symm.trans h) hne
      · exact .inl rfl
      · exact .inr ⟨w, rfl⟩

end Sys2Proof.Machine
end

section
/-! PROOFS. The host registers: where an access in the register region goes, and what it does (10_state.md R22, R43). -/

namespace Sys2Proof.Machine

/-! ### Where an access goes -/

/-- R22's offset of a register. -/
def HostReg.offset : HostReg → Nat
  | .cmd => 0x000
  | .status => 0x004
  | .result => 0x008
  | .ilen => 0x00C
  | .silen => 0x010
  | .wcap => 0x014
  | .olen => 0x018
  | .solen => 0x01C
  | .rcur => 0x020
  | .rlen => 0x024
  | .wcur => 0x028
  | .erridx => 0x02C
  | .idHiU => 0x030
  | .idHiL => 0x034
  | .idLoU => 0x038
  | .idLoL => 0x03C

/-- R22's map, in the order of the offsets. -/
def HostReg.all : List HostReg :=
  [.cmd, .status, .result, .ilen, .silen, .wcap, .olen, .solen, .rcur, .rlen, .wcur, .erridx, .idHiU, .idHiL, .idLoU, .idLoL]

/-- The registers that commands write and the host only reads, STATUS among them. -/
def HostReg.readOnly : List HostReg := [.status, .result, .olen, .solen, .rcur, .rlen, .wcur, .erridx]

/-- The four words of the identifier. -/
def HostReg.idWords : List HostReg := [.idHiU, .idHiL, .idLoU, .idLoL]

/-- R22's map, read both ways. -/
theorem HostReg.atOffset_eq_some_iff {off : Nat} {r : HostReg} : HostReg.atOffset off = some r ↔ r.offset = off := by
  constructor
  · intro h
    unfold HostReg.atOffset at h
    split at h <;> cases h <;> rfl
  · rintro rfl
    cases r <;> rfl

theorem HostReg.offset_injective : Function.Injective HostReg.offset := fun _ _ h =>
  Option.some.inj ((atOffset_eq_some_iff.2 h).symm.trans (atOffset_eq_some_iff.2 rfl))

theorem HostReg.offset_lt (r : HostReg) : r.offset < 0x40 := by cases r <;> decide

/-- R22: the offsets above the map are reserved. -/
theorem HostReg.atOffset_eq_none {off : Nat} (h : 0x40 ≤ off) : HostReg.atOffset off = none := by
  cases hr : HostReg.atOffset off with
  | none => rfl
  | some r =>
    have := r.offset_lt
    rw [atOffset_eq_some_iff] at hr
    omega

/-- R65: an aligned 32-bit access at a register's offset touches that register. -/
@[simp] theorem target_offset (c : Config) (r : HostReg) : target c r.offset 4 = .reg r := by cases r <;> rfl

/-- R43, R65: the accesses in the register region that touch nothing. -/
theorem target_eq_nothing {c : Config} {off size : Nat} (hoff : off < 0x10000)
    (h : size ≠ 4 ∨ off % 4 ≠ 0 ∨ 0x40 ≤ off) : target c off size = .nothing := by
  rw [target, if_pos hoff]
  split
  · rw [HostReg.atOffset_eq_none (by omega)]
  · rfl

/-! ### What an access does -/

/-- R69: a load in the window only returns what `peek` gives. -/
theorem step_load {s : State} {off : Nat} (size : Nat) (hr : s.resetLine = false) (hoff : off < 2 ^ 20) :
    step (s.receiving (.load (s.cfg.pBase + off) size)) = .next { s with readData := peek s off size } := by
  rw [step_receiving, perform, access_inside _ hr hoff]

/-- A store in the window is a `poke` at its offset (R66). -/
theorem step_store {s : State} {off : Nat} (size : Nat) (v : Word) (hr : s.resetLine = false) (hoff : off < 2 ^ 20) :
    step (s.receiving (.store (s.cfg.pBase + off) size v)) = poke off size v s := by
  rw [step_receiving, perform, access_inside _ hr hoff]

@[simp] theorem peek_offset (s : State) (r : HostReg) : peek s r.offset 4 = readReg r s := by
  rw [peek, target_offset]

@[simp] theorem poke_offset (s : State) (r : HostReg) (v : Word) : poke r.offset 4 v s = writeReg r v s := by
  rw [poke, target_offset]

theorem peek_of_nothing {s : State} {off size : Nat} (h : target s.cfg off size = .nothing) : peek s off size = 0 := by
  rw [peek, h]

theorem poke_of_nothing {s : State} {off size : Nat} (v : Word) (h : target s.cfg off size = .nothing) :
    poke off size v s = .next s := by
  rw [poke, h]

/-- R43: a load of a register returns it. -/
theorem step_load_register {s : State} (hr : s.resetLine = false) (r : HostReg) :
    step (s.receiving (.load (s.cfg.pBase + r.offset) 4)) = .next { s with readData := readReg r s } := by
  rw [step_load 4 hr (r.offset_lt.trans (by decide)), peek_offset]

/-- R43: a store to a register writes it. -/
theorem step_store_register {s : State} (hr : s.resetLine = false) (r : HostReg) (v : Word) :
    step (s.receiving (.store (s.cfg.pBase + r.offset) 4 v)) = writeReg r v s := by
  rw [step_store 4 v hr (r.offset_lt.trans (by decide)), poke_offset]

/-- R43: a write to a read-only register is ignored. -/
theorem writeReg_readOnly {r : HostReg} (h : r ∈ HostReg.readOnly) (v : Word) (s : State) :
    writeReg r v s = .next s := by
  fin_cases h <;> rfl

/-! ### The identifier words -/

@[simp] theorem setUpper_upper (h : IdHalf) (v : Word) : (setUpper h v).extractLsb' 32 32 = v :=
  BitVec.extractLsb'_append_eq_left

@[simp] theorem setUpper_lower (h : IdHalf) (v : Word) : (setUpper h v).extractLsb' 0 32 = h.extractLsb' 0 32 :=
  BitVec.extractLsb'_append_eq_right

@[simp] theorem setLower_upper (h : IdHalf) (v : Word) : (setLower h v).extractLsb' 32 32 = h.extractLsb' 32 32 :=
  BitVec.extractLsb'_append_eq_left

@[simp] theorem setLower_lower (h : IdHalf) (v : Word) : (setLower h v).extractLsb' 0 32 = v :=
  BitVec.extractLsb'_append_eq_right

/-- R43: a write to an identifier word changes ID_HI or ID_LO only, and of the four words only that one. -/
theorem writeReg_idWord {r : HostReg} (hr : r ∈ HostReg.idWords) (v : Word) (s : State) :
    ∃ t, writeReg r v s = .next t ∧ t = { s with idHi := t.idHi, idLo := t.idLo } ∧
      ∀ q ∈ HostReg.idWords, readReg q t = if q = r then v else readReg q s := by
  fin_cases hr <;> exact ⟨_, rfl, rfl, by simp [HostReg.idWords, readReg]⟩

/-- Settles O57: each clause is the access to one register, to a class of registers, or to nothing. -/
theorem hostRegisterAccessRules : Obligations.HostRegisterAccessRules := by
  unfold Obligations.HostRegisterAccessRules
  refine ⟨fun s hr p hp => ?_, fun s off size v hr hoff => ?_⟩
  · obtain ⟨r, -, rfl⟩ : ∃ r ∈ HostReg.all, (r.offset, readReg r s) = p := List.mem_map.1 hp
    exact ⟨step_load_register hr r, peek_offset s r⟩
  · have hin : off < 2 ^ 20 := by omega
    refine ⟨fun h => ?_, ?_, ?_, ?_, ?_, ?_, ?_, ?_, ?_⟩
    · have hnothing := target_eq_nothing (c := s.cfg) hoff h
      rw [step_store size v hr hin, step_load size hr hin, poke_of_nothing v hnothing, peek_of_nothing hnothing]
      exact ⟨rfl, rfl⟩
    · rintro rfl hro
      obtain ⟨r, hmem, rfl⟩ : ∃ r ∈ HostReg.readOnly, r.offset = off := List.mem_map.1 hro
      rw [step_store_register hr r v, writeReg_readOnly hmem]
    · rintro rfl rfl
      exact step_load_register hr .cmd
    · rintro rfl rfl
      exact step_store_register hr .ilen v
    · rintro rfl rfl
      exact step_store_register hr .silen v
    · rintro rfl rfl
      exact step_store_register hr .wcap v
    · rintro rfl hid
      obtain ⟨r, hmem, rfl⟩ : ∃ r ∈ HostReg.idWords, r.offset = off := List.mem_map.1 hid
      obtain ⟨t, ht, hframe, hwords⟩ := writeReg_idWord hmem v s
      refine ⟨t, (step_store_register hr r v).trans ht, hframe, fun o ho => ?_⟩
      obtain ⟨q, hq, rfl⟩ : ∃ q ∈ HostReg.idWords, q.offset = o := List.mem_map.1 ho
      rw [peek_offset, peek_offset, hwords q hq]
      exact if_congr HostReg.offset_injective.eq_iff.symm rfl rfl
    · intro t ht
      rw [step_load size hr hin] at ht
      cases ht
      rfl
    · intro t hcmd ht
      rw [step_store size v hr hin] at ht
      obtain ⟨u, hu, hframe, -⟩ := poke_cases (s := s) (v := v) (off := off) (size := size) fun h => hcmd ⟨h.2, h.1⟩
      cases hu.symm.trans ht
      rw [hframe]

end Sys2Proof.Machine
end

section
/-! PROOFS. The decoder (30_encoding.md R81, R82, R85): words and their fields, what decodes, and the words that R86 makes
illegal. -/

namespace Sys2Proof.Machine

/-! ### Fields (R82) -/

@[simp] theorem fieldRsv_packWord (opc : BitVec 5) (n : BitVec 3) (imm : Byte) : fieldRsv (packWord opc n imm) = 0 :=
  have ⟨h, _, _, _⟩ := Laws.EncodingFields.fields_packWord opc n imm
  h

@[simp] theorem fieldOpc_packWord (opc : BitVec 5) (n : BitVec 3) (imm : Byte) : fieldOpc (packWord opc n imm) = opc :=
  have ⟨_, h, _, _⟩ := Laws.EncodingFields.fields_packWord opc n imm
  h

@[simp] theorem fieldN_packWord (opc : BitVec 5) (n : BitVec 3) (imm : Byte) : fieldN (packWord opc n imm) = n :=
  have ⟨_, _, h, _⟩ := Laws.EncodingFields.fields_packWord opc n imm
  h

@[simp] theorem fieldImm8_packWord (opc : BitVec 5) (n : BitVec 3) (imm : Byte) :
    fieldImm8 (packWord opc n imm) = imm :=
  have ⟨_, _, _, h⟩ := Laws.EncodingFields.fields_packWord opc n imm
  h

/-- R82: a word with its reserved bits clear is its other three fields, packed: each bit below 16 lies in one of them. -/
theorem packWord_fields {w : Word} (h : fieldRsv w = 0) : packWord (fieldOpc w) (fieldN w) (fieldImm8 w) = w := by
  refine BitVec.eq_of_getLsbD_eq fun j hj => ?_
  have hclear : 16 ≤ j → w.getLsbD j = false := fun h16 => by
    have hbit : (fieldRsv w).getLsbD (j - 16) = false := by rw [h]; exact BitVec.getLsbD_zero
    rw [fieldRsv, BitVec.getLsbD_extractLsb', Nat.add_sub_of_le h16] at hbit
    simpa [show j - 16 < 16 by omega] using hbit
  simp only [packWord, fieldOpc, fieldN, fieldImm8, BitVec.getLsbD_or, BitVec.getLsbD_shiftLeft, BitVec.getLsbD_setWidth,
    BitVec.getLsbD_extractLsb']
  grind

/-! ### Rows (R81, R85) -/

/-- R81: a row's command is decoded exactly when both operand tests pass. -/
theorem checked_eq_ok_iff {nLegal immLegal : Bool} {i j : Instr} :
    checked nLegal immLegal i = .ok j ↔ nLegal = true ∧ immLegal = true ∧ i = j := by
  cases nLegal <;> cases immLegal <;> simp [checked]

/-- R85: what a row gives is a command with a legal count, and its word has the fields that selected it. -/
theorem encode_of_decodeRow {opc : BitVec 5} {n : BitVec 3} {imm : Byte} {i : Instr}
    (h : decodeRow opc n imm = .ok i) : i.wf = true ∧ encode i = packWord opc n imm := by
  unfold decodeRow at h
  split at h
  case h_17 => cases h
  all_goals
    obtain ⟨hn, himm, rfl⟩ := checked_eq_ok_iff.1 h
    simp_all [Instr.wf, encode, legalReadCount, legalWriteCount]

/-- R85, R86: a word that decodes is the word of a command that has one. -/
theorem encode_of_decode {w : Word} {i : Instr} (h : decode w = .ok i) : i.wf = true ∧ encode i = w := by
  unfold decode at h
  split at h
  · cases h
  · next hrsv =>
    rw [← packWord_fields (not_not.1 hrsv)]
    exact encode_of_decodeRow h

/-- R86: a word of no command does not decode. -/
theorem decode_error_of_no_encoding {w : Word} (h : ∀ i : Instr, i.wf = true → encode i ≠ w) :
    ∃ e, decode w = .error e := by
  cases hd : decode w with
  | error e => exact ⟨e, rfl⟩
  | ok i =>
    obtain ⟨hwf, hword⟩ := encode_of_decode hd
    exact absurd hword (h i hwf)

/-! ### Illegal words (R86) -/

/-- R86, R204: with FAULT clear, an illegal word only sets STATUS.ERR. -/
theorem writeCmd_of_decode_error {s : State} {w : Word} {e : DecodeError} (hd : decode w = .error e)
    (hf : s.status.fault = false) :
    writeCmd w s = .next { s with status := { err := some .illegalCommand, fault := false } } := by
  simp only [writeCmd, hd]
  rw [illegalCommand, command_of_not_fault _ hf, Result.finish_raised, State.report, hf]
  rfl

/-- Settles O4: a word of no command does not decode, so its CMD write is an illegal command; and the fields of every
command's word meet none of R86's cases. -/
theorem illegalWordsReportIllegalCommand : Obligations.IllegalWordsReportIllegalCommand := by
  unfold Obligations.IllegalWordsReportIllegalCommand
  refine ⟨fun s w hr hf hw => ?_, ?_⟩
  · obtain ⟨e, hd⟩ := decode_error_of_no_encoding hw
    rw [step_receiving, perform_cmd w hr, writeCmd_of_decode_error hd hf]
  · rintro _ hfields i hwf rfl
    cases i with
    | rdRead n =>
      have hillegal : n = 0 ∨ n = 7 := by simpa [encode] using hfields
      have hlegal : 1 ≤ n.toNat ∧ n.toNat ≤ 6 := by simpa [Instr.wf] using hwf
      bv_omega
    | wrWrite n value =>
      have hillegal : n = 7 := by simpa [encode] using hfields
      have hlegal : n.toNat ≤ 6 := by simpa [Instr.wf] using hwf
      bv_omega
    | symEnc v | symDec c => simp [encode] at hfields
    | rdInit | rdHasmore | rdSeekback | wrInit | wrBtb | wrTobytes | encode | decode | idTobytes | idFrombytes | idTobase62
    | idFrombase62 =>
      simp [encode] at hfields

end Sys2Proof.Machine
end

section
/-! PROOFS. Frames: a write adds the parts it writes to the list of what changed. -/

namespace Sys2Proof.Machine

theorem KeptExcept.refl (s : State) : KeptExcept [] s s := by
  intro p _
  cases p with
  | outside => exact ⟨rfl, rfl, rfl, rfl, rfl⟩
  | ibuf | obuf | sin | sout | rbuf | wbuf => exact fun _ => rfl
  | _ => rfl

/-- What keeps every part but `changed` keeps the frame, with `changed` added to its list. -/
theorem KeptExcept.write {L : List Part} {s t u : State} (changed : List Part) (h : KeptExcept L s t)
    (hwrite : ∀ p, p ∉ changed → p.Kept s t → p.Kept s u) : KeptExcept (changed ++ L) s u := fun p hp =>
  hwrite p (fun hc => hp (List.mem_append_left L hc)) (h p fun hL => hp (List.mem_append_right changed hL))

theorem KeptExcept.complete {L : List Part} {s t : State} (h : KeptExcept L s t) :
    KeptExcept (.err :: L) s t.complete :=
  h.write [.err] fun p hp hk => by
    cases p with
    | err => exact absurd (List.mem_singleton_self _) hp
    | _ => exact hk

theorem KeptExcept.setResult {L : List Part} {s t : State} (h : KeptExcept L s t) (v : Word) :
    KeptExcept (.result :: L) s (t.setResult v) :=
  h.write [.result] fun p hp hk => by
    cases p with
    | result => exact absurd (List.mem_singleton_self _) hp
    | _ => exact hk

theorem KeptExcept.setRcur {L : List Part} {s t : State} (h : KeptExcept L s t) (c : Word) :
    KeptExcept (.rcur :: L) s { t with rcur := c } :=
  h.write [.rcur] fun p hp hk => by
    cases p with
    | rcur => exact absurd (List.mem_singleton_self _) hp
    | _ => exact hk

theorem KeptExcept.brInit {L : List Part} {s t : State} (h : KeptExcept L s t) (B : List Byte) :
    KeptExcept (.rbuf :: .rlen :: .rcur :: L) s (brInit B t) :=
  h.write [.rbuf, .rlen, .rcur] fun p hp hk => by
    cases p with
    | rbuf | rlen | rcur => exact absurd (by decide) hp
    | _ => exact hk

end Sys2Proof.Machine
end

section
/-! PROOFS. The BitReader commands (41_bitreader.md R100 to R104). -/

namespace Sys2Proof.Machine

/-! ### Operand tests (R84, R86) -/

/-- R81: a packed word is decoded by its fields. -/
@[simp] theorem decode_packWord (opc : BitVec 5) (n : BitVec 3) (imm : Byte) :
    decode (packWord opc n imm) = decodeRow opc n imm := by
  simp [decode]

/-- R81: the test of N comes first. -/
theorem checked_of_illegal_count {nLegal : Bool} (h : nLegal = false) (immLegal : Bool) (i : Instr) :
    checked nLegal immLegal i = .error .badCount := by
  rw [h]
  rfl

/-! ### RD_INIT (R100) -/

theorem exec_rdInit_of_le {s : State} (hf : s.status.fault = false) (h : s.ilen.toNat ≤ s.cfg.pIbytes) :
    exec .rdInit s = .next (brInit (memRead s.ibufByte s.ilen.toNat) s).complete := by
  rw [exec, execRdInit, command_of_not_fault _ hf, checkIlen_of_le h, Result.bind_done, Result.finish_done]

theorem exec_rdInit_of_gt {s : State} (hf : s.status.fault = false) (h : s.cfg.pIbytes < s.ilen.toNat) :
    exec .rdInit s = .next (s.report .capacityError) := by
  rw [exec, execRdInit, command_of_not_fault _ hf, checkIlen_of_lt h, Result.bind_raised, Result.finish_raised]

/-- br_init (R100) leaves a reader over its list, at the first bit. -/
theorem brInit_readerOver {L : List Byte} (s : State) (h : L.length < 2 ^ 32) : ReaderOver L 0 s (brInit L s) := by
  refine ⟨?_, rfl, memRead_writeList _ _ L, fun i hi => ?_⟩
  · rw [brInit_rlen, BitVec.toNat_ofNat, Nat.mod_eq_of_lt h]
  · have hout : ¬ (0 ≤ i ∧ i < 0 + L.length) := by omega
    show (s.rbuf.writeList 0 L).read _ i = _
    rw [Buffer.read_writeList, if_neg hout]
    rfl

/-- 92_eei_decisions.md D8: a host store that is not 32 bits wide is no CMD write, and no other store reaches RBUF. -/
theorem rbufByte_of_perform_store {s t : State} {addr size : Nat} {v : Word} (hsize : size ≠ 4)
    (h : perform (.store addr size v) s = .next t) (i : Nat) : t.rbufByte i = s.rbufByte i := by
  obtain ⟨off, -, -, -, hpoke⟩ := access_cases h
  obtain ⟨u, hu, hframe, -⟩ := poke_cases (s := s) (v := v) (off := off) (size := size) fun hcmd => hsize hcmd.2
  cases hu.symm.trans hpoke
  rw [hframe]
  rfl

/-! ### RD_HASMORE (R101) -/

theorem exec_rdHasmore {s : State} (hf : s.status.fault = false) :
    exec .rdHasmore s = .next (s.setResult (if s.rcur.toNat < 8 * s.rlen.toNat then 1 else 0)).complete := by
  rw [exec, execRdHasmore, command_of_not_fault _ hf, Result.finish_done]
  simp only [brHasmore_iff]

/-- R100: the reader over an empty IBUF has no bits. -/
theorem exec_rdHasmore_of_rlen_zero {s : State} (hf : s.status.fault = false) (h : s.rlen = 0) :
    exec .rdHasmore s = .next (s.setResult 0).complete := by
  rw [exec_rdHasmore hf, h, if_neg (by simp)]

/-- Settles O11: the command's one way to end, read part by part. -/
theorem rdHasmoreTestsTheCursor : Obligations.RdHasmoreTestsTheCursor := by
  unfold Obligations.RdHasmoreTestsTheCursor
  exact ⟨by decide, fun s hf => ⟨_, exec_rdHasmore hf, rfl, rfl, ((KeptExcept.refl s).setResult _).complete⟩⟩

/-- Settles O10: within the capacity the reader stands over IBUF's bytes, RD_HASMORE then sees RLEN = 0 for an empty IBUF,
and a window store is no CMD write; above the capacity the command only reports. -/
theorem rdInitSnapshotsIbuf : Obligations.RdInitSnapshotsIbuf := by
  unfold Obligations.RdInitSnapshotsIbuf
  refine ⟨by decide, fun s hf => ⟨fun hfit => ?_, fun hover => ?_⟩⟩
  · have hlen : (memRead s.ibufByte s.ilen.toNat).length < 2 ^ 32 := by
      rw [memRead_length]
      exact s.ilen.isLt
    refine ⟨_, exec_rdInit_of_le hf hfit, rfl, brInit_readerOver s hlen, ((KeptExcept.refl s).brInit _).complete, ?_, ?_⟩
    · intro hempty
      exact exec_rdHasmore_of_rlen_zero hf (by simp [hempty])
    · intro k v u _ hstore
      rw [step_receiving] at hstore
      exact rbufByte_of_perform_store (by decide) hstore
  · rw [exec_rdInit_of_gt hf hover, report_of_ne hf (by decide)]

/-! ### RD_READ (R102) -/

/-- R102: with a current byte, the next `n` stream bits go to RESULT and the cursor moves past them. -/
theorem exec_rdRead_of_lt {n : BitVec 3} {s : State} (hf : s.status.fault = false) (hn : 1 ≤ n.toNat ∧ n.toNat ≤ 6)
    (h : s.rcur.toNat < 8 * s.rlen.toNat) :
    ∃ v : Symbol, (∀ j, v.getLsbD j = (decide (j < n.toNat) && s.readerBit (s.rcur.toNat + j))) ∧
      exec (.rdRead n) s = .next (({ s with rcur := s.rcur + n.setWidth 32 } : State).setResult (v.setWidth 32)).complete := by
  obtain ⟨v, hread, hbits⟩ := brRead_of_lt hn.2 h
  have hcur : BitVec.ofNat 32 (s.rcur.toNat + n.toNat) = s.rcur + n.setWidth 32 := by bv_omega
  have hlegal : legalReadCount n = true := decide_eq_true hn
  refine ⟨v, hbits, ?_⟩
  rw [exec, execRdRead, command_of_not_fault _ hf, if_pos hlegal, countOperand, hread, hcur, Result.bind_done,
    Result.finish_done]

/-- R102, D9: without a current byte the read is out of bounds. -/
theorem exec_rdRead_of_ge {n : BitVec 3} {s : State} (hf : s.status.fault = false) (hn : 1 ≤ n.toNat ∧ n.toNat ≤ 6)
    (h : 8 * s.rlen.toNat ≤ s.rcur.toNat) : exec (.rdRead n) s = .next (s.report .boundsError) := by
  have hlegal : legalReadCount n = true := decide_eq_true hn
  rw [exec, execRdRead, command_of_not_fault _ hf, if_pos hlegal, brRead_of_ge _ h, Result.bind_raised,
    Result.finish_raised]

/-- R25: widening a symbol to a word keeps its bits. -/
theorem Symbol.getLsbD_setWidth_word (v : Symbol) (j : Nat) : (v.setWidth 32).getLsbD j = v.getLsbD j := by
  rw [BitVec.getLsbD, BitVec.toNat_setWidth_of_le (by decide), BitVec.getLsbD]

/-- R85: the word of RD_READ. -/
theorem encode_rdRead (n : BitVec 3) : encode (.rdRead n) = 0x00001800 + (n.setWidth 32 <<< 8) := by
  revert n
  decide

/-- Settles O12: a legal count reads or is out of bounds, as RCUR lies below the reader's bits or not; the others fail the
test of N. -/
theorem rdReadReturnsTheNextBits : Obligations.RdReadReturnsTheNextBits := by
  unfold Obligations.RdReadReturnsTheNextBits
  refine fun n s hf => ⟨fun hlo hhi => ⟨encode_rdRead n, fun hin => ?_, fun hout => ?_⟩, fun hn => ?_⟩
  · obtain ⟨v, hbits, hrun⟩ := exec_rdRead_of_lt hf ⟨hlo, hhi⟩ hin
    refine ⟨_, hrun, rfl, rfl, fun j => ?_, (((KeptExcept.refl s).setRcur _).setResult _).complete⟩
    rw [← hbits]
    exact Symbol.getLsbD_setWidth_word v j
  · rw [exec_rdRead_of_ge hf ⟨hlo, hhi⟩ hout, report_boundsError]
  · rw [decode_packWord]
    exact checked_of_illegal_count (decide_eq_false (by omega)) _ _

/-! ### RD_SEEKBACK (R104) -/

theorem exec_rdSeekback_of_pos {s : State} (hf : s.status.fault = false) (h : s.rcur ≠ 0) :
    exec .rdSeekback s = .next ({ s with rcur := BitVec.ofNat 32 (s.rcur.toNat - 1) } : State).complete := by
  rw [exec, execRdSeekback, command_of_not_fault _ hf, brSeekback_of_pos h, Result.finish_done]

theorem exec_rdSeekback_of_zero {s : State} (hf : s.status.fault = false) (h : s.rcur = 0) :
    exec .rdSeekback s = .next (s.report .boundsError) := by
  rw [exec, execRdSeekback, command_of_not_fault _ hf, brSeekback_of_zero h, Result.finish_raised]

/-- Settles O13: the cursor is above 0 or not; every count but 1 fails the test of N. -/
theorem rdSeekbackRewindsOneBit : Obligations.RdSeekbackRewindsOneBit := by
  unfold Obligations.RdSeekbackRewindsOneBit
  refine ⟨by decide, fun n hn => ?_, fun s hf => ⟨fun hpos => ?_, fun hzero => ?_⟩⟩
  · rw [decode_packWord]
    exact checked_of_illegal_count (beq_false_of_ne hn) _ _
  · have hne : s.rcur ≠ 0 := by bv_omega
    refine ⟨_, exec_rdSeekback_of_pos hf hne, rfl, ?_, ((KeptExcept.refl s).setRcur _).complete⟩
    rw [State.complete_rcur, BitVec.toNat_ofNat]
    omega
  · rw [exec_rdSeekback_of_zero hf (BitVec.eq_of_toNat_eq hzero), report_boundsError]

end Sys2Proof.Machine
end

section
/-! PROOFS. The BitWriter commands (42_bitwriter.md R120 to R124). -/

namespace Sys2Proof.Machine

/-! ### Frames -/

theorem KeptExcept.setWriter {L : List Part} {s t : State} (h : KeptExcept L s t) (b : Buffer) (c : Word) :
    KeptExcept (.wbuf :: .wcur :: L) s { t with wbuf := b, wcur := c } :=
  h.write [.wbuf, .wcur] fun p hp hk => by
    cases p with
    | wbuf | wcur => exact absurd (by decide) hp
    | _ => exact hk

theorem KeptExcept.emitBytes {L : List Part} {s t : State} (h : KeptExcept L s t) (B : List Byte) :
    KeptExcept (.obuf :: .olen :: L) s (t.emitBytes B) :=
  h.write [.obuf, .olen] fun p hp hk => by
    cases p with
    | obuf | olen => exact absurd (by decide) hp
    | _ => exact hk

/-! ### WR_INIT (R120) -/

theorem exec_wrInit {s : State} (hf : s.status.fault = false) :
    exec .wrInit s = .next (bwInit s.wcap.toNat s).complete := by
  rw [exec, execWrInit, command_of_not_fault _ hf, Result.finish_done]

/-- Settles O15: the command's one way to end, whatever WCAP holds, leaves no byte of WBUF listed. -/
theorem wrInitClearsTheWriter : Obligations.WrInitClearsTheWriter := by
  unfold Obligations.WrInitClearsTheWriter
  refine ⟨by decide, fun s hf => ⟨_, exec_wrInit hf, rfl, rfl, fun i => ?_, ?_⟩⟩
  · exact Buffer.read_nil 0 i
  · exact ((KeptExcept.refl s).setWriter [] 0).complete

/-! ### WR_WRITE (R121, R122) -/

/-- R82: the three fields of a packed word share no bit, so packing them is adding them. -/
theorem packWord_eq_add (opc : BitVec 5) (n : BitVec 3) (imm : Byte) :
    packWord opc n imm = (opc.setWidth 32 <<< 11) + (n.setWidth 32 <<< 8) + imm.setWidth 32 := by
  have hopcN : opc.setWidth 32 <<< 11 &&& n.setWidth 32 <<< 8 = 0#32 := by
    refine BitVec.eq_of_getLsbD_eq fun j hj => ?_
    simp only [BitVec.getLsbD_and, BitVec.getLsbD_shiftLeft, BitVec.getLsbD_setWidth, BitVec.getLsbD_zero]
    grind
  have himm : (opc.setWidth 32 <<< 11 ||| n.setWidth 32 <<< 8) &&& imm.setWidth 32 = 0#32 := by
    refine BitVec.eq_of_getLsbD_eq fun j hj => ?_
    simp only [BitVec.getLsbD_and, BitVec.getLsbD_or, BitVec.getLsbD_shiftLeft, BitVec.getLsbD_setWidth,
      BitVec.getLsbD_zero]
    grind
  rw [BitVec.add_eq_or_of_and_eq_zero _ _ hopcN, BitVec.add_eq_or_of_and_eq_zero _ _ himm, packWord]

/-- R122: within the capacity the value's low `n` bits are ORed in at the cursor, which moves past them. -/
theorem exec_wrWrite_of_le {n : BitVec 3} {s : State} (value : Byte) (hf : s.status.fault = false) (hn : n.toNat ≤ 6)
    (h : s.wcur.toNat + n.toNat ≤ 8 * s.cfg.pObytes) :
    ∃ b : Buffer, (∀ k, ({ s with wbuf := b } : State).writerBit k = (s.writerBit k ||
        (decide (s.wcur.toNat ≤ k ∧ k < s.wcur.toNat + n.toNat) && value.getLsbD (k - s.wcur.toNat)))) ∧
      exec (.wrWrite n value) s =
        .next ({ s with wbuf := b, wcur := s.wcur + n.setWidth 32 } : State).complete := by
  obtain ⟨b, hwrite, hbits, -⟩ := bwWrite_of_le value (Nat.le_succ_of_le hn) h
  have hcur : BitVec.ofNat 32 (s.wcur.toNat + n.toNat) = s.wcur + n.setWidth 32 := by bv_omega
  have hlegal : legalWriteCount n = true := decide_eq_true hn
  refine ⟨b, hbits, ?_⟩
  rw [exec, execWrWrite, command_of_not_fault _ hf, if_pos hlegal, countOperand, hwrite, hcur, Result.finish_done]

/-- R122: bits that do not fit are a CapacityError, with nothing written. -/
theorem exec_wrWrite_of_gt {n : BitVec 3} {s : State} (value : Byte) (hf : s.status.fault = false) (hn : n.toNat ≤ 6)
    (h : 8 * s.cfg.pObytes < s.wcur.toNat + n.toNat) :
    exec (.wrWrite n value) s = .next (s.report .capacityError) := by
  have hlegal : legalWriteCount n = true := decide_eq_true hn
  rw [exec, execWrWrite, command_of_not_fault _ hf, if_pos hlegal, countOperand, bwWrite_of_gt _ h, Result.finish_raised]

/-- Settles O16: a legal count's bits fit in WBUF after WCUR or they do not; the count 7 fails the test of N. -/
theorem wrWriteAppendsTheLowBits : Obligations.WrWriteAppendsTheLowBits := by
  unfold Obligations.WrWriteAppendsTheLowBits
  refine fun n value s hf => ⟨fun hn => ⟨packWord_eq_add _ _ _, fun hfit => ?_, fun hover => ?_⟩, fun hn => ?_⟩
  · obtain ⟨b, hbits, hrun⟩ := exec_wrWrite_of_le value hf hn hfit
    exact ⟨_, hrun, rfl, rfl, hbits, ((KeptExcept.refl s).setWriter b _).complete⟩
  · rw [exec_wrWrite_of_gt value hf hn hover, report_of_ne hf (by decide)]
  · rw [decode_packWord]
    exact checked_of_illegal_count (decide_eq_false (by omega)) _ _

/-! ### WR_BTB (R123) -/

theorem exec_wrBtb {s : State} (hf : s.status.fault = false) :
    exec .wrBtb s = .next (s.setResult (BitVec.ofNat 32 (bwBtb s))).complete := by
  rw [exec, execWrBtb, command_of_not_fault _ hf, Result.finish_done]

/-- Settles O17: fewer than 8 bits are missing, so RESULT holds their number as it is. -/
theorem wrBtbCountsToTheBoundary : Obligations.WrBtbCountsToTheBoundary := by
  unfold Obligations.WrBtbCountsToTheBoundary
  refine ⟨by decide, fun s hf => ⟨_, exec_wrBtb hf, rfl, ?_, ((KeptExcept.refl s).setResult _).complete⟩⟩
  have hsmall : bwBtb s < 2 ^ 32 := (bwBtb_completes s).1.trans_lt (by decide)
  rw [State.complete_result, State.setResult_result, BitVec.toNat_ofNat, Nat.mod_eq_of_lt hsmall, bwBtb]

/-! ### WR_TOBYTES (R124) -/

theorem exec_wrTobytes {s : State} (hf : s.status.fault = false) :
    exec .wrTobytes s = .next (s.emitBytes (bwTobytes s)).complete := by
  rw [exec, execWrTobytes, command_of_not_fault _ hf, Result.finish_done]

/-- R68: above what is written from its start on, a buffer is as it was. -/
theorem Buffer.read_writeList_above (d : Byte) (b : Buffer) {L : List Byte} {i : Nat} (h : L.length ≤ i) :
    (b.writeList 0 L).read d i = b.read d i := by
  rw [Buffer.read_writeList, if_neg (by omega)]

/-- R68, R124: emitting bytes that OLEN can count puts them at OBUF's start and leaves OBUF above them as it was. -/
theorem emitBytes_bytesEmitted {L : List Byte} (s : State) (h : L.length < 2 ^ 32) :
    BytesEmitted L s (s.emitBytes L) := by
  refine ⟨?_, memRead_writeList _ _ L, fun i hi => Buffer.read_writeList_above _ _ hi⟩
  rw [State.emitBytes_olen, BitVec.toNat_ofNat, Nat.mod_eq_of_lt h]

/-- Settles O18: the command's one way to end emits WBUF's complete bytes, of which a 32-bit WCUR counts fewer than
2 ^ 32. -/
theorem wrTobytesEmitsCompleteBytes : Obligations.WrTobytesEmitsCompleteBytes := by
  unfold Obligations.WrTobytesEmitsCompleteBytes
  refine ⟨by decide, fun s hf => ⟨_, exec_wrTobytes hf, rfl, ?_, ((KeptExcept.refl s).emitBytes _).complete⟩⟩
  have hlen : (bwTobytes s).length < 2 ^ 32 := by
    rw [bwTobytes, memRead_length]
    exact (Nat.div_le_self _ _).trans_lt s.wcur.isLt
  exact emitBytes_bytesEmitted s hlen

end Sys2Proof.Machine
end

section
/-! PROOFS. The Base62Codec's compaction test and symbol commands, and ENCODE (43_base62codec.md R140, R145, R146, R150). -/

namespace Sys2Proof.Machine

/-! ### Compact values (R140) -/

theorem compact_eq_true_iff_mask (v : Symbol) : compact v = true ↔ v &&& 0b011110 = 0b011110 := beq_iff_eq

/-- R140: the mask leaves bits 0 and 5 free, which makes four of the 64 values compact. -/
theorem compact_eq_true_iff_mem (v : Symbol) : compact v = true ↔ v.toNat ∈ [30, 31, 62, 63] := by
  revert v
  decide

/-- R140: the mask's ones are the bits 1 to 4. -/
theorem compact_eq_true_iff_bits (v : Symbol) :
    compact v = true ↔ (v.getLsbD 1 && v.getLsbD 2 && v.getLsbD 3 && v.getLsbD 4) = true := by
  revert v
  decide

/-- Settles O23: the mask as written, its four values among the 64, and its bits. -/
theorem compactValuesAreExactlyFour : Obligations.CompactValuesAreExactlyFour := by
  unfold Obligations.CompactValuesAreExactlyFour
  exact fun v => ⟨compact_eq_true_iff_mask v, compact_eq_true_iff_mem v, compact_eq_true_iff_bits v⟩

/-! ### SYM_ENC (R145) -/

theorem exec_symEnc_of_some {v c : Byte} {s : State} (hf : s.status.fault = false) (h : alpha v = some c) :
    exec (.symEnc v) s = .next (s.setResult (c.setWidth 32)).complete := by
  rw [exec, execSymEnc, command_of_not_fault _ hf, h, Result.finish_done]

theorem exec_symEnc_of_none {v : Byte} {s : State} (hf : s.status.fault = false) (h : alpha v = none) :
    exec (.symEnc v) s = .next (s.report .invalidSymbol) := by
  rw [exec, execSymEnc, command_of_not_fault _ hf, h, Result.finish_raised]

/-- Settles O25: ALPHA has an entry for `v` exactly below 62. -/
theorem symEncLooksUpTheAlphabet : Obligations.SymEncLooksUpTheAlphabet := by
  unfold Obligations.SymEncLooksUpTheAlphabet
  refine fun v s hf => ⟨packWord_eq_add _ _ _, fun hbelow => ?_, fun habove => ?_⟩
  · have hentry : alpha v ≠ none := by rw [Ne, alpha_eq_none_iff]; omega
    obtain ⟨c, hc⟩ := Option.ne_none_iff_exists'.1 hentry
    exact ⟨c, _, hc, exec_symEnc_of_some hf hc, rfl, rfl, ((KeptExcept.refl s).setResult _).complete⟩
  · rw [exec_symEnc_of_none hf (alpha_eq_none_iff.2 habove), report_of_ne hf (by decide)]

/-! ### SYM_DEC (R146) -/

theorem exec_symDec_of_some {c : Byte} {v : Symbol} {s : State} (hf : s.status.fault = false) (h : dtab c = some v) :
    exec (.symDec c) s = .next (s.setResult (v.setWidth 32)).complete := by
  rw [exec, execSymDec, command_of_not_fault _ hf, h, Result.finish_done]

theorem exec_symDec_of_none {c : Byte} {s : State} (hf : s.status.fault = false) (h : dtab c = none) :
    exec (.symDec c) s = .next (s.report .invalidSymbol) := by
  rw [exec, execSymDec, command_of_not_fault _ hf, h, Result.finish_raised]

/-- Settles O26: the entry of `c` in DTAB is valid or it is not. -/
theorem symDecLooksUpTheValue : Obligations.SymDecLooksUpTheValue := by
  unfold Obligations.SymDecLooksUpTheValue
  refine fun c s hf => ⟨packWord_eq_add _ _ _, fun v hv => ?_, fun hinvalid => ?_⟩
  · exact ⟨_, exec_symDec_of_some hf hv, rfl, rfl, ((KeptExcept.refl s).setResult _).complete⟩
  · rw [exec_symDec_of_none hf hinvalid, report_of_ne hf (by decide)]

/-! ### ENCODE (R150) -/

/-- R150: what b62_encode writes over its reader. -/
theorem KeptExcept.setSymbols {L : List Part} {s t : State} (h : KeptExcept L s t) (c n : Word) (b : Buffer) :
    KeptExcept (.rcur :: .sout :: .solen :: L) s { t with rcur := c, sout := b, solen := n } :=
  h.write [.rcur, .sout, .solen] fun p hp hk => by
    cases p with
    | rcur | sout | solen => exact absurd (by decide) hp
    | _ => exact hk

/-- A frame's list may be reordered and may grow. -/
theorem KeptExcept.mono {L M : List Part} {s t : State} (h : KeptExcept L s t) (hsub : L ⊆ M) : KeptExcept M s t :=
  fun p hp => h p fun hL => hp (hsub hL)

/-- R6, R151: at 5 bits a symbol or more, SOUT has room for the symbols of what IBUF can hold. -/
theorem encodeSymbols_fit {c : Config} (hc : c.Admissible) {L : List Byte} (hL : L.length ≤ c.pIbytes) :
    (encodeSymbols L).length ≤ c.pSchars := by
  obtain ⟨-, -, hS, -⟩ := hc
  have hlen : (encodeSymbols L).length ≤ ((bitsOfBytes L).length + 4) / 5 := (symbolsOfBits_length le_rfl).2
  rw [bitsOfBytes_length] at hlen
  omega

theorem sum_symbolWidth_le (v : List Symbol) : (v.map symbolWidth).sum ≤ 6 * v.length := by
  have hsum := List.sum_le_card_nsmul (v.map symbolWidth) 6 fun w hw => by
    obtain ⟨x, -, rfl⟩ := List.mem_map.1 hw
    exact symbolWidth_le x
  rwa [List.length_map, smul_eq_mul, Nat.mul_comm] at hsum

/-- R68, R150: writing the characters of `v` to SOUT from its start on and their number to SOLEN emits `v`. -/
theorem symbolsEmitted_writeList {v : List Symbol} {cs : List Byte} (s : State)
    (hcs : cs.map some = v.map fun x => alpha (x.setWidth 8)) (hsmall : v.length < 2 ^ 32) :
    SymbolsEmitted v s { s with sout := s.sout.writeList 0 cs, solen := BitVec.ofNat 32 v.length } := by
  have hlen : cs.length = v.length := by simpa using congrArg List.length hcs
  refine ⟨?_, ?_, fun i hi => Buffer.read_writeList_above _ _ (hlen.trans_le hi)⟩
  · show (BitVec.ofNat 32 v.length).toNat = v.length
    rw [BitVec.toNat_ofNat, Nat.mod_eq_of_lt hsmall]
  · rw [← hcs, ← hlen]
    exact congrArg (List.map some) (memRead_writeList _ _ cs)

/-- b62_encode over a reader constructed over `L` (R150, R173), for any `L` that IBUF can hold: it completes with the symbols
of `L`'s bits in SOUT and the reader past the bits that they take. -/
theorem b62Encode_brInit {s : State} (hc : s.cfg.Admissible) {L : List Byte} (hL : L.length ≤ s.cfg.pIbytes) :
    ∃ t, b62Encode (brInit L s) = .done () t ∧ SymbolsEmitted (encodeSymbols L) s t ∧
      ReaderOver L ((encodeSymbols L).map symbolWidth).sum s t ∧
      KeptExcept [.rbuf, .rlen, .rcur, .sout, .solen] s t := by
  have hroom := encodeSymbols_fit hc hL
  have hwidths := sum_symbolWidth_le (encodeSymbols L)
  obtain ⟨-, hI, -, -, hS, -⟩ := hc
  obtain ⟨cs, hcs, hrun⟩ := b62Encode_eq (s := s) (L := L) (by omega) hroom
  obtain ⟨hrlen, -, hrbuf, habove⟩ := brInit_readerOver s (L := L) (by omega)
  refine ⟨_, hrun, symbolsEmitted_writeList s hcs (by omega), ⟨hrlen, ?_, hrbuf, habove⟩, ?_⟩
  · show (BitVec.ofNat 32 _).toNat = _
    rw [BitVec.toNat_ofNat, Nat.mod_eq_of_lt (by omega)]
  · refine (((KeptExcept.refl s).brInit L).setSymbols _ _ _).mono ?_
    decide

theorem exec_encode_of_done {s t : State} (hf : s.status.fault = false) (h : s.ilen.toNat ≤ s.cfg.pIbytes)
    (hrun : b62Encode (brInit (memRead s.ibufByte s.ilen.toNat) s) = .done () t) :
    exec .encode s = .next t.complete := by
  rw [exec, execEncode, command_of_not_fault _ hf, checkIlen_of_le h, Result.bind_done, hrun, Result.finish_done]

theorem exec_encode_of_gt {s : State} (hf : s.status.fault = false) (h : s.cfg.pIbytes < s.ilen.toNat) :
    exec .encode s = .next (s.report .capacityError) := by
  rw [exec, execEncode, command_of_not_fault _ hf, checkIlen_of_lt h, Result.bind_raised, Result.finish_raised]

/-- Settles O27: within the capacity the command is b62_encode over IBUF's bytes; above it the command only reports. -/
theorem encodeFollowsTheBitStream : Obligations.EncodeFollowsTheBitStream := by
  unfold Obligations.EncodeFollowsTheBitStream
  refine ⟨by decide, fun s hf hc => ⟨fun hfit => ?_, fun hover => ?_⟩⟩
  · have hL : (memRead s.ibufByte s.ilen.toNat).length ≤ s.cfg.pIbytes := by rwa [memRead_length]
    obtain ⟨t, hrun, hsymbols, hreader, hkept⟩ := b62Encode_brInit hc hL
    exact ⟨_, exec_encode_of_done hf hfit hrun, rfl, hsymbols, hreader, hkept.complete⟩
  · rw [exec_encode_of_gt hf hover, report_of_ne hf (by decide)]

end Sys2Proof.Machine
end

section
/-! PROOFS. The IdentifierCodec: the 16 bytes of an identifier, ID_TOBYTES, ID_FROMBYTES and ID_TOBASE62
(44_identifiercodec.md R170 to R173). -/

namespace Sys2Proof.Machine

/-! ### The identifier's bytes (R170) -/

@[simp] theorem halfBytes_length (h : IdHalf) : (halfBytes h).length = 8 := rfl

@[simp] theorem idTobytes_length (hi lo : IdHalf) : (idTobytes hi lo).length = 16 := rfl

/-- R170: one byte more at the low end of a half, the others moved up. -/
def shiftIn (h : IdHalf) (b : Byte) : IdHalf := (h <<< 8) ||| b.setWidth 64

theorem halfOfBytes_eq_foldl (B : List Byte) : halfOfBytes B = B.foldl shiftIn 0 := rfl

theorem extractLsb'_shiftIn_low (h : IdHalf) (b : Byte) : (shiftIn h b).extractLsb' 0 8 = b := by
  refine BitVec.eq_of_getLsbD_eq fun j hj => ?_
  simp [shiftIn, hj, show j < 64 by omega]

theorem extractLsb'_shiftIn_high (h : IdHalf) (b : Byte) {n : Nat} (hn : n ≤ 48) :
    (shiftIn h b).extractLsb' (n + 8) 8 = h.extractLsb' n 8 := by
  refine BitVec.eq_of_getLsbD_eq fun j hj => ?_
  have hin : n + 8 + j < 64 := by omega
  have hmoved : ¬ n + 8 + j < 8 := by omega
  have hfrom : n + 8 + j - 8 = n + j := by omega
  have hclear : b.getLsbD (n + 8 + j) = false := BitVec.getLsbD_of_ge _ _ (by omega)
  simp only [shiftIn, BitVec.getLsbD_extractLsb', BitVec.getLsbD_or, BitVec.getLsbD_shiftLeft, BitVec.getLsbD_setWidth,
    hin, hmoved, hfrom, hclear, decide_true, decide_false, Bool.not_false, Bool.true_and, Bool.and_false, Bool.or_false]

/-- R170: shifting a byte in drops the half's first byte and appends the new one. -/
theorem halfBytes_shiftIn (h : IdHalf) (b : Byte) : halfBytes (shiftIn h b) = (halfBytes h).drop 1 ++ [b] := by
  have hup : ∀ n ≤ 48, (shiftIn h b).extractLsb' (n + 8) 8 = h.extractLsb' n 8 := fun _ => extractLsb'_shiftIn_high h b
  rw [halfBytes, extractLsb'_shiftIn_low, hup 48 (by decide), hup 40 (by decide), hup 32 (by decide), hup 24 (by decide),
    hup 16 (by decide), hup 8 (by decide), hup 0 (by decide)]
  rfl

/-- R170: shifting in a list, byte by byte, keeps the last 8 bytes of the half's bytes followed by the list. -/
theorem halfBytes_foldl_shiftIn (h : IdHalf) (B : List Byte) :
    halfBytes (B.foldl shiftIn h) = (halfBytes h ++ B).drop B.length := by
  induction B generalizing h with
  | nil => rw [List.foldl_nil, List.append_nil, List.length_nil, List.drop_zero]
  | cons b B ih =>
    have hone : 1 ≤ (halfBytes h).length := by rw [halfBytes_length]; decide
    rw [List.foldl_cons, ih, halfBytes_shiftIn, List.append_assoc, List.singleton_append,
      ← List.drop_append_of_le_length hone, List.drop_drop, List.length_cons, Nat.add_comm]

/-- R170: the bytes of a half read from 8 bytes are those. -/
theorem halfBytes_halfOfBytes {B : List Byte} (h : B.length = 8) : halfBytes (halfOfBytes B) = B := by
  rw [halfOfBytes_eq_foldl, halfBytes_foldl_shiftIn, h, List.drop_left' (halfBytes_length 0)]

/-- R170: the bytes of an identifier read from 16 bytes are those. -/
theorem idTobytes_idFrombytes {B : List Byte} (h : B.length = 16) :
    idTobytes (idFrombytes B).1 (idFrombytes B).2 = B := by
  have hhi : (B.take 8).length = 8 := by rw [List.length_take, h]; rfl
  have hlo : (B.drop 8).length = 8 := by rw [List.length_drop, h]
  rw [idTobytes, idFrombytes, List.take_of_length_le hlo.le, halfBytes_halfOfBytes hhi, halfBytes_halfOfBytes hlo,
    List.take_append_drop]

/-! ### ID_TOBYTES (R171) -/

theorem exec_idTobytes {s : State} (hf : s.status.fault = false) :
    exec .idTobytes s = .next (s.emitBytes (idTobytes s.idHi s.idLo)).complete := by
  rw [exec, execIdTobytes, command_of_not_fault _ hf, Result.finish_done]

/-- Settles O36: the command's one way to end emits the identifier's bytes, and there are 16 of them. -/
theorem idTobytesSerializesBigEndian : Obligations.IdTobytesSerializesBigEndian := by
  unfold Obligations.IdTobytesSerializesBigEndian
  refine ⟨by decide, fun s hf => ⟨_, exec_idTobytes hf, rfl, ?_, ((KeptExcept.refl s).emitBytes _).complete⟩⟩
  have hlen : (idTobytes s.idHi s.idLo).length < 2 ^ 32 := by rw [idTobytes_length]; decide
  exact emitBytes_bytesEmitted s hlen

/-! ### ID_FROMBYTES (R172) -/

theorem KeptExcept.setId {L : List Part} {s t : State} (h : KeptExcept L s t) (B : List Byte) :
    KeptExcept (.idHi :: .idLo :: L) s (t.setId B) :=
  h.write [.idHi, .idLo] fun p hp hk => by
    cases p with
    | idHi | idLo => exact absurd (by decide) hp
    | _ => exact hk

theorem exec_idFrombytes_of_gt {s : State} (hf : s.status.fault = false) (h : s.cfg.pIbytes < s.ilen.toNat) :
    exec .idFrombytes s = .next (s.report .capacityError) := by
  rw [exec, execIdFrombytes, command_of_not_fault _ hf, checkIlen_of_lt h, Result.bind_raised, Result.finish_raised]

theorem exec_idFrombytes_of_short {s : State} (hf : s.status.fault = false) (h : s.ilen.toNat ≤ s.cfg.pIbytes)
    (hshort : s.ilen.toNat < 16) : exec .idFrombytes s = .next (s.report .lengthError) := by
  rw [exec, execIdFrombytes, command_of_not_fault _ hf, checkIlen_of_le h, Result.bind_done, if_pos hshort,
    Result.finish_raised]

/-- R172: from 16 bytes on, only the first 16 count. -/
theorem exec_idFrombytes_of_long {s : State} (hf : s.status.fault = false) (h : s.ilen.toNat ≤ s.cfg.pIbytes)
    (hlong : 16 ≤ s.ilen.toNat) : exec .idFrombytes s = .next (s.setId (memRead s.ibufByte 16)).complete := by
  rw [exec, execIdFrombytes, command_of_not_fault _ hf, checkIlen_of_le h, Result.bind_done, if_neg hlong.not_gt,
    Result.finish_done]

/-- Settles O37: ILEN is above the capacity, too short, or admits the 16 bytes, which the loaded identifier gives back. -/
theorem idFrombytesReadsSixteenBytes : Obligations.IdFrombytesReadsSixteenBytes := by
  unfold Obligations.IdFrombytesReadsSixteenBytes
  refine ⟨by decide, fun s hf => ⟨fun hover => ?_, fun hfit hshort => ?_, fun hfit hlong => ?_⟩⟩
  · rw [exec_idFrombytes_of_gt hf hover, report_of_ne hf (by decide)]
  · rw [exec_idFrombytes_of_short hf hfit hshort, report_of_ne hf (by decide)]
  · exact ⟨_, exec_idFrombytes_of_long hf hfit hlong, rfl, idTobytes_idFrombytes (memRead_length _ 16),
      ((KeptExcept.refl s).setId _).complete⟩

/-! ### ID_TOBASE62 (R173) -/

theorem exec_idTobase62_of_done {s t : State} (hf : s.status.fault = false)
    (hrun : b62Encode (brInit (idTobytes s.idHi s.idLo) s) = .done () t) : exec .idTobase62 s = .next t.complete := by
  rw [exec, execIdTobase62, command_of_not_fault _ hf, hrun, Result.finish_done]

/-- Settles O38: the command is b62_encode over the identifier's 16 bytes, which every admissible P_IBYTES holds (R6). -/
theorem idTobase62EncodesTheIdentifier : Obligations.IdTobase62EncodesTheIdentifier := by
  unfold Obligations.IdTobase62EncodesTheIdentifier
  refine ⟨by decide, fun s hf hc => ?_⟩
  have ⟨hI, _⟩ := hc
  have hL : (idTobytes s.idHi s.idLo).length ≤ s.cfg.pIbytes := hI
  obtain ⟨t, hrun, hsymbols, hreader, hkept⟩ := b62Encode_brInit hc hL
  exact ⟨_, exec_idTobase62_of_done hf hrun, rfl, hsymbols, hreader, hkept.complete⟩

end Sys2Proof.Machine
end

section
/-! PROOFS. The sticky FAULT: what sets it, what every command does under it, and what clears it (60_exceptions.md R206). -/

namespace Sys2Proof.Machine

/-! ### Under FAULT (R206) -/

/-- R81: every command is pseudocode behind the one FAULT test. -/
theorem exec_eq_command (i : Instr) : ∃ body, ∀ s, exec i s = command body s := by
  cases i with
  | rdInit => exact ⟨_, execRdInit.eq_def⟩
  | rdHasmore => exact ⟨_, execRdHasmore.eq_def⟩
  | rdRead n => exact ⟨_, execRdRead.eq_def n⟩
  | rdSeekback => exact ⟨_, execRdSeekback.eq_def⟩
  | wrInit => exact ⟨_, execWrInit.eq_def⟩
  | wrWrite n value => exact ⟨_, execWrWrite.eq_def n value⟩
  | wrBtb => exact ⟨_, execWrBtb.eq_def⟩
  | wrTobytes => exact ⟨_, execWrTobytes.eq_def⟩
  | symEnc v => exact ⟨_, execSymEnc.eq_def v⟩
  | symDec c => exact ⟨_, execSymDec.eq_def c⟩
  | encode => exact ⟨_, execEncode.eq_def⟩
  | decode => exact ⟨_, execDecode.eq_def⟩
  | idTobytes => exact ⟨_, execIdTobytes.eq_def⟩
  | idFrombytes => exact ⟨_, execIdFrombytes.eq_def⟩
  | idTobase62 => exact ⟨_, execIdTobase62.eq_def⟩
  | idFrombase62 => exact ⟨_, execIdFrombase62.eq_def⟩

theorem exec_of_fault (i : Instr) {s : State} (hf : s.status.fault = true) :
    exec i s = .next (s.report .boundsError) := by
  obtain ⟨body, hbody⟩ := exec_eq_command i
  rw [hbody, command_of_fault body hf]

/-- A legal word runs its command and an illegal one is a command of its own (R86): both meet the FAULT test. -/
theorem writeCmd_of_fault (w : Word) {s : State} (hf : s.status.fault = true) :
    writeCmd w s = .next (s.report .boundsError) := by
  unfold writeCmd
  split
  · exact exec_of_fault _ hf
  · exact command_of_fault _ hf

theorem step_cmd_of_fault (w : Word) {s : State} (hr : s.resetLine = false) (hf : s.status.fault = true) :
    step (s.receiving (.store s.cfg.pBase 4 w)) =
      .next { s with status := { err := some .boundsError, fault := true } } := by
  rw [step_receiving, perform_cmd w hr, writeCmd_of_fault w hf, report_boundsError]

/-- A command that succeeds reports no error, so BoundsError comes from `State.report`, which sets FAULT with it. -/
theorem fault_of_exec_boundsError {i : Instr} {s t : State} (h : exec i s = .next t)
    (herr : t.status.err = some .boundsError) : t.status.fault = true := by
  obtain ⟨body, hbody⟩ := exec_eq_command i
  obtain ⟨-, rfl⟩ | ⟨-, ⟨u, -, rfl⟩ | ⟨e, u, -, rfl⟩⟩ := command_cases ((hbody s).symm.trans h)
  · exact Bool.or_true _
  · cases herr
  · cases herr
    exact Bool.or_true _

/-! ### What clears FAULT (R206) -/

/-- A host write, of a command or of anything else, keeps FAULT. -/
theorem fault_of_poke {off size : Nat} {v : Word} {s t : State} (h : poke off size v s = .next t)
    (hf : s.status.fault = true) : t.status.fault = true := by
  by_cases hcmd : off = 0 ∧ size = 4
  · obtain ⟨rfl, rfl⟩ := hcmd
    have hrun : writeCmd v s = .next t := (poke_offset s .cmd v).symm.trans h
    cases (writeCmd_of_fault v hf).symm.trans hrun
    exact Bool.or_true _
  · obtain ⟨u, hu, hframe, -⟩ := poke_cases (s := s) (v := v) hcmd
    cases hu.symm.trans h
    rw [hframe]
    exact hf

/-- Of the inputs, only the release of an asserted reset clears FAULT. -/
theorem perform_clears_fault {b : BusEvent} {s t : State} (h : perform b s = .next t) (hf : s.status.fault = true)
    (hclear : t.status.fault = false) : s.resetLine = true ∧ b = .releaseReset := by
  have hkept : t.status.fault ≠ true := by rw [hclear]; decide
  cases b with
  | store addr size v =>
    rw [perform] at h
    obtain ⟨off, -, -, -, hpoke⟩ := access_cases h
    exact absurd (fault_of_poke hpoke hf) hkept
  | load addr size =>
    rw [perform] at h
    obtain ⟨off, -, -, -, hload⟩ := access_cases h
    cases hload
    exact absurd hf hkept
  | assertReset =>
    cases h
    exact absurd hf hkept
  | releaseReset =>
    rw [perform, releaseReset] at h
    split at h
    · next hr => exact ⟨hr, rfl⟩
    · cases h
      exact absurd hf hkept

theorem step_clears_fault {s t : State} (h : step s = .next t) (hf : s.status.fault = true)
    (hclear : t.status.fault = false) : s.resetLine = true ∧ s.inputs.head? = some .releaseReset := by
  obtain ⟨-, hwait⟩ | ⟨b, rest, hin, hstep⟩ := step_cases s
  · cases hwait.symm.trans h
    cases hf.symm.trans hclear
  · obtain ⟨hr, rfl⟩ := perform_clears_fault (hstep.symm.trans h) hf hclear
    exact ⟨hr, by rw [hin, List.head?_cons]⟩

/-! ### Host writes do not see STATUS (R206) -/

/-- A host write other than to CMD keeps STATUS, and does the same whatever STATUS is. -/
theorem poke_ignores_status {off size : Nat} (v : Word) (s : State) (h : ¬ (off = 0 ∧ size = 4)) :
    ∃ t, poke off size v s = .next t ∧ t.status = s.status ∧
      ∀ st, poke off size v { s with status := st } = .next { t with status := st } := by
  simp only [poke]
  cases ht : target s.cfg off size with
  | nothing => exact ⟨_, rfl, rfl, fun _ => rfl⟩
  | reg r =>
    cases r with
    | cmd => exact absurd (target_eq_cmd.1 ht) h
    | _ => exact ⟨_, rfl, rfl, fun _ => rfl⟩
  | elem w i => cases w <;> exact ⟨_, rfl, rfl, fun _ => rfl⟩

/-- Settles O55: the commands under FAULT, what clears it, and the host's accesses beside it. -/
theorem boundsErrorIsSticky : Obligations.BoundsErrorIsSticky := by
  unfold Obligations.BoundsErrorIsSticky
  refine ⟨fun i s t h herr => fault_of_exec_boundsError h herr, fun s w hr hf => step_cmd_of_fault w hr hf,
    fun i s hf => ?_, fun s t h hf hclear => step_clears_fault h hf hclear,
    fun s off size hr hoff => step_load size hr hoff, fun s off size v hr hoff hcmd => ?_⟩
  · rw [exec_of_fault i hf, report_boundsError]
  · obtain ⟨t, hpoke, hstatus, hany⟩ := poke_ignores_status v s hcmd
    exact ⟨t, (step_store size v hr hoff).trans hpoke, hstatus,
      (step_store (s := { s with status := { err := none, fault := false } }) size v hr hoff).trans (hany _)⟩

end Sys2Proof.Machine
end

section
/-! PROOFS. The order in which errors are reported (60_exceptions.md R205). -/

namespace Sys2Proof.Machine

/-! ### A length register above its capacity (R26, R27) -/

theorem exec_decode_of_gt {s : State} (hf : s.status.fault = false) (h : s.cfg.pSchars < s.silen.toNat) :
    exec .decode s = .next (s.report .capacityError) := by
  rw [exec, execDecode, command_of_not_fault _ hf, checkSilen_of_lt h, Result.bind_raised, Result.finish_raised]

theorem exec_idFrombase62_of_gt {s : State} (hf : s.status.fault = false) (h : s.cfg.pSchars < s.silen.toNat) :
    exec .idFrombase62 s = .next (s.report .capacityError) := by
  rw [exec, execIdFrombase62, command_of_not_fault _ hf, checkSilen_of_lt h, Result.bind_raised, Result.finish_raised]

theorem exec_of_ilen_gt {i : Instr} {s : State} (hi : i ∈ [Instr.rdInit, .encode, .idFrombytes])
    (hf : s.status.fault = false) (h : s.cfg.pIbytes < s.ilen.toNat) : exec i s = .next (s.report .capacityError) := by
  fin_cases hi
  · exact exec_rdInit_of_gt hf h
  · exact exec_encode_of_gt hf h
  · exact exec_idFrombytes_of_gt hf h

theorem exec_of_silen_gt {i : Instr} {s : State} (hi : i ∈ [Instr.decode, .idFrombase62])
    (hf : s.status.fault = false) (h : s.cfg.pSchars < s.silen.toNat) : exec i s = .next (s.report .capacityError) := by
  fin_cases hi
  · exact exec_decode_of_gt hf h
  · exact exec_idFrombase62_of_gt hf h

/-! ### InvalidSymbol at the lowest position (R156, R205) -/

/-- Characters that DTAB does not mark invalid have values (R41). -/
theorem exists_symbols_of_valid {f : Nat → Byte} {i : Nat} (h : ∀ j, j < i → dtab (f j) ≠ none) :
    ∃ v : List Symbol, (memRead f i).map dtab = v.map some := by
  induction i with
  | zero => exact ⟨[], rfl⟩
  | succ i ih =>
    obtain ⟨v, hv⟩ := ih fun j hj => h j (Nat.lt_succ_of_lt hj)
    obtain ⟨x, hx⟩ := Option.ne_none_iff_exists'.1 (h i (Nat.lt_succ_self i))
    refine ⟨v ++ [x], ?_⟩
    rw [memRead_succ, List.map_append, List.map_append, hv, List.map_singleton, List.map_singleton, hx]

/-- A read of `m` elements passes any position `i` below `m`. -/
theorem memRead_eq_append {i m : Nat} (f : Nat → Byte) (h : i < m) :
    ∃ rest, memRead f m = memRead f i ++ f i :: rest := by
  induction m, h using Nat.le_induction with
  | base => exact ⟨[], memRead_succ f i⟩
  | succ m hm ih =>
    obtain ⟨rest, hrest⟩ := ih
    exact ⟨rest ++ [f m], by rw [memRead_succ, hrest, List.append_assoc, List.cons_append]⟩

/-- R6, R157: WBUF has room for what the characters before the last one contribute, so the first invalid one is reached. -/
theorem b62Decode_of_firstInvalid {s : State} {i : Nat} (hc : s.cfg.Admissible) (hfit : s.silen.toNat ≤ s.cfg.pSchars)
    (h : FirstInvalid s i) :
    ∃ b c, b62Decode s.silen.toNat s =
      .raised .invalidSymbol { s with wbuf := b, wcur := c, olen := 0, erridx := BitVec.ofNat 32 i } := by
  obtain ⟨hi, hinvalid, hvalid⟩ := h
  obtain ⟨v, hv⟩ := exists_symbols_of_valid hvalid
  obtain ⟨rest, hsin⟩ := memRead_eq_append s.sinChar hi
  have hlen : v.length = i := by simpa using (congrArg List.length hv).symm
  have hbits := innerBits_length_le v
  obtain ⟨-, -, -, -, -, hO, -, hO'⟩ := hc
  obtain ⟨b, hrun, -⟩ := decodeLoop_invalid (rest := rest) (i := 0) (s := bwInit (6 * s.silen.toNat) s) hv hinvalid
    (bwInit_holds _ s) (by rw [List.nil_append, bwInit_cfg]; omega) (by rw [bwInit_cfg]; omega)
  rw [Nat.zero_add, memRead_length] at hrun
  exact ⟨b, _, by rw [b62Decode, hsin, hrun, Result.bind_raised]; rfl⟩

/-- R174: the test of the decoded length comes after the characters, so their error is the one reported. -/
theorem exec_idFrombase62_of_raised {s u : State} {e : ErrKind} (hf : s.status.fault = false)
    (hfit : s.silen.toNat ≤ s.cfg.pSchars) (hrun : b62Decode s.silen.toNat s = .raised e u) :
    exec .idFrombase62 s = .next (u.report e) := by
  rw [exec, execIdFrombase62, command_of_not_fault _ hf, checkSilen_of_le hfit, Result.bind_done, hrun,
    Result.bind_raised, Result.finish_raised]

/-- Settles O54: FAULT, an illegal word, a length register, and then each command's own error. -/
theorem errorPriorityOrder : Obligations.ErrorPriorityOrder := by
  unfold Obligations.ErrorPriorityOrder
  refine ⟨fun s w hr hf => step_cmd_of_fault w hr hf, fun s w d hr hf hd => ?_, fun i s hf hlength => ?_,
    fun s i hf hc hfit hi hinvalid hvalid => ?_, fun s hf hfit hshort => ?_, fun s n hf hlo hhi hout => ?_,
    fun s hf hzero => ?_, fun s n v hf hn hover => ?_⟩
  · rw [step_receiving, perform_cmd w hr, writeCmd_of_decode_error hd hf]
  · rw [← report_of_ne hf (by decide)]
    obtain ⟨hi, hover⟩ | ⟨hi, hover⟩ := hlength
    · exact exec_of_ilen_gt hi hf hover
    · exact exec_of_silen_gt hi hf hover
  · obtain ⟨b, c, hrun⟩ := b62Decode_of_firstInvalid hc hfit ⟨hi, hinvalid, hvalid⟩
    refine ⟨_, exec_idFrombase62_of_raised hf hfit hrun, rfl, ?_⟩
    rw [State.report_erridx, BitVec.toNat_ofNat, Nat.mod_eq_of_lt (hi.trans s.silen.isLt)]
  · rw [exec_idFrombytes_of_short hf hfit hshort, report_of_ne hf (by decide)]
  · rw [exec_rdRead_of_ge hf ⟨hlo, hhi⟩ hout, report_boundsError]
  · rw [exec_rdSeekback_of_zero hf hzero, report_boundsError]
  · rw [exec_wrWrite_of_gt v hf hn hover, report_of_ne hf (by decide)]

end Sys2Proof.Machine
end

section
/-! PROOFS. IBUF and the reader: a snapshot, and nothing after it (70_reset_and_hazards.md R251). -/

namespace Sys2Proof.Machine

/-! ### RD_READ does not see IBUF (R36, R102) -/

/-- Log 12: a count outside 1..6 is no command. -/
theorem exec_rdRead_of_illegal {n : BitVec 3} {s : State} (hf : s.status.fault = false)
    (hn : ¬ (1 ≤ n.toNat ∧ n.toNat ≤ 6)) : exec (.rdRead n) s = .next (s.report .illegalCommand) := by
  have hillegal : ¬ legalReadCount n = true := fun h => hn (of_decide_eq_true h)
  rw [exec, execRdRead, command_of_not_fault _ hf, if_neg hillegal, Result.finish_raised]

/-- In each of the four ways RD_READ can end, IBUF decides neither that it ends so nor what it answers: the bits it returns
are the reader's, which lie in RBUF. -/
theorem exec_rdRead_setIbuf {n : BitVec 3} {s t : State} (b : Buffer) (h : exec (.rdRead n) s = .next t) :
    exec (.rdRead n) { s with ibuf := b } = .next { t with ibuf := b } := by
  cases hf : s.status.fault with
  | true =>
    cases (exec_of_fault _ hf).symm.trans h
    exact exec_of_fault (s := { s with ibuf := b }) _ hf
  | false =>
    by_cases hn : 1 ≤ n.toNat ∧ n.toNat ≤ 6
    · by_cases hin : s.rcur.toNat < 8 * s.rlen.toNat
      · obtain ⟨v, hv, hrun⟩ := exec_rdRead_of_lt hf hn hin
        obtain ⟨w, hw, hrun'⟩ := exec_rdRead_of_lt (s := { s with ibuf := b }) hf hn hin
        have hsame : w = v := BitVec.eq_of_getLsbD_eq fun j _ => (hw j).trans (hv j).symm
        cases hrun.symm.trans h
        rw [hrun', hsame]
        rfl
      · have hout : 8 * s.rlen.toNat ≤ s.rcur.toNat := not_lt.1 hin
        cases (exec_rdRead_of_ge hf hn hout).symm.trans h
        exact exec_rdRead_of_ge (s := { s with ibuf := b }) hf hn hout
    · cases (exec_rdRead_of_illegal hf hn).symm.trans h
      exact exec_rdRead_of_illegal (s := { s with ibuf := b }) hf hn

/-! ### RD_INIT takes the new contents (R100) -/

/-- Reads that give the same list agree on every element they cover. -/
theorem eq_of_memRead_eq {f g : Nat → Byte} {n i : Nat} (h : memRead f n = memRead g n) (hi : i < n) : f i = g i := by
  rw [← memRead_getD f n i 0 hi, h, memRead_getD g n i 0 hi]

/-- RBUF below ILEN is IBUF. -/
theorem exec_rdInit_rbufByte {s : State} (hf : s.status.fault = false) (h : s.ilen.toNat ≤ s.cfg.pIbytes) :
    ∃ t, exec .rdInit s = .next t ∧ ∀ i, i < s.ilen.toNat → t.rbufByte i = s.ibufByte i := by
  have hlen : (memRead s.ibufByte s.ilen.toNat).length < 2 ^ 32 := by
    rw [memRead_length]
    exact s.ilen.isLt
  obtain ⟨-, -, hread, -⟩ := brInit_readerOver s hlen
  rw [memRead_length] at hread
  exact ⟨_, exec_rdInit_of_le hf h, fun i hi => eq_of_memRead_eq hread hi⟩

/-- Settles O14: RD_READ is the same run whatever IBUF holds, and RD_INIT, from the state with the new IBUF, snapshots it. -/
theorem ibufWritesMissTheReader : Obligations.IbufWritesMissTheReader := by
  unfold Obligations.IbufWritesMissTheReader
  exact ⟨fun n s t b h => exec_rdRead_setIbuf b h,
    fun s b hf hfit => exec_rdInit_rbufByte (s := { s with ibuf := b }) hf hfit⟩

end Sys2Proof.Machine
end

section
/-! PROOFS. Decoding and encoding undo each other (30_encoding.md R81, R82, R85), and how a decoded word comes to run. -/

namespace Sys2Proof.Machine

/-! ### Words -/

/-- Settles O1: the fields of a command's word select its row, and its operands pass the row's two tests. -/
theorem decodeOfEncodeIsIdentity : Obligations.DecodeOfEncodeIsIdentity := by
  unfold Obligations.DecodeOfEncodeIsIdentity
  intro i hwf
  cases i with
  | rdRead n => exact (decode_packWord _ _ _).trans (checked_eq_ok_iff.2 ⟨hwf, rfl, rfl⟩)
  | wrWrite n value => exact (decode_packWord _ _ _).trans (checked_eq_ok_iff.2 ⟨hwf, rfl, rfl⟩)
  | symEnc v | symDec c => exact (decode_packWord _ _ _).trans (checked_eq_ok_iff.2 ⟨rfl, rfl, rfl⟩)
  | rdInit | rdHasmore | rdSeekback | wrInit | wrBtb | wrTobytes | encode | decode | idTobytes | idFrombytes | idTobase62
  | idFrombase62 =>
    exact (decode_packWord _ _ _).trans (checked_eq_ok_iff.2 ⟨rfl, rfl, rfl⟩)

/-- Settles O2: `encode_of_decode`, the decoder read backwards. -/
theorem decodedWordsAreEncodings : Obligations.DecodedWordsAreEncodings := by
  unfold Obligations.DecodedWordsAreEncodings
  exact fun _ _ h => encode_of_decode h

/-- Settles O3: eleven closed words. -/
theorem wordsOfEveryFamilyDecode : Obligations.WordsOfEveryFamilyDecode := by
  unfold Obligations.WordsOfEveryFamilyDecode
  decide

/-! ### The step that runs a word (R80, R245) -/

theorem writeCmd_of_decode {w : Word} {i : Instr} (h : decode w = .ok i) (s : State) : writeCmd w s = exec i s := by
  rw [writeCmd, h]

/-- Settles O5: the access reaches CMD, and a CMD write runs what its word decodes to. -/
theorem stepRunsTheWrittenCommand : Obligations.StepRunsTheWrittenCommand := by
  unfold Obligations.StepRunsTheWrittenCommand
  intro s w i hr hd
  rw [step_receiving, perform_cmd w hr, writeCmd_of_decode hd]

theorem decode_of_decodeTableWord {nbits w : Nat} {i : Instr} (h : decodeTableWord nbits w = some i) :
    decode (BitVec.ofNat 32 (w % 2 ^ nbits)) = .ok i := by
  unfold decodeTableWord at h
  split at h
  · split at h
    · next hd => cases h; exact hd
    · cases h
  · cases h

/-- Settles O6: the word stands at the head of the inputs as a CMD write, so the next step is that write. -/
theorem fetchWordRunsTheDecodedInstruction : Obligations.FetchWordRunsTheDecodedInstruction := by
  unfold Obligations.FetchWordRunsTheDecodedInstruction
  intro s nbits w i hd
  exact (perform_cmd (s := { s with resetLine := false }) _ rfl).trans
    (writeCmd_of_decode (decode_of_decodeTableWord hd) _)

/-! ### Terms without a word (log 12) -/

theorem exec_wrWrite_of_illegal {n : BitVec 3} {s : State} (value : Byte) (hf : s.status.fault = false)
    (hn : ¬ n.toNat ≤ 6) : exec (.wrWrite n value) s = .next (s.report .illegalCommand) := by
  have hillegal : ¬ legalWriteCount n = true := fun h => hn (of_decide_eq_true h)
  rw [exec, execWrWrite, command_of_not_fault _ hf, if_neg hillegal, Result.finish_raised]

/-- Settles O59: only RD_READ and WR_WRITE have counts that can be illegal, and both test theirs first. -/
theorem illFormedTermsReportIllegalCommand : Obligations.IllFormedTermsReportIllegalCommand := by
  unfold Obligations.IllFormedTermsReportIllegalCommand
  intro i s hwf hf
  rw [← report_of_ne hf (by decide)]
  cases i with
  | rdRead n => exact exec_rdRead_of_illegal hf (of_decide_eq_false hwf)
  | wrWrite n value => exact exec_wrWrite_of_illegal value hf (of_decide_eq_false hwf)
  | _ => cases hwf

/-! ### Compact values (R140) -/

/-- R140: clearing bit 5 leaves a compact value's other bits, which are all but bit 0 set. -/
theorem compact_settled {raw : Symbol} (h : compact raw = true) :
    compact (raw &&& 0b011111) = true ∧ (raw &&& 0b011111).toNat ∈ [30, 31] := by
  revert raw
  decide

/-- R140: the values 62 and 63, which have no entry, are compact. -/
theorem le_of_not_compact {raw : Symbol} (h : compact raw = false) : raw.toNat ≤ 61 := by
  have hmem := mt (compact_eq_true_iff_mem raw).2 (by simp [h])
  have hlt := raw.isLt
  simp only [List.mem_cons, List.not_mem_nil, or_false] at hmem
  omega

/-- Settles O24: a compact value settles on 30 or 31, and any other is below the table's end. -/
theorem compactionKeepsTheSymbol : Obligations.CompactionKeepsTheSymbol := by
  unfold Obligations.CompactionKeepsTheSymbol
  exact fun raw => ⟨compact_settled, fun h => ⟨le_of_not_compact h, (settled_symbol raw).2 h⟩⟩

end Sys2Proof.Machine
end

section
/-! PROOFS. The Base62 sequencer at admissible capacities, with everything it leaves: what DECODE does with any characters,
and where ENCODE's reader ends (43_base62codec.md R150 to R157). -/

namespace Sys2Proof.Machine

/-! ### DECODE (R156) -/

/-- WBUF and WCUR of a writer at bit `n`. -/
def State.setWriter (b : Buffer) (n : Nat) (s : State) : State := { s with wbuf := b, wcur := BitVec.ofNat 32 n }

/-- `b` is a WBUF for the bits `B`: they fit, it holds them and no other, and it has the canonical form (R37, log 4). -/
structure Deposit (s : State) (B : List Bool) (b : Buffer) : Prop where
  fits : B.length ≤ 8 * s.cfg.pObytes
  holds : WriterHolds B (s.setWriter b B.length)
  rising : b.Rising
  noZero : b.NoZero
  below : b.Below s.cfg.pObytes

/-- The bits of a WBUF are counted in 32 bits (R6, R9). -/
theorem wbufBits_lt {c : Config} (hc : c.Admissible) : 8 * c.pObytes < 2 ^ 32 := by
  obtain ⟨-, -, -, -, -, -, -, hO⟩ := hc
  omega

/-- What the writer leaves that bw_init made: the canonical form is that of an empty WBUF, kept. -/
theorem Deposit.of_bwInit {s : State} {B : List Bool} {b : Buffer} (hfit : B.length ≤ 8 * s.cfg.pObytes)
    (hB : WriterHolds B (s.setWriter b B.length)) (hr : Buffer.Rising [] → b.Rising) (hz : Buffer.NoZero [] → b.NoZero)
    (hb : Buffer.Below s.cfg.pObytes [] → b.Below s.cfg.pObytes) : Deposit s B b where
  fits := hfit
  holds := hB
  rising := hr List.Pairwise.nil
  noZero := hz fun _ h => absurd h List.not_mem_nil
  below := hb fun _ h => absurd h List.not_mem_nil

theorem SinSymbols.length_eq {m : Nat} {v : List Symbol} {s : State} (h : SinSymbols m v s) : v.length = m := by
  simpa using (congrArg List.length h).symm

/-- R156, the last paragraph: valid characters whose contributions fit. -/
theorem b62Decode_of_valid {s : State} {v : List Symbol} (hc : s.cfg.Admissible) (hv : SinSymbols s.silen.toNat v s)
    (hfit : (joinSymbols v []).length ≤ 8 * s.cfg.pObytes) :
    ∃ b, Deposit s (joinSymbols v []) b ∧ b62Decode s.silen.toNat s =
      .done () ((s.setWriter b (joinSymbols v []).length).emitBytes (decodeSymbols v)) := by
  obtain ⟨b, hrun, hB, hr, hz, hb⟩ := decodeLoop_valid (s := bwInit (6 * s.silen.toNat) s) (i := 0) hv
    (bwInit_holds _ s) hfit (wbufBits_lt hc)
  refine ⟨b, .of_bwInit hfit hB hr hz hb, ?_⟩
  rw [b62Decode, hrun, Result.bind_done, bwTobytes_eq hB]
  rfl

/-- Log 21: valid characters of which the last does not fit. -/
theorem b62Decode_of_full {s : State} {v : List Symbol} (hc : s.cfg.Admissible) (hlen : s.silen.toNat ≤ s.cfg.pSchars)
    (hv : SinSymbols s.silen.toNat v s) (hover : 8 * s.cfg.pObytes < (joinSymbols v []).length) :
    ∃ b, Deposit s (innerBits v.dropLast) b ∧ b62Decode s.silen.toNat s =
      .raised .capacityError (s.setWriter b (innerBits v.dropLast).length) := by
  have hfit := innerBits_fits hc (hv.length_eq.trans_le hlen)
  obtain ⟨b, hrun, hB, hr, hz, hb⟩ := decodeLoop_capacity (s := bwInit (6 * s.silen.toNat) s) (i := 0) hv
    (bwInit_holds _ s) hfit hover (wbufBits_lt hc)
  refine ⟨b, .of_bwInit hfit hB hr hz hb, ?_⟩
  rw [b62Decode, hrun, Result.bind_raised]
  rfl

/-- R156, R204: an invalid character after valid ones. -/
theorem b62Decode_of_invalid {s : State} {v : List Symbol} {i : Nat} (hc : s.cfg.Admissible)
    (hlen : s.silen.toNat ≤ s.cfg.pSchars) (hi : i < s.silen.toNat) (hv : SinSymbols i v s)
    (hinvalid : dtab (s.sinChar i) = none) :
    ∃ b, Deposit s (innerBits v) b ∧ b62Decode s.silen.toNat s =
      .raised .invalidSymbol { s.setWriter b (innerBits v).length with olen := 0, erridx := BitVec.ofNat 32 i } := by
  have hbits := innerBits_length_le v
  have hcount := hv.length_eq
  have hfit : (innerBits v).length ≤ 8 * s.cfg.pObytes := by
    obtain ⟨-, -, -, -, -, hO, -⟩ := hc
    omega
  obtain ⟨rest, hsin⟩ := memRead_eq_append s.sinChar hi
  obtain ⟨b, hrun, hB, hr, hz, hb⟩ := decodeLoop_invalid (rest := rest) (s := bwInit (6 * s.silen.toNat) s) (i := 0) hv
    hinvalid (bwInit_holds _ s) hfit (wbufBits_lt hc)
  rw [Nat.zero_add, memRead_length] at hrun
  refine ⟨b, .of_bwInit hfit hB hr hz hb, ?_⟩
  rw [b62Decode, hsin, hrun, Result.bind_raised]
  rfl

/-- Either all of the first `m` characters are valid, or there is a first invalid one. -/
theorem sinSymbols_or_invalid (s : State) (m : Nat) :
    (∃ v, SinSymbols m v s) ∨ ∃ i v, i < m ∧ SinSymbols i v s ∧ dtab (s.sinChar i) = none := by
  by_cases h : ∃ i, i < m ∧ dtab (s.sinChar i) = none
  · obtain ⟨hi, hinvalid⟩ := Nat.find_spec h
    obtain ⟨v, hv⟩ := exists_symbols_of_valid (f := s.sinChar) (i := Nat.find h) fun j hj hnone =>
      Nat.find_min h hj ⟨hj.trans hi, hnone⟩
    exact .inr ⟨_, v, hi, hv, hinvalid⟩
  · obtain ⟨v, hv⟩ := exists_symbols_of_valid (f := s.sinChar) (i := m) fun j hj hnone => h ⟨j, hj, hnone⟩
    exact .inl ⟨v, hv⟩

/-- Everything b62_decode can do with SILEN characters (R156, log 21). -/
inductive DecodeRun (s : State) : Result Unit → Prop
  | valid (v : List Symbol) (b : Buffer) (hv : SinSymbols s.silen.toNat v s) (hb : Deposit s (joinSymbols v []) b) :
    DecodeRun s (.done () ((s.setWriter b (joinSymbols v []).length).emitBytes (decodeSymbols v)))
  | full (v : List Symbol) (b : Buffer) (hv : SinSymbols s.silen.toNat v s)
    (hover : 8 * s.cfg.pObytes < (joinSymbols v []).length) (hb : Deposit s (innerBits v.dropLast) b) :
    DecodeRun s (.raised .capacityError (s.setWriter b (innerBits v.dropLast).length))
  | invalid (i : Nat) (v : List Symbol) (b : Buffer) (hi : i < s.silen.toNat) (hv : SinSymbols i v s)
    (hb : Deposit s (innerBits v) b) :
    DecodeRun s (.raised .invalidSymbol
      { s.setWriter b (innerBits v).length with olen := 0, erridx := BitVec.ofNat 32 i })

theorem b62Decode_run {s : State} (hc : s.cfg.Admissible) (hlen : s.silen.toNat ≤ s.cfg.pSchars) :
    DecodeRun s (b62Decode s.silen.toNat s) := by
  obtain ⟨v, hv⟩ | ⟨i, v, hi, hv, hinvalid⟩ := sinSymbols_or_invalid s s.silen.toNat
  · by_cases hfit : (joinSymbols v []).length ≤ 8 * s.cfg.pObytes
    · obtain ⟨b, hb, hrun⟩ := b62Decode_of_valid hc hv hfit
      exact hrun ▸ .valid v b hv hb
    · have hover := Nat.lt_of_not_le hfit
      obtain ⟨b, hb, hrun⟩ := b62Decode_of_full hc hlen hv hover
      exact hrun ▸ .full v b hv hover hb
  · obtain ⟨b, hb, hrun⟩ := b62Decode_of_invalid hc hlen hi hv hinvalid
    exact hrun ▸ .invalid i v b hi hv hb

/-- R124: the decoded bytes are the complete ones, so they fit OBUF. -/
theorem decodeSymbols_length (v : List Symbol) : (decodeSymbols v).length = (joinSymbols v []).length / 8 := by
  rw [decodeSymbols, completeBytes, List.length_map, List.length_range]

theorem Deposit.decodeSymbols_length_le {s : State} {v : List Symbol} {b : Buffer} (hb : Deposit s (joinSymbols v []) b) :
    (decodeSymbols v).length ≤ s.cfg.pObytes := by
  have hfits := hb.fits
  rw [decodeSymbols_length]
  omega

/-! ### ENCODE (R150) -/

/-- A compact value needs five bits of the stream: its bit 4 is set. -/
theorem five_le_of_compact {B : List Bool} (h : compact (headSymbol B) = true) : 5 ≤ B.length := by
  by_contra hshort
  have hbit := compact_bits h
  rw [headSymbol_getLsbD, List.getD_eq_default _ _ (by omega)] at hbit
  simp at hbit

/-- A stream's symbols, the first apart: its width is what it takes (R150). -/
theorem symbolsOfBits_cons {f : Nat} {b : Bool} {B : List Bool} :
    ∃ x, symbolsOfBits (f + 1) (b :: B) = x :: symbolsOfBits f ((b :: B).drop (symbolWidth x)) ∧
      compact x = compact (headSymbol (b :: B)) ∧ ∀ j, j < symbolWidth x → x.getLsbD j = (b :: B).getD j false := by
  cases hcomp : compact (headSymbol (b :: B)) with
  | true =>
    have hx := (compact_settled hcomp).1
    have hw : symbolWidth (headSymbol (b :: B) &&& 0b011111) = 5 := if_pos hx
    refine ⟨headSymbol (b :: B) &&& 0b011111, ?_, hx, fun j hj => ?_⟩
    · rw [hw, symbolsOfBits, if_pos hcomp]
    · rw [hw] at hj
      have hmask : (0b011111 : Symbol).getLsbD j = true := by revert j; decide
      rw [BitVec.getLsbD_and, hmask, Bool.and_true, headSymbol_getLsbD, decide_eq_true (by omega), Bool.true_and]
  | false =>
    have hw : symbolWidth (headSymbol (b :: B)) = 6 := by simp [symbolWidth, hcomp]
    refine ⟨headSymbol (b :: B), ?_, hcomp, fun j hj => ?_⟩
    · rw [hw, symbolsOfBits, if_neg (by simp [hcomp])]
    · rw [hw] at hj
      rw [headSymbol_getLsbD, decide_eq_true hj, Bool.true_and]

/-- R150: the symbols take every bit of the stream, and at most 5 more. -/
theorem sum_symbolWidth_symbolsOfBits {f : Nat} {B : List Bool} (hf : B.length ≤ f) :
    B.length ≤ ((symbolsOfBits f B).map symbolWidth).sum ∧ ((symbolsOfBits f B).map symbolWidth).sum ≤ B.length + 5 := by
  induction f generalizing B with
  | zero =>
    obtain rfl : B = [] := List.length_eq_zero_iff.1 (Nat.le_zero.1 hf)
    decide
  | succ f ih =>
    cases B with
    | nil => simp [symbolsOfBits_nil]
    | cons b B =>
      obtain ⟨x, hsplit, hcomp, -⟩ := symbolsOfBits_cons (f := f) (b := b) (B := B)
      have hw : symbolWidth x = 5 ∧ 5 ≤ (b :: B).length ∨ symbolWidth x = 6 := by
        unfold symbolWidth
        split
        · next h => exact .inl ⟨rfl, five_le_of_compact (hcomp ▸ h)⟩
        · exact .inr rfl
      have hlen : ((b :: B).drop (symbolWidth x)).length = (b :: B).length - symbolWidth x := List.length_drop
      rw [List.length_cons] at hf hw hlen ⊢
      have hrest := ih (B := (b :: B).drop (symbolWidth x)) (by omega)
      have hempty : ((b :: B).drop (symbolWidth x)).length = 0 →
          ((symbolsOfBits f ((b :: B).drop (symbolWidth x))).map symbolWidth).sum = 0 := fun h => by
        rw [List.length_eq_zero_iff.1 h, symbolsOfBits_nil]
        rfl
      rw [hsplit, List.map_cons, List.sum_cons]
      omega

theorem sum_symbolWidth_encodeSymbols (L : List Byte) :
    8 * L.length ≤ ((encodeSymbols L).map symbolWidth).sum ∧
      ((encodeSymbols L).map symbolWidth).sum ≤ 8 * L.length + 5 := by
  rw [← bitsOfBytes_length]
  exact sum_symbolWidth_symbolsOfBits le_rfl

/-- R151. -/
theorem encodeSymbols_length (L : List Byte) :
    (8 * L.length + 5) / 6 ≤ (encodeSymbols L).length ∧ (encodeSymbols L).length ≤ (8 * L.length + 4) / 5 := by
  rw [← bitsOfBytes_length]
  exact symbolsOfBits_length le_rfl

/-- R42, R152: the characters of symbols are characters of the alphabet. -/
theorem dtab_isSome_of_alphabet {cs : List Byte} {v : List Symbol} (h : cs.map some = v.map fun x => alpha (x.setWidth 8))
    {c : Byte} (hc : c ∈ cs) : (dtab c).isSome = true := by
  have hmem : some c ∈ v.map fun x => alpha (x.setWidth 8) := h ▸ List.mem_map_of_mem hc
  obtain ⟨x, -, hx⟩ := List.mem_map.1 hmem
  rw [dtab_eq_some_iff_alpha.2 hx, Option.isSome_some]

/-- What b62_encode writes over its reader: the characters `cs` to SOUT, their number to SOLEN, and RCUR. -/
def State.setSymbols (cs : List Byte) (n : Nat) (s : State) : State :=
  { s with rcur := BitVec.ofNat 32 n, sout := s.sout.writeList 0 cs, solen := BitVec.ofNat 32 cs.length }

/-- b62_encode over a reader constructed over `L` (R150, R173), as the state it leaves. -/
theorem b62Encode_brInit_eq {s : State} (hc : s.cfg.Admissible) {L : List Byte} (hL : L.length ≤ s.cfg.pIbytes) :
    ∃ cs : List Byte, cs.map some = (encodeSymbols L).map (fun x => alpha (x.setWidth 8)) ∧
      cs.length = (encodeSymbols L).length ∧
      b62Encode (brInit L s) = .done () ((brInit L s).setSymbols cs ((encodeSymbols L).map symbolWidth).sum) := by
  have hroom := encodeSymbols_fit hc hL
  obtain ⟨-, hI, -⟩ := hc
  obtain ⟨cs, hcs, hrun⟩ := b62Encode_eq (s := s) (L := L) (by omega) hroom
  have hlen : cs.length = (encodeSymbols L).length := by simpa using congrArg List.length hcs
  refine ⟨cs, hcs, hlen, ?_⟩
  rw [hrun, State.setSymbols, hlen]
  rfl

end Sys2Proof.Machine
end

section
/-! PROOFS. What every command leaves, as a state, at admissible capacities and with FAULT clear: once for all the statements
about all commands. -/

namespace Sys2Proof

/-- The errors that a command reports with nothing else written (60_exceptions.md §2). -/
def Instr.rejections : Instr → List Machine.ErrKind
  | .rdInit | .encode | .decode | .idFrombase62 => [.capacityError]
  | .rdRead _ => [.boundsError, .illegalCommand]
  | .rdSeekback => [.boundsError]
  | .wrWrite _ _ => [.capacityError, .illegalCommand]
  | .symEnc _ | .symDec _ => [.invalidSymbol]
  | .idFrombytes => [.capacityError, .lengthError]
  | .rdHasmore | .wrInit | .wrBtb | .wrTobytes | .idTobytes | .idTobase62 => []

end Sys2Proof

namespace Sys2Proof.Machine

/-- What makes a command report CapacityError before it writes anything: a length register above its capacity (R26, R27), or
bits that do not fit the writer (R122). -/
def Exceeds (s : State) : Instr → Prop
  | .rdInit | .encode | .idFrombytes => s.cfg.pIbytes < s.ilen.toNat
  | .decode | .idFrombase62 => s.cfg.pSchars < s.silen.toNat
  | .wrWrite n _ => 8 * s.cfg.pObytes < s.wcur.toNat + n.toNat
  | _ => False

/-- How command `i` can end from `s`, and what it then leaves (R100 to R174). Commands with the same row of R44's matrix
share a case. -/
inductive Outcome (s : State) : Instr → State → Prop
  | rejected {i : Instr} {e : ErrKind} (he : e ∈ i.rejections) (hcap : e = .capacityError → Exceeds s i) :
    Outcome s i (s.report e)
  | scalar {i : Instr} (hi : writesOnSuccess i = [.result]) (v : Word) : Outcome s i (s.setResult v).complete
  | rdInit (hfit : s.ilen.toNat ≤ s.cfg.pIbytes) :
    Outcome s .rdInit (brInit (memRead s.ibufByte s.ilen.toNat) s).complete
  | rdRead {n : BitVec 3} (hn : n.toNat ≤ 6) (hin : s.rcur.toNat < 8 * s.rlen.toNat) (v : Word) :
    Outcome s (.rdRead n) (({ s with rcur := s.rcur + n.setWidth 32 } : State).setResult v).complete
  | rdSeekback (hpos : s.rcur ≠ 0) :
    Outcome s .rdSeekback ({ s with rcur := BitVec.ofNat 32 (s.rcur.toNat - 1) } : State).complete
  | wrInit : Outcome s .wrInit (s.setWriter [] 0).complete
  | wrWrite {n : BitVec 3} {value : Byte} {b : Buffer} (hfit : s.wcur.toNat + n.toNat ≤ 8 * s.cfg.pObytes)
    (hbits : ∀ k, ({ s with wbuf := b } : State).writerBit k = (s.writerBit k ||
      (decide (s.wcur.toNat ≤ k ∧ k < s.wcur.toNat + n.toNat) && value.getLsbD (k - s.wcur.toNat))))
    (hr : s.wbuf.Rising → b.Rising) (hz : s.wbuf.NoZero → b.NoZero)
    (hb : s.wbuf.Below s.cfg.pObytes → b.Below s.cfg.pObytes) :
    Outcome s (.wrWrite n value) (s.setWriter b (s.wcur.toNat + n.toNat)).complete
  | emitted {i : Instr} {L : List Byte} (hi : writesOnSuccess i = [.obuf, .olen]) (hL : L.length < 2 ^ 32)
    (hfit : s.wcur.toNat ≤ 8 * s.cfg.pObytes → L.length ≤ s.cfg.pObytes) : Outcome s i (s.emitBytes L).complete
  | idFrombytes (B : List Byte) : Outcome s .idFrombytes (s.setId B).complete
  | encoded {i : Instr} {L cs : List Byte} (hi : i = .encode ∨ i = .idTobase62) (hL : L.length ≤ s.cfg.pIbytes)
    (hcs : cs.map some = (encodeSymbols L).map fun x => alpha (x.setWidth 8))
    (hlen : cs.length = (encodeSymbols L).length) :
    Outcome s i ((brInit L s).setSymbols cs ((encodeSymbols L).map symbolWidth).sum).complete
  | decoded {v : List Symbol} {b : Buffer} (hv : SinSymbols s.silen.toNat v s) (hb : Deposit s (joinSymbols v []) b) :
    Outcome s .decode ((s.setWriter b (joinSymbols v []).length).emitBytes (decodeSymbols v)).complete
  | identified {v : List Symbol} {b : Buffer} (hb : Deposit s (joinSymbols v []) b) (B : List Byte) :
    Outcome s .idFrombase62
      (((s.setWriter b (joinSymbols v []).length).emitBytes (decodeSymbols v)).setId B).complete
  | wrongLength {v : List Symbol} {b : Buffer} (hb : Deposit s (joinSymbols v []) b)
    (hdecode : exec .decode s =
      .next ((s.setWriter b (joinSymbols v []).length).emitBytes (decodeSymbols v)).complete) :
    Outcome s .idFrombase62
      (((s.setWriter b (joinSymbols v []).length).emitBytes (decodeSymbols v)).report .lengthError)
  | full {i : Instr} {v : List Symbol} {b : Buffer} (hi : i = .decode ∨ i = .idFrombase62)
    (hlen : s.silen.toNat ≤ s.cfg.pSchars) (hv : SinSymbols s.silen.toNat v s)
    (hover : 8 * s.cfg.pObytes < (joinSymbols v []).length)
    (hb : Deposit s (innerBits v.dropLast) b) :
    Outcome s i ((s.setWriter b (innerBits v.dropLast).length).report .capacityError)
  | invalid {i : Instr} {k : Nat} {v : List Symbol} {b : Buffer} (hi : i = .decode ∨ i = .idFrombase62)
    (hk : k < s.silen.toNat) (hv : SinSymbols k v s) (hb : Deposit s (innerBits v) b) :
    Outcome s i (({ s.setWriter b (innerBits v).length with olen := 0, erridx := BitVec.ofNat 32 k } : State).report
      .invalidSymbol)

/-! ### Each command has such an outcome -/

theorem rdRead_outcome (n : BitVec 3) {s : State} (hf : s.status.fault = false) :
    ∃ t, exec (.rdRead n) s = .next t ∧ Outcome s (.rdRead n) t := by
  by_cases hn : 1 ≤ n.toNat ∧ n.toNat ≤ 6
  · by_cases hin : s.rcur.toNat < 8 * s.rlen.toNat
    · obtain ⟨v, -, hrun⟩ := exec_rdRead_of_lt hf hn hin
      exact ⟨_, hrun, .rdRead hn.2 hin _⟩
    · exact ⟨_, exec_rdRead_of_ge hf hn (Nat.le_of_not_lt hin), .rejected List.mem_cons_self nofun⟩
  · exact ⟨_, exec_rdRead_of_illegal hf hn, .rejected (List.mem_cons_of_mem _ List.mem_cons_self) nofun⟩

theorem wrWrite_outcome (n : BitVec 3) (value : Byte) {s : State} (hf : s.status.fault = false) :
    ∃ t, exec (.wrWrite n value) s = .next t ∧ Outcome s (.wrWrite n value) t := by
  by_cases hn : n.toNat ≤ 6
  · by_cases hfit : s.wcur.toNat + n.toNat ≤ 8 * s.cfg.pObytes
    · obtain ⟨b, hwrite, hbits, -, hr, hz, hb⟩ := bwWrite_of_le value (Nat.le_succ_of_le hn) hfit
      have hlegal : legalWriteCount n = true := decide_eq_true hn
      refine ⟨_, ?_, .wrWrite hfit hbits hr hz hb⟩
      rw [exec, execWrWrite, command_of_not_fault _ hf, if_pos hlegal, countOperand, hwrite, Result.finish_done]
      rfl
    · have hover := Nat.lt_of_not_le hfit
      exact ⟨_, exec_wrWrite_of_gt value hf hn hover, .rejected List.mem_cons_self fun _ => hover⟩
  · exact ⟨_, exec_wrWrite_of_illegal value hf hn, .rejected (List.mem_cons_of_mem _ List.mem_cons_self) nofun⟩

theorem idFrombytes_outcome {s : State} (hf : s.status.fault = false) :
    ∃ t, exec .idFrombytes s = .next t ∧ Outcome s .idFrombytes t := by
  by_cases hfit : s.ilen.toNat ≤ s.cfg.pIbytes
  · by_cases hlong : 16 ≤ s.ilen.toNat
    · exact ⟨_, exec_idFrombytes_of_long hf hfit hlong, .idFrombytes _⟩
    · exact ⟨_, exec_idFrombytes_of_short hf hfit (Nat.lt_of_not_le hlong), .rejected (by decide) nofun⟩
  · have hover := Nat.lt_of_not_le hfit
    exact ⟨_, exec_idFrombytes_of_gt hf hover, .rejected (by decide) fun _ => hover⟩

theorem encode_outcome {s : State} (hf : s.status.fault = false) (hc : s.cfg.Admissible) :
    ∃ t, exec .encode s = .next t ∧ Outcome s .encode t := by
  by_cases hfit : s.ilen.toNat ≤ s.cfg.pIbytes
  · have hL : (memRead s.ibufByte s.ilen.toNat).length ≤ s.cfg.pIbytes := by rwa [memRead_length]
    obtain ⟨cs, hcs, hlen, hrun⟩ := b62Encode_brInit_eq hc hL
    exact ⟨_, exec_encode_of_done hf hfit hrun, .encoded (.inl rfl) hL hcs hlen⟩
  · have hover := Nat.lt_of_not_le hfit
    exact ⟨_, exec_encode_of_gt hf hover, .rejected (by decide) fun _ => hover⟩

theorem idTobase62_outcome {s : State} (hf : s.status.fault = false) (hc : s.cfg.Admissible) :
    ∃ t, exec .idTobase62 s = .next t ∧ Outcome s .idTobase62 t := by
  have ⟨hI, _⟩ := hc
  have hL : (idTobytes s.idHi s.idLo).length ≤ s.cfg.pIbytes := hI
  obtain ⟨cs, hcs, hlen, hrun⟩ := b62Encode_brInit_eq hc hL
  exact ⟨_, exec_idTobase62_of_done hf hrun, .encoded (.inr rfl) hL hcs hlen⟩

/-- R156: behind the tests of FAULT and SILEN, DECODE ends as b62_decode does. -/
theorem exec_decode_of_le {s : State} (hf : s.status.fault = false) (hlen : s.silen.toNat ≤ s.cfg.pSchars) :
    exec .decode s = (b62Decode s.silen.toNat s).finish := by
  rw [exec, execDecode, command_of_not_fault _ hf, checkSilen_of_le hlen, Result.bind_done]

theorem decode_outcome {s : State} (hf : s.status.fault = false) (hc : s.cfg.Admissible) :
    ∃ t, exec .decode s = .next t ∧ Outcome s .decode t := by
  by_cases hlen : s.silen.toNat ≤ s.cfg.pSchars
  · have hrun := b62Decode_run hc hlen
    rw [exec_decode_of_le hf hlen]
    generalize b62Decode s.silen.toNat s = r at hrun
    cases hrun with
    | valid v b hv hb => exact ⟨_, rfl, .decoded hv hb⟩
    | full v b hv hover hb => exact ⟨_, rfl, .full (.inl rfl) hlen hv hover hb⟩
    | invalid k v b hk hv hb => exact ⟨_, rfl, .invalid (.inl rfl) hk hv hb⟩
  · have hover := Nat.lt_of_not_le hlen
    exact ⟨_, exec_decode_of_gt hf hover, .rejected (by decide) fun _ => hover⟩

/-- R174, after b62_decode has completed: the identifier is loaded when OLEN is 16. -/
theorem exec_idFrombase62_of_done {s u : State} (hf : s.status.fault = false) (hlen : s.silen.toNat ≤ s.cfg.pSchars)
    (hrun : b62Decode s.silen.toNat s = .done () u) : exec .idFrombase62 s =
      if u.olen ≠ 16 then .next (u.report .lengthError) else .next (u.setId (memRead u.obufByte 16)).complete := by
  rw [exec, execIdFrombase62, command_of_not_fault _ hf, checkSilen_of_le hlen, Result.bind_done, hrun, Result.bind_done]
  split <;> rfl

theorem idFrombase62_outcome {s : State} (hf : s.status.fault = false) (hc : s.cfg.Admissible) :
    ∃ t, exec .idFrombase62 s = .next t ∧ Outcome s .idFrombase62 t := by
  by_cases hlen : s.silen.toNat ≤ s.cfg.pSchars
  · have hdecode := exec_decode_of_le hf hlen
    have hcases := b62Decode_run hc hlen
    generalize hrun : b62Decode s.silen.toNat s = r at hdecode hcases
    cases hcases with
    | valid v b hv hb =>
      rw [exec_idFrombase62_of_done hf hlen hrun]
      split
      · exact ⟨_, rfl, .wrongLength hb hdecode⟩
      · exact ⟨_, rfl, .identified hb _⟩
    | full v b hv hover hb => exact ⟨_, exec_idFrombase62_of_raised hf hlen hrun, .full (.inr rfl) hlen hv hover hb⟩
    | invalid k v b hk hv hb => exact ⟨_, exec_idFrombase62_of_raised hf hlen hrun, .invalid (.inr rfl) hk hv hb⟩
  · have hover := Nat.lt_of_not_le hlen
    exact ⟨_, exec_idFrombase62_of_gt hf hover, .rejected (by decide) fun _ => hover⟩

theorem exec_outcome (i : Instr) {s : State} (hf : s.status.fault = false) (hc : s.cfg.Admissible) :
    ∃ t, exec i s = .next t ∧ Outcome s i t := by
  cases i with
  | rdInit =>
    by_cases hfit : s.ilen.toNat ≤ s.cfg.pIbytes
    · exact ⟨_, exec_rdInit_of_le hf hfit, .rdInit hfit⟩
    · have hover := Nat.lt_of_not_le hfit
      exact ⟨_, exec_rdInit_of_gt hf hover, .rejected (by decide) fun _ => hover⟩
  | rdHasmore => exact ⟨_, exec_rdHasmore hf, .scalar rfl _⟩
  | rdRead n => exact rdRead_outcome n hf
  | rdSeekback =>
    by_cases hzero : s.rcur = 0
    · exact ⟨_, exec_rdSeekback_of_zero hf hzero, .rejected (by decide) nofun⟩
    · exact ⟨_, exec_rdSeekback_of_pos hf hzero, .rdSeekback hzero⟩
  | wrInit => exact ⟨_, exec_wrInit hf, .wrInit⟩
  | wrWrite n value => exact wrWrite_outcome n value hf
  | wrBtb => exact ⟨_, exec_wrBtb hf, .scalar rfl _⟩
  | wrTobytes =>
    have hlen : (bwTobytes s).length = s.wcur.toNat / 8 := by rw [bwTobytes, memRead_length]
    have hcur := s.wcur.isLt
    exact ⟨_, exec_wrTobytes hf, .emitted rfl (by omega) fun h => by omega⟩
  | symEnc v =>
    cases h : alpha v with
    | some c => exact ⟨_, exec_symEnc_of_some hf h, .scalar rfl _⟩
    | none => exact ⟨_, exec_symEnc_of_none hf h, .rejected List.mem_cons_self nofun⟩
  | symDec c =>
    cases h : dtab c with
    | some v => exact ⟨_, exec_symDec_of_some hf h, .scalar rfl _⟩
    | none => exact ⟨_, exec_symDec_of_none hf h, .rejected List.mem_cons_self nofun⟩
  | encode => exact encode_outcome hf hc
  | decode => exact decode_outcome hf hc
  | idTobytes =>
    have ⟨_, _, _, _, _, _, hO, _⟩ := hc
    exact ⟨_, exec_idTobytes hf, .emitted rfl (by rw [idTobytes_length]; decide) fun _ => hO⟩
  | idFrombytes => exact idFrombytes_outcome hf
  | idTobase62 => exact idTobase62_outcome hf hc
  | idFrombase62 => exact idFrombase62_outcome hf hc

theorem outcome_of_exec {i : Instr} {s t : State} (hf : s.status.fault = false) (hc : s.cfg.Admissible)
    (h : exec i s = .next t) : Outcome s i t := by
  obtain ⟨u, hu, hout⟩ := exec_outcome i hf hc
  cases hu.symm.trans h
  exact hout

end Sys2Proof.Machine
end

section
/-! PROOFS. The invariants (Sys2Proof/Safety.lean): every piece of a command keeps them, and so every step. -/

namespace Sys2Proof.Machine

/-! ### What an input can do -/

/-- Everything the arrival of an input can do to the state: run a command, report an illegal word, write what the host may
write, return data, or be an edge of reset. -/
inductive Performed (s : State) : State → Prop
  | command {i : Instr} {t : State} (h : exec i s = .next t) : Performed s t
  | reported {e : ErrKind} (he : s.status.fault = true → e = .boundsError) : Performed s (s.report e)
  | written {ilen silen wcap : Word} {idHi idLo : IdHalf} {ibuf sin : Buffer}
    (hibuf : ibuf = s.ibuf ∨ ∃ i v, i < s.cfg.pIbytes ∧ ibuf = s.ibuf.write i v)
    (hsin : sin = s.sin ∨ ∃ i v, i < s.cfg.pSchars ∧ sin = s.sin.write i v) :
    Performed s { s with ilen := ilen, silen := silen, wcap := wcap, idHi := idHi, idLo := idLo, ibuf := ibuf, sin := sin }
  | loaded (v : Word) : Performed s { s with readData := v }
  | asserted : Performed s { s with resetLine := true }
  | released : Performed s (releaseReset s)

theorem writeCmd_performed {w : Word} {s t : State} (h : writeCmd w s = .next t) : Performed s t := by
  unfold writeCmd at h
  split at h
  · exact .command h
  · obtain ⟨hf, rfl⟩ | ⟨hf, ⟨u, hu, rfl⟩ | ⟨e, u, hu, rfl⟩⟩ := command_cases h
    · exact .reported fun _ => rfl
    · cases hu
    · cases hu
      exact .reported fun hfault => by rw [hf] at hfault; cases hfault

theorem poke_performed {off size : Nat} {v : Word} {s t : State} (h : poke off size v s = .next t) : Performed s t := by
  by_cases hcmd : off = 0 ∧ size = 4
  · obtain ⟨rfl, rfl⟩ := hcmd
    exact writeCmd_performed ((poke_offset s .cmd v).symm.trans h)
  · obtain ⟨u, hu, hframe, hibuf, hsin⟩ := poke_cases (s := s) (v := v) hcmd
    cases hu.symm.trans h
    rw [hframe]
    refine .written (hibuf.imp_right ?_) (hsin.imp_right ?_)
    · rintro ⟨i, hi, hw⟩
      exact ⟨i, _, hi, hw⟩
    · rintro ⟨i, hi, hw⟩
      exact ⟨i, _, hi, hw⟩

theorem performed_of_perform {b : BusEvent} {s t : State} (h : perform b s = .next t) : Performed s t := by
  cases b with
  | store addr size v =>
    obtain ⟨off, -, -, -, hpoke⟩ := access_cases h
    exact poke_performed hpoke
  | load addr size =>
    rw [perform] at h
    obtain ⟨off, -, -, -, hload⟩ := access_cases h
    cases hload
    exact .loaded _
  | assertReset =>
    cases h
    exact .asserted
  | releaseReset =>
    cases h
    exact .released

/-- A step changes nothing or is the arrival of the input it takes off the queue. -/
theorem performed_of_step {s t : State} (h : step s = .next t) : t = s ∨ ∃ q, Performed { s with inputs := q } t := by
  obtain ⟨-, hwait⟩ | ⟨b, rest, -, hstep⟩ := step_cases s
  · cases hwait.symm.trans h
    exact .inl rfl
  · exact .inr ⟨rest, performed_of_perform (hstep.symm.trans h)⟩

/-! ### State.Inv, piece by piece -/

theorem toNat_ofNat_le (n : Nat) : (BitVec.ofNat 32 n).toNat ≤ n := by
  rw [BitVec.toNat_ofNat]
  exact Nat.mod_le _ _

theorem Buffer.mem_writeList {b : Buffer} {i : Nat} {L : List Byte} {c : Host.Cell} (h : c ∈ b.writeList i L) :
    c.2 ∈ L ∨ c ∈ b := by
  induction L generalizing b i with
  | nil => exact .inr h
  | cons v L ih =>
    obtain hL | hb := ih h
    · exact .inl (List.mem_cons_of_mem v hL)
    · obtain rfl | hb := Buffer.mem_write hb
      · exact .inl List.mem_cons_self
      · exact .inr hb

theorem State.Inv.report {s : State} (h : s.Inv) {e : ErrKind} (he : s.status.fault = true → e = .boundsError) :
    (s.report e).Inv :=
  { h with
    stickyFault := fun hfault => by
      obtain hs | heq : s.status.fault = true ∨ (e == .boundsError) = true := (Bool.or_eq_true _ _).mp hfault
      · exact congrArg some (he hs)
      · exact congrArg some (beq_iff_eq.1 heq) }

/-- With FAULT clear, STATUS constrains nothing. -/
theorem State.Inv.complete {s : State} (h : s.Inv) (hf : s.status.fault = false) : s.complete.Inv :=
  { h with stickyFault := fun hfault => by cases hf.symm.trans hfault }

theorem State.Inv.report_of_not_fault {s : State} (h : s.Inv) (hf : s.status.fault = false) (e : ErrKind) :
    (s.report e).Inv :=
  h.report fun hfault => by cases hf.symm.trans hfault

theorem State.Inv.setResult {s : State} (h : s.Inv) (v : Word) : (s.setResult v).Inv := { h with }

theorem State.Inv.setId {s : State} (h : s.Inv) (B : List Byte) : (s.setId B).Inv := { h with }

theorem State.Inv.setRcur {s : State} (h : s.Inv) {c : Word} (hc : c.toNat ≤ 8 * s.rlen.toNat + 5) :
    ({ s with rcur := c } : State).Inv :=
  { h with readerCursor := hc }

theorem State.Inv.brInit {s : State} (h : s.Inv) {L : List Byte} (hL : L.length ≤ s.cfg.pIbytes) : (brInit L s).Inv :=
  have ⟨hibuf, hobuf, hsin, hsout, ⟨hr, hb⟩, hwbuf⟩ := h.memory
  { h with
    readerLength := (toNat_ofNat_le _).trans hL
    readerCursor := Nat.zero_le _
    memory := ⟨hibuf, hobuf, hsin, hsout,
      ⟨Buffer.writeList_rising 0 L hr, Buffer.writeList_below 0 L hb (by rwa [Nat.zero_add])⟩, hwbuf⟩ }

theorem State.Inv.setSymbols {s : State} (h : s.Inv) {cs : List Byte} {n : Nat} (hcs : ∀ c ∈ cs, (dtab c).isSome = true)
    (hlen : cs.length ≤ s.cfg.pSchars) (hn : n ≤ 8 * s.rlen.toNat + 5) : (s.setSymbols cs n).Inv :=
  have ⟨hibuf, hobuf, hsin, ⟨hr, hb⟩, hrbuf, hwbuf⟩ := h.memory
  { h with
    readerCursor := (toNat_ofNat_le n).trans hn
    symbolsOut := (toNat_ofNat_le _).trans hlen
    memory := ⟨hibuf, hobuf, hsin,
      ⟨Buffer.writeList_rising 0 cs hr, Buffer.writeList_below 0 cs hb (by rwa [Nat.zero_add])⟩, hrbuf, hwbuf⟩
    alphabetOut := fun _ hc => (Buffer.mem_writeList hc).elim (hcs _) (h.alphabetOut _) }

theorem State.Inv.emitBytes {s : State} (h : s.Inv) {L : List Byte} (hL : L.length ≤ s.cfg.pObytes) :
    (s.emitBytes L).Inv :=
  have ⟨hibuf, ⟨hr, hb⟩, hrest⟩ := h.memory
  { h with
    bytesOut := (toNat_ofNat_le _).trans hL
    memory := ⟨hibuf,
      ⟨Buffer.writeList_rising 0 L hr, Buffer.writeList_below 0 L hb (by rwa [Nat.zero_add])⟩, hrest⟩ }

theorem State.Inv.setOlen_setErridx {s : State} (h : s.Inv) (k : Word) : ({ s with olen := 0, erridx := k } : State).Inv :=
  { h with bytesOut := Nat.zero_le _ }

/-- R37: a writer that holds exactly `B` has zero bits from WCUR on. -/
theorem State.Inv.setWriter {s : State} (h : s.Inv) {B : List Bool} {b : Buffer} (hb : Deposit s B b) :
    (s.setWriter b B.length).Inv :=
  have ⟨hibuf, hobuf, hsin, hsout, hrbuf, _⟩ := h.memory
  have ⟨hcur, hbits⟩ := hb.holds
  { h with
    writerCursor := hcur.trans_le hb.fits
    writerTail := fun k hk => (hbits k).trans (List.getD_eq_default _ _ (hcur ▸ hk))
    memory := ⟨hibuf, hobuf, hsin, hsout, hrbuf, hb.rising, hb.below, hb.noZero⟩ }

/-- R37, R122: bits ORed in below the new WCUR leave the bits from there on zero. -/
theorem State.Inv.appendBits {s : State} (h : s.Inv) {b : Buffer} {n : Nat} {v : Byte}
    (hfit : s.wcur.toNat + n ≤ 8 * s.cfg.pObytes)
    (hbits : ∀ k, ({ s with wbuf := b } : State).writerBit k = (s.writerBit k ||
      (decide (s.wcur.toNat ≤ k ∧ k < s.wcur.toNat + n) && v.getLsbD (k - s.wcur.toNat))))
    (hr : s.wbuf.Rising → b.Rising) (hz : s.wbuf.NoZero → b.NoZero)
    (hb : s.wbuf.Below s.cfg.pObytes → b.Below s.cfg.pObytes) : (s.setWriter b (s.wcur.toNat + n)).Inv :=
  have ⟨hibuf, hobuf, hsin, hsout, hrbuf, hwr, hwb, hwz⟩ := h.memory
  have hcur : (BitVec.ofNat 32 (s.wcur.toNat + n)).toNat = s.wcur.toNat + n := by
    rw [BitVec.toNat_ofNat, Nat.mod_eq_of_lt (hfit.trans_lt (wbufBits_lt h.admissible))]
  { h with
    writerCursor := hcur.trans_le hfit
    writerTail := fun k hk => by
      have hk : s.wcur.toNat + n ≤ k := hcur ▸ hk
      refine (hbits k).trans ?_
      rw [h.writerTail k (by omega), decide_eq_false (by omega), Bool.false_and, Bool.false_or]
    memory := ⟨hibuf, hobuf, hsin, hsout, hrbuf, hr hwr, hb hwb, hz hwz⟩ }

/-- R230: at admissible parameters the state after reset meets the invariant. -/
theorem atReset_inv {c : Config} (hc : c.Admissible) (draws : Nat) (r : Word) (inputs : List BusEvent) :
    (State.atReset c draws r inputs).Inv where
  admissible := hc
  readerLength := Nat.zero_le _
  readerCursor := Nat.zero_le _
  writerCursor := Nat.zero_le _
  bytesOut := Nat.zero_le _
  symbolsOut := Nat.zero_le _
  writerTail _ _ := BitVec.getLsbD_zero
  memory := atReset_wf c draws r inputs
  stickyFault := fun h => by cases h
  alphabetOut := fun _ h => absurd h List.not_mem_nil

/-- R120: WBUF after bw_init is a WBUF for no bits. -/
theorem deposit_nil (s : State) : Deposit s [] [] :=
  .of_bwInit (Nat.zero_le _) (bwInit_holds 0 s) id id id

theorem Outcome.inv {i : Instr} {s t : State} (h : Outcome s i t) (hf : s.status.fault = false) (hs : s.Inv) : t.Inv := by
  cases h with
  | rejected he hcap => exact hs.report_of_not_fault hf _
  | scalar hi v => exact (hs.setResult v).complete hf
  | rdInit hfit => exact (hs.brInit (by rwa [memRead_length])).complete hf
  | rdRead hn hin v =>
    refine ((hs.setRcur ?_).setResult v).complete hf
    bv_omega
  | rdSeekback hpos =>
    refine (hs.setRcur ?_).complete hf
    exact (toNat_ofNat_le _).trans ((Nat.sub_le _ 1).trans hs.readerCursor)
  | wrInit => exact (hs.setWriter (deposit_nil s)).complete hf
  | wrWrite hfit hbits hr hz hb => exact (hs.appendBits hfit hbits hr hz hb).complete hf
  | emitted hi hL hfit => exact (hs.emitBytes (hfit hs.writerCursor)).complete hf
  | idFrombytes B => exact (hs.setId B).complete hf
  | @encoded _ L cs hi hL hcs hlen =>
    have hrlen : (Machine.brInit L s).rlen.toNat = L.length := by
      have ⟨_, hI, _⟩ := hs.admissible
      rw [brInit_rlen, BitVec.toNat_ofNat, Nat.mod_eq_of_lt (by omega)]
    refine ((hs.brInit hL).setSymbols (fun c hc => dtab_isSome_of_alphabet hcs hc) ?_ ?_).complete hf
    · exact hlen.trans_le (encodeSymbols_fit hs.admissible hL)
    · rw [hrlen]
      exact (sum_symbolWidth_encodeSymbols L).2
  | decoded hv hb => exact ((hs.setWriter hb).emitBytes hb.decodeSymbols_length_le).complete hf
  | identified hb B => exact (((hs.setWriter hb).emitBytes hb.decodeSymbols_length_le).setId B).complete hf
  | wrongLength hb hdecode => exact ((hs.setWriter hb).emitBytes hb.decodeSymbols_length_le).report_of_not_fault hf _
  | full hi hlen hv hover hb => exact (hs.setWriter hb).report_of_not_fault hf _
  | invalid hi hk hv hb => exact ((hs.setWriter hb).setOlen_setErridx _).report_of_not_fault hf _

theorem exec_inv {i : Instr} {s t : State} (hs : s.Inv) (h : exec i s = .next t) : t.Inv := by
  cases hf : s.status.fault with
  | true =>
    cases (exec_of_fault i hf).symm.trans h
    exact hs.report fun _ => rfl
  | false => exact (outcome_of_exec hf hs.admissible h).inv hf hs

theorem releaseReset_inv {s : State} (hs : s.Inv) : (releaseReset s).Inv := by
  unfold releaseReset
  split
  · exact atReset_inv hs.admissible _ _ _
  · exact hs

theorem Buffer.form_of_hostWrite {cap : Nat} {b b' : Buffer} (h : b.Rising ∧ b.Below cap)
    (hw : b' = b ∨ ∃ i v, i < cap ∧ b' = b.write i v) : b'.Rising ∧ b'.Below cap := by
  obtain rfl | ⟨i, v, hi, rfl⟩ := hw
  · exact h
  · exact ⟨Buffer.write_rising i v h.1, Buffer.write_below v h.2 hi⟩

theorem Performed.inv {s t : State} (hs : s.Inv) (h : Performed s t) : t.Inv := by
  cases h with
  | command h => exact exec_inv hs h
  | reported he => exact hs.report he
  | written hibuf hsin =>
    have ⟨hi, hobuf, hsi, hrest⟩ := hs.memory
    exact { hs with
      memory := ⟨Buffer.form_of_hostWrite hi hibuf, hobuf, Buffer.form_of_hostWrite hsi hsin, hrest⟩ }
  | loaded v => exact { hs with }
  | asserted => exact { hs with }
  | released => exact releaseReset_inv hs

/-- Settles O42: each of the ways an input can change the state keeps the invariant. -/
theorem stepKeepsInvariant : Obligations.StepKeepsInvariant := by
  unfold Obligations.StepKeepsInvariant
  intro s t hs h
  obtain rfl | ⟨q, hq⟩ := performed_of_step h
  · exact hs
  · have hs' : ({ s with inputs := q } : State).Inv := { hs with }
    exact hq.inv hs'

/-- Settles O41: the reference capacities are admissible ones. -/
theorem resetStateMeetsInvariant : Obligations.ResetStateMeetsInvariant := by
  unfold Obligations.ResetStateMeetsInvariant
  exact ⟨atReset_inv (by decide) _ _ _, fun c draws r inputs hc => atReset_inv hc draws r inputs⟩

/-! ### State.ExtentsWritten, piece by piece -/

/-- What is written from a buffer's start on is listed, and what was listed stays so. -/
theorem Buffer.listed_of_lt {b : Buffer} {L : List Byte} {i : Nat} (h : i < (BitVec.ofNat 32 L.length).toNat) :
    (b.writeList 0 L).Listed i :=
  (Buffer.listed_writeList b 0 L i).2 (.inl ⟨Nat.zero_le i, by have := toNat_ofNat_le L.length; omega⟩)

theorem State.ExtentsWritten.brInit {s : State} (h : s.ExtentsWritten) (L : List Byte) : (brInit L s).ExtentsWritten :=
  { h with rbuf := fun _ => Buffer.listed_of_lt }

theorem State.ExtentsWritten.setSymbols {s : State} (h : s.ExtentsWritten) (cs : List Byte) (n : Nat) :
    (s.setSymbols cs n).ExtentsWritten :=
  { h with sout := fun _ => Buffer.listed_of_lt }

theorem State.ExtentsWritten.emitBytes {s : State} (h : s.ExtentsWritten) (L : List Byte) :
    (s.emitBytes L).ExtentsWritten :=
  { h with obuf := fun _ => Buffer.listed_of_lt }

theorem Outcome.extentsWritten {i : Instr} {s t : State} (h : Outcome s i t) (hs : s.ExtentsWritten) :
    t.ExtentsWritten := by
  cases h with
  | rejected | scalar | rdRead | rdSeekback | wrInit | wrWrite | idFrombytes | full => exact { hs with }
  | rdInit => exact { hs.brInit _ with }
  | @emitted _ L => exact { hs.emitBytes L with }
  | @encoded _ L cs => exact { (hs.brInit L).setSymbols cs ((encodeSymbols L).map symbolWidth).sum with }
  | @decoded v | @identified v | @wrongLength v => exact { hs.emitBytes (decodeSymbols v) with }
  | invalid => exact { hs with obuf := fun i hi => absurd hi (Nat.not_lt_zero i) }

theorem exec_extentsWritten {i : Instr} {s t : State} (hc : s.cfg.Admissible) (hs : s.ExtentsWritten)
    (h : exec i s = .next t) : t.ExtentsWritten := by
  cases hf : s.status.fault with
  | true =>
    cases (exec_of_fault i hf).symm.trans h
    exact { hs with }
  | false => exact (outcome_of_exec hf hc h).extentsWritten hs

/-- R230, R231: after reset no element has been written, and none lies below a length. -/
theorem atReset_extentsWritten (c : Config) (draws : Nat) (r : Word) (inputs : List BusEvent) :
    (State.atReset c draws r inputs).ExtentsWritten where
  obuf i hi := absurd hi (Nat.not_lt_zero i)
  sout i hi := absurd hi (Nat.not_lt_zero i)
  rbuf i hi := absurd hi (Nat.not_lt_zero i)

theorem Performed.extentsWritten {s t : State} (hs : s.ExtentsWritten) (hc : s.cfg.Admissible) (h : Performed s t) :
    t.ExtentsWritten := by
  cases h with
  | command h => exact exec_extentsWritten hc hs h
  | reported | written | loaded | asserted => exact { hs with }
  | released =>
    unfold releaseReset
    split
    · exact atReset_extentsWritten _ _ _ _
    · exact hs

/-- Settles O44: each of the ways an input can change the state keeps it. -/
theorem stepKeepsExtentsWritten : Obligations.StepKeepsExtentsWritten := by
  unfold Obligations.StepKeepsExtentsWritten
  intro s t hc hs h
  obtain rfl | ⟨q, hq⟩ := performed_of_step h
  · exact hs
  · have hs' : ({ s with inputs := q } : State).ExtentsWritten := { hs with }
    exact hq.extentsWritten hs' hc

/-- Settles O43. -/
theorem resetStateExtentsWritten : Obligations.ResetStateExtentsWritten := by
  unfold Obligations.ResetStateExtentsWritten
  exact atReset_extentsWritten

end Sys2Proof.Machine
end

section
/-! PROOFS. The step beside its commands: where it stops, what it never changes, reset, and host reads (20_memory.md R66 to
R69, 70_reset_and_hazards.md R230 to R252). -/

namespace Sys2Proof.Machine

/-! ### Where a step stops (logs 5, 7, 8) -/

/-- Settles O7: `exec_exists_next`, command by command. -/
theorem everyCommandEndsInANextState : Obligations.EveryCommandEndsInANextState := by
  unfold Obligations.EveryCommandEndsInANextState
  exact exec_exists_next

/-- Log 8: the address is another device's. -/
theorem access_outside {s : State} {addr : Nat} (act : Nat → State → Answer)
    (h : addr < s.cfg.pBase ∨ s.cfg.pBase + 2 ^ 20 ≤ addr) : access addr act s = .refused .outsideWindow := by
  rw [access, Config.windowOffset, if_neg (by omega)]

/-- Log 7: R252 says nothing of an access during reset. -/
theorem access_during_reset {s : State} {off : Nat} (act : Nat → State → Answer) (hr : s.resetLine = true)
    (h : off < 2 ^ 20) : access (s.cfg.pBase + off) act s = .fault .accessDuringReset := by
  simp only [access, windowOffset_inside _ h, hr, if_true]

theorem writeCmd_exists_next (w : Word) (s : State) : ∃ t, writeCmd w s = .next t := by
  unfold writeCmd
  split
  · exact exec_exists_next _ s
  · exact (command_ends (body := fun s => .raised .illegalCommand s) (s := s) (ok := fun _ => False)
      (bad := fun e u => e = .illegalCommand ∧ u = s) ⟨rfl, rfl⟩).exists_next

theorem poke_exists_next (off size : Nat) (v : Word) (s : State) : ∃ t, poke off size v s = .next t := by
  by_cases hcmd : off = 0 ∧ size = 4
  · obtain ⟨rfl, rfl⟩ := hcmd
    obtain ⟨t, ht⟩ := writeCmd_exists_next v s
    exact ⟨t, (poke_offset s .cmd v).trans ht⟩
  · obtain ⟨t, ht, -⟩ := poke_cases (s := s) (v := v) hcmd
    exact ⟨t, ht⟩

/-- Settles O8: no input, an address outside the window, reset asserted, reset released, and the two edges. -/
theorem stepStopsOnlyOutsideTheCore : Obligations.StepStopsOnlyOutsideTheCore := by
  unfold Obligations.StepStopsOnlyOutsideTheCore
  refine ⟨fun s hin => ?_, fun s addr size v haddr => ⟨?_, ?_⟩, fun s off size v hr hoff => ⟨?_, ?_⟩,
    fun s off size v hr hoff => ⟨?_, ?_⟩, fun s => ⟨⟨_, rfl⟩, ⟨_, rfl⟩⟩⟩
  · rw [step, nextInput, hin]
  · rw [step_receiving, perform, access_outside _ haddr]
  · rw [step_receiving, perform, access_outside _ haddr]
  · rw [step_receiving, perform, access_during_reset _ hr hoff]
  · rw [step_receiving, perform, access_during_reset _ hr hoff]
  · rw [step_store size v hr hoff]
    exact poke_exists_next off size v s
  · exact ⟨_, step_load size hr hoff⟩

/-! ### What no command writes (R44, R234) -/

/-- `t` has from `s` all that no command writes: the parameters, ILEN, SILEN, WCAP, IBUF, SIN and what is outside. -/
def CommandFrame (s t : State) : Prop :=
  t = { s with status := t.status, result := t.result, olen := t.olen, solen := t.solen, rcur := t.rcur, rlen := t.rlen,
               wcur := t.wcur, erridx := t.erridx, idHi := t.idHi, idLo := t.idLo, obuf := t.obuf, sout := t.sout,
               rbuf := t.rbuf, wbuf := t.wbuf }

theorem CommandFrame.refl (s : State) : CommandFrame s s := rfl

theorem CommandFrame.complete {s t : State} (h : CommandFrame s t) : CommandFrame s t.complete := by
  rw [h]
  rfl

theorem CommandFrame.report {s t : State} (h : CommandFrame s t) (e : ErrKind) : CommandFrame s (t.report e) := by
  rw [h]
  rfl

theorem DecodeFails.frame {s u : State} {e : ErrKind} (h : DecodeFails s e u) : CommandFrame s u := by
  obtain ⟨-, hu⟩ | ⟨-, j, -, hu⟩ := h <;> rw [hu] <;> rfl

theorem CommandEnds.frame {s t : State} {ok : State → Prop} {bad : ErrKind → State → Prop} {a : Answer}
    (h : CommandEnds s ok bad a) (ha : a = .next t) (hok : ∀ u, ok u → CommandFrame s u)
    (hbad : ∀ e u, bad e u → CommandFrame s u) : CommandFrame s t :=
  h.elim ha ((CommandFrame.refl s).report _) (fun u hu => (hok u hu).complete) fun e u hu => (hbad e u hu).report e

theorem exec_frame {i : Instr} {s t : State} (h : exec i s = .next t) : CommandFrame s t := by
  cases i with
  | rdInit => exact (execRdInit_ends s).frame h (fun u hu => by rw [hu]; rfl) fun e u hu => by rw [hu.2]; rfl
  | rdHasmore => exact (execRdHasmore_ends s).frame h (fun u hu => by rw [hu]; rfl) fun e u hu => hu.elim
  | rdRead n =>
    exact (execRdRead_ends n s).frame h (fun u ⟨v, hu⟩ => by rw [hu]; rfl) fun e u hu => by rw [hu.2]; rfl
  | rdSeekback => exact (execRdSeekback_ends s).frame h (fun u hu => by rw [hu]; rfl) fun e u hu => by rw [hu.2]; rfl
  | wrInit => exact (execWrInit_ends s).frame h (fun u hu => by rw [hu]; rfl) fun e u hu => hu.elim
  | wrWrite n value =>
    exact (execWrWrite_ends n value s).frame h (fun u hu => by rw [hu]; rfl) fun e u hu => by rw [hu.2]; rfl
  | wrBtb => exact (execWrBtb_ends s).frame h (fun u hu => by rw [hu]; rfl) fun e u hu => hu.elim
  | wrTobytes => exact (execWrTobytes_ends s).frame h (fun u hu => by rw [hu]; rfl) fun e u hu => hu.elim
  | symEnc v =>
    exact (execSymEnc_ends v s).frame h (fun u ⟨c, _, hu⟩ => by rw [hu]; rfl) fun e u hu => by rw [hu.2.2]; rfl
  | symDec c =>
    exact (execSymDec_ends c s).frame h (fun u ⟨v, _, hu⟩ => by rw [hu]; rfl) fun e u hu => by rw [hu.2.2]; rfl
  | encode => exact (execEncode_ends s).frame h (fun u hu => by rw [hu]; rfl) fun e u hu => by rw [hu.2]; rfl
  | decode => exact (execDecode_ends s).frame h (fun u hu => by rw [hu]; rfl) fun e u hu => hu.frame
  | idTobytes => exact (execIdTobytes_ends s).frame h (fun u hu => by rw [hu]; rfl) fun e u hu => hu.elim
  | idFrombytes => exact (execIdFrombytes_ends s).frame h (fun u hu => by rw [hu]; rfl) fun e u hu => by rw [hu.2]; rfl
  | idTobase62 => exact (execIdTobase62_ends s).frame h (fun u hu => by rw [hu]; rfl) fun e u hu => by rw [hu.2]; rfl
  | idFrombase62 =>
    refine (execIdFrombase62_ends s).frame h (fun u hu => by rw [hu]; rfl) ?_
    rintro e u (hu | ⟨-, hu⟩)
    · exact hu.frame
    · rw [hu]
      rfl

theorem Performed.cfg_eq {s t : State} (h : Performed s t) : t.cfg = s.cfg := by
  cases h with
  | command h => rw [exec_frame h]
  | reported | written | loaded | asserted => rfl
  | released =>
    unfold releaseReset
    split <;> rfl

/-- Settles O9: no arriving input changes the parameters. -/
theorem parametersNeverChange : Obligations.ParametersNeverChange := by
  unfold Obligations.ParametersNeverChange
  intro s t h
  obtain rfl | ⟨q, hq⟩ := performed_of_step h
  · rfl
  · exact hq.cfg_eq

/-! ### Reset (R230, R231) -/

/-- R230: every register reads 0 after reset. -/
theorem readReg_atReset (r : HostReg) (c : Config) (draws : Nat) (d : Word) (inputs : List BusEvent) :
    readReg r (State.atReset c draws d inputs) = 0 := by
  cases r with
  | status =>
    show ({ err := none, fault := false } : Status).word = 0
    decide
  | idHiU | idHiL | idLoU | idLoL => exact BitVec.extractLsb'_zero
  | _ => rfl

theorem peek_atReset {k : Nat} (hk : k < 16) (c : Config) (draws : Nat) (d : Word) (inputs : List BusEvent) :
    peek (State.atReset c draws d inputs) (4 * k) 4 = 0 := by
  have hoffsets : ∀ k, k < 16 → ∃ r ∈ HostReg.all, r.offset = 4 * k := by decide
  obtain ⟨r, -, hr⟩ := hoffsets k hk
  rw [← hr, peek_offset, readReg_atReset]

theorem releaseReset_of_asserted {s : State} (hr : s.resetLine = true) :
    releaseReset s = State.atReset s.cfg (s.draws + 1) s.readData s.inputs := if_pos hr

theorem step_releaseReset {s : State} (hr : s.resetLine = true) :
    step (s.receiving .releaseReset) = .next (State.atReset s.cfg (s.draws + 1) s.readData s.inputs) := by
  rw [step_receiving, perform, releaseReset_of_asserted hr]

/-- Settles O45: the release leaves the state after reset, whose registers all read 0; and no command writes the count. -/
theorem resetClearsEveryRegister : Obligations.ResetClearsEveryRegister := by
  unfold Obligations.ResetClearsEveryRegister
  refine ⟨fun s => rfl, fun s hr => ⟨_, step_releaseReset hr, rfl, rfl, fun k hk => peek_atReset hk _ _ _ _,
    fun i => Buffer.read_nil 0 i, rfl, rfl⟩, fun k hk => peek_atReset hk _ _ _ _, fun i => Buffer.read_nil 0 i,
    fun i s t h => ?_⟩
  rw [exec_frame h]

/-- Settles O47: after reset nothing is listed, so every element reads as its draw. -/
theorem unwrittenElementsAreDraws : Obligations.UnwrittenElementsAreDraws := by
  unfold Obligations.UnwrittenElementsAreDraws
  refine ⟨fun c d r inputs k => ⟨rfl, rfl, rfl, rfl, rfl⟩, fun s t hr h => ?_⟩
  cases (step_releaseReset hr).symm.trans h
  rfl

/-! ### STATUS (R24) -/

/-- R24: the 3-bit code and the fault bit lie side by side. -/
theorem statusWord_fields (code : BitVec 3) (fault : Bool) :
    ((if fault then 8 else 0) ||| code.setWidth 32 : Word).getLsbD 3 = fault ∧
    ((if fault then 8 else 0) ||| code.setWidth 32 : Word).extractLsb' 0 3 = code ∧
    ((if fault then 8 else 0) ||| code.setWidth 32 : Word).toNat < 2 ^ 4 := by
  revert code fault
  decide

/-- Settles O48: the fields of the word, and R200's codes. -/
theorem statusWordLayout : Obligations.StatusWordLayout := by
  unfold Obligations.StatusWordLayout
  intro s
  obtain ⟨hfault, hcode, hlt⟩ := statusWord_fields s.status.errCode s.status.fault
  refine ⟨peek_offset s .status, hfault, fun k hk => ?_, (congrArg BitVec.toNat hcode).trans ?_⟩
  · exact Nat.testBit_lt_two_pow (hlt.trans_le (Nat.pow_le_pow_right (by decide) hk))
  · cases herr : s.status.err with
    | none => rw [Status.errCode, herr]; rfl
    | some e => rw [Status.errCode, herr]; cases e <;> rfl

/-! ### Host reads (R69) -/

/-- What the last read returned is no location. -/
theorem peek_setReadData (s : State) (off size : Nat) (v : Word) :
    peek { s with readData := v } off size = peek s off size := by
  simp only [peek]
  cases target s.cfg off size with
  | nothing => rfl
  | reg r => cases r <;> rfl
  | elem w i => cases w <;> rfl

/-- Settles O56: a load stores what `peek` gives in `readData`, which `peek` does not see. -/
theorem hostReadHasNoSideEffect : Obligations.HostReadHasNoSideEffect := by
  unfold Obligations.HostReadHasNoSideEffect
  exact fun s off size hr hoff => ⟨_, step_load size hr hoff, rfl, rfl, peek_setReadData s off size _⟩

end Sys2Proof.Machine
end

section
/-! PROOFS. The buffer windows and the reserved range (20_memory.md R65 to R67). -/

namespace Sys2Proof.Machine

/-! ### Where a window access goes -/

/-- R66: where a window starts. -/
def Window.base : Window → Nat
  | .ibuf => 0x10000
  | .obuf => 0x20000
  | .sin => 0x30000
  | .sout => 0x40000

theorem Window.base_add_lt (w : Window) {k : Nat} (hk : k < 0x10000) : w.base + k < 2 ^ 20 := by
  cases w with
  | ibuf | obuf | sin | sout => simp only [Window.base]; omega

/-- R66: a window is the 64 KiB region that starts at its base. -/
theorem Window.ofRegion_base (w : Window) :
    w.base % 0x10000 = 0 ∧ 0x10000 ≤ w.base ∧ Window.ofRegion (w.base / 0x10000) = some w := by
  cases w <;> decide

/-- R65, R66: an 8-bit access below the capacity touches an element, any other access in the window nothing. -/
theorem target_window (c : Config) (w : Window) {k : Nat} (size : Nat) (hk : k < 0x10000) :
    target c (w.base + k) size = if size = 1 ∧ k < w.capacity c then .elem w k else .nothing := by
  obtain ⟨haligned, habove, hregion⟩ := w.ofRegion_base
  have hdiv : (w.base + k) / 0x10000 = w.base / 0x10000 := by omega
  have hmod : (w.base + k) % 0x10000 = k := by omega
  have hwindow : ¬ w.base + k < 0x10000 := by omega
  simp only [target, if_neg hwindow, hdiv, hregion, hmod]

/-- R66: above the windows the range is reserved. -/
theorem target_reserved (c : Config) {off : Nat} (size : Nat) (h : 0x50000 ≤ off) : target c off size = .nothing := by
  have hnone : Window.ofRegion (off / 0x10000) = none := by
    unfold Window.ofRegion
    split
    case h_5 => rfl
    all_goals omega
  rw [target, if_neg (by omega), hnone]

/-! ### What it does -/

theorem KeptExcept.setIbuf {L : List Part} {s t : State} (h : KeptExcept L s t) (b : Buffer) :
    KeptExcept (.ibuf :: L) s { t with ibuf := b } :=
  h.write [.ibuf] fun p hp hk => by
    cases p with
    | ibuf => exact absurd (List.mem_singleton_self _) hp
    | _ => exact hk

theorem KeptExcept.setSin {L : List Part} {s t : State} (h : KeptExcept L s t) (b : Buffer) :
    KeptExcept (.sin :: L) s { t with sin := b } :=
  h.write [.sin] fun p hp hk => by
    cases p with
    | sin => exact absurd (List.mem_singleton_self _) hp
    | _ => exact hk

/-- R67: an 8-bit access below the capacity reads and writes its element. -/
theorem window_elem {s : State} {w : Window} {k : Nat} (hr : s.resetLine = false) (hk : k < 0x10000)
    (hcap : k < w.capacity s.cfg) (v : Word) :
    step (s.receiving (.store (s.cfg.pBase + (w.base + k)) 1 v)) = .next (writeElem w k (v.setWidth 8) s) ∧
    peek s (w.base + k) 1 = (readElem w k s).setWidth 32 := by
  have htarget : target s.cfg (w.base + k) 1 = .elem w k := by rw [target_window _ _ _ hk, if_pos ⟨rfl, hcap⟩]
  rw [step_store 1 v hr (w.base_add_lt hk), poke, peek, htarget]
  exact ⟨rfl, rfl⟩

/-- An access that touches nothing: the write is ignored and the read returns 0. -/
theorem access_nothing {s : State} {off size : Nat} (hr : s.resetLine = false) (hoff : off < 2 ^ 20)
    (h : target s.cfg off size = .nothing) (v : Word) :
    step (s.receiving (.store (s.cfg.pBase + off) size v)) = .next s ∧ peek s off size = 0 := by
  rw [step_store size v hr hoff, poke_of_nothing v h, peek_of_nothing h]
  exact ⟨rfl, rfl⟩

theorem window_nothing {s : State} {w : Window} {k size : Nat} (hr : s.resetLine = false) (hk : k < 0x10000)
    (h : ¬ (size = 1 ∧ k < w.capacity s.cfg)) (v : Word) :
    step (s.receiving (.store (s.cfg.pBase + (w.base + k)) size v)) = .next s ∧ peek s (w.base + k) size = 0 :=
  access_nothing hr (w.base_add_lt hk) (by rw [target_window _ _ _ hk, if_neg h]) v

/-- R67: the CORE alone writes OBUF and SOUT. -/
theorem window_store_ignored {s : State} {w : Window} (hw : w = .obuf ∨ w = .sout) {k size : Nat}
    (hr : s.resetLine = false) (hk : k < 0x10000) (v : Word) :
    step (s.receiving (.store (s.cfg.pBase + (w.base + k)) size v)) = .next s := by
  by_cases h : size = 1 ∧ k < w.capacity s.cfg
  · obtain ⟨rfl, hcap⟩ := h
    rw [(window_elem hr hk hcap v).1]
    obtain rfl | rfl := hw <;> rfl
  · exact (window_nothing hr hk h v).1

/-- Settles O58: in each window an access reaches its element or nothing, and above the windows nothing. -/
theorem hostWindowAccessRules : Obligations.HostWindowAccessRules := by
  unfold Obligations.HostWindowAccessRules
  intro s k size v hr _ hk
  refine ⟨fun hcap => ?_, fun hcap => ?_, fun hcap => ?_, fun hcap => ?_, fun base hbase => ?_, fun base hbase => ?_,
    fun off hlo hhi => access_nothing hr hhi (target_reserved _ _ hlo) v⟩
  · obtain ⟨hstore, hload⟩ := window_elem (w := .ibuf) hr hk hcap v
    exact ⟨⟨_, hstore, (KeptExcept.refl s).setIbuf _, fun j => Buffer.read_write _ _ _ _ _⟩, hload⟩
  · obtain ⟨hstore, hload⟩ := window_elem (w := .sin) hr hk hcap v
    exact ⟨⟨_, hstore, (KeptExcept.refl s).setSin _, fun j => Buffer.read_write _ _ _ _ _⟩, hload⟩
  · exact (window_elem (w := .obuf) hr hk hcap v).2
  · exact (window_elem (w := .sout) hr hk hcap v).2
  · fin_cases hbase
    · exact window_store_ignored (.inl rfl) hr hk v
    · exact window_store_ignored (.inr rfl) hr hk v
  · obtain ⟨rfl, hcap⟩ | ⟨rfl, hcap⟩ | ⟨rfl, hcap⟩ | ⟨rfl, hcap⟩ | ⟨hbase, hsize⟩ := hbase
    · exact window_nothing (w := .ibuf) hr hk (fun h => absurd h.2 (Nat.not_lt.2 hcap)) v
    · exact window_nothing (w := .obuf) hr hk (fun h => absurd h.2 (Nat.not_lt.2 hcap)) v
    · exact window_nothing (w := .sin) hr hk (fun h => absurd h.2 (Nat.not_lt.2 hcap)) v
    · exact window_nothing (w := .sout) hr hk (fun h => absurd h.2 (Nat.not_lt.2 hcap)) v
    · obtain ⟨w, -, rfl⟩ : ∃ w ∈ [Window.ibuf, .obuf, .sin, .sout], w.base = base := List.mem_map.1 hbase
      exact window_nothing hr hk (fun h => hsize h.1) v

end Sys2Proof.Machine
end

section
/-! PROOFS. DECODE and ID_FROMBASE62 (43_base62codec.md R156, R157, 44_identifiercodec.md R174, log 21). -/

namespace Sys2Proof.Machine

/-! ### DECODE (R156) -/

theorem KeptExcept.report {L : List Part} {s t : State} (h : KeptExcept L s t) {e : ErrKind} (he : e ≠ .boundsError) :
    KeptExcept (.err :: L) s (t.report e) :=
  h.write [.err] fun p hp hk => by
    cases p with
    | err => exact absurd (List.mem_singleton_self _) hp
    | fault =>
      show (t.status.fault || (e == .boundsError)) = s.status.fault
      rw [beq_false_of_ne he, Bool.or_false]
      exact hk
    | _ => exact hk

theorem KeptExcept.setOlen_setErridx {L : List Part} {s t : State} (h : KeptExcept L s t) (n k : Word) :
    KeptExcept (.olen :: .erridx :: L) s { t with olen := n, erridx := k } :=
  h.write [.olen, .erridx] fun p hp hk => by
    cases p with
    | olen | erridx => exact absurd (by decide) hp
    | _ => exact hk

/-- R124, R156: what DECODE leaves after valid characters. -/
theorem Deposit.bytesEmitted {s : State} {v : List Symbol} {b : Buffer} (hb : Deposit s (joinSymbols v []) b)
    (hc : s.cfg.Admissible) :
    BytesEmitted (decodeSymbols v) s ((s.setWriter b (joinSymbols v []).length).emitBytes (decodeSymbols v)) := by
  have hfit := hb.decodeSymbols_length_le
  have hsmall := wbufBits_lt hc
  exact emitBytes_bytesEmitted (s.setWriter b (joinSymbols v []).length) (by omega)

theorem decoded_kept (s : State) (b : Buffer) (n : Nat) (B : List Byte) :
    KeptExcept [.err, .wbuf, .wcur, .obuf, .olen] s ((s.setWriter b n).emitBytes B).complete :=
  (((KeptExcept.refl s).setWriter b _).emitBytes B).complete.mono (by decide)

theorem invalid_kept (s : State) (b : Buffer) (n : Nat) (k : Word) :
    KeptExcept [.err, .olen, .erridx, .wbuf, .wcur] s
      (({ s.setWriter b n with olen := 0, erridx := k } : State).report .invalidSymbol) :=
  (((KeptExcept.refl s).setWriter b _).setOlen_setErridx 0 k).report (by decide)

theorem full_kept (s : State) (b : Buffer) (n : Nat) :
    KeptExcept [.err, .wbuf, .wcur] s ((s.setWriter b n).report .capacityError) :=
  ((KeptExcept.refl s).setWriter b _).report (by decide)

/-- R34: a position in SIN is a number of 32 bits. -/
theorem toNat_ofNat_of_lt_silen {s : State} {k : Nat} (hk : k < s.silen.toNat) : (BitVec.ofNat 32 k).toNat = k := by
  rw [BitVec.toNat_ofNat, Nat.mod_eq_of_lt (hk.trans s.silen.isLt)]

/-- Settles O31: SILEN above the capacity, or b62_decode's three ways to end. -/
theorem decodeFollowsTheContributions : Obligations.DecodeFollowsTheContributions := by
  unfold Obligations.DecodeFollowsTheContributions
  refine ⟨by decide, fun s hf hc => ⟨fun hover => ?_, fun hlen v hv => ⟨fun hfit => ?_, fun hover => ?_⟩,
    fun hlen k v hk hv hinvalid => ?_⟩⟩
  · rw [exec_decode_of_gt hf hover, report_of_ne hf (by decide)]
  · obtain ⟨b, hb, hrun⟩ := b62Decode_of_valid hc hv hfit
    rw [exec_decode_of_le hf hlen, hrun]
    exact ⟨_, rfl, rfl, hb.holds, hb.bytesEmitted hc, decoded_kept s b _ _⟩
  · obtain ⟨b, hb, hrun⟩ := b62Decode_of_full hc hlen hv hover
    rw [exec_decode_of_le hf hlen, hrun]
    exact ⟨_, rfl, rfl, hb.holds, full_kept s b _⟩
  · obtain ⟨b, hb, hrun⟩ := b62Decode_of_invalid hc hlen hk hv hinvalid
    rw [exec_decode_of_le hf hlen, hrun]
    exact ⟨_, rfl, rfl, toNat_ofNat_of_lt_silen hk, rfl, hb.holds, invalid_kept s b _ _⟩

/-! ### ID_FROMBASE62 (R174) -/

/-- R174: the test of OLEN is a test of the number of bytes. -/
theorem emitBytes_olen_eq_iff {L : List Byte} (s : State) (h : L.length < 2 ^ 32) :
    (s.emitBytes L).olen = 16 ↔ L.length = 16 := by
  rw [State.emitBytes_olen]
  bv_omega

/-- R174: 16 decoded bytes are the identifier. -/
theorem exec_idFrombase62_of_valid {s : State} {v : List Symbol} (hf : s.status.fault = false) (hc : s.cfg.Admissible)
    (hlen : s.silen.toNat ≤ s.cfg.pSchars) (hv : SinSymbols s.silen.toNat v s)
    (hfit : (joinSymbols v []).length ≤ 8 * s.cfg.pObytes) :
    ∃ b, Deposit s (joinSymbols v []) b ∧ exec .idFrombase62 s =
      if (decodeSymbols v).length = 16 then
        .next (((s.setWriter b (joinSymbols v []).length).emitBytes (decodeSymbols v)).setId (decodeSymbols v)).complete
      else .next (((s.setWriter b (joinSymbols v []).length).emitBytes (decodeSymbols v)).report .lengthError) := by
  obtain ⟨b, hb, hrun⟩ := b62Decode_of_valid hc hv hfit
  have hsmall := wbufBits_lt hc
  have hbytes := hb.decodeSymbols_length_le
  refine ⟨b, hb, ?_⟩
  rw [exec_idFrombase62_of_done hf hlen hrun, ite_not]
  by_cases h16 : (decodeSymbols v).length = 16
  · obtain ⟨-, hread, -⟩ := hb.bytesEmitted hc
    rw [h16] at hread
    rw [if_pos ((emitBytes_olen_eq_iff _ (by omega)).2 h16), if_pos h16, hread]
  · rw [if_neg (mt (emitBytes_olen_eq_iff _ (by omega)).1 h16), if_neg h16]

/-- Settles O39: DECODE's ways to end, and after valid characters that fit, whether there are 16 bytes. -/
theorem idFrombase62DecodesTheIdentifier : Obligations.IdFrombase62DecodesTheIdentifier := by
  unfold Obligations.IdFrombase62DecodesTheIdentifier
  refine ⟨by decide, fun s hf hc => ⟨fun hover => ?_,
    fun hlen v hv => ⟨fun h16 hfit => ?_, fun h16 hfit => ?_, fun hover => ?_⟩, fun hlen k v hk hv hinvalid => ?_⟩⟩
  · rw [exec_idFrombase62_of_gt hf hover, report_of_ne hf (by decide)]
  · obtain ⟨b, hb, hrun⟩ := exec_idFrombase62_of_valid hf hc hlen hv hfit
    rw [hrun, if_pos h16]
    refine ⟨_, rfl, rfl, hb.holds, hb.bytesEmitted hc, idTobytes_idFrombytes h16, ?_⟩
    exact ((((KeptExcept.refl s).setWriter b _).emitBytes _).setId _).complete.mono (by decide)
  · obtain ⟨b, hb, hrun⟩ := exec_idFrombase62_of_valid hf hc hlen hv hfit
    rw [hrun, if_neg h16]
    refine ⟨_, rfl, rfl, hb.holds, hb.bytesEmitted hc, ?_⟩
    exact ((((KeptExcept.refl s).setWriter b _).emitBytes _).report (by decide)).mono (by decide)
  · obtain ⟨b, hb, hrun⟩ := b62Decode_of_full hc hlen hv hover
    exact ⟨_, exec_idFrombase62_of_raised hf hlen hrun, rfl, hb.holds, full_kept s b _⟩
  · obtain ⟨b, hb, hrun⟩ := b62Decode_of_invalid hc hlen hk hv hinvalid
    exact ⟨_, exec_idFrombase62_of_raised hf hlen hrun, rfl, toNat_ofNat_of_lt_silen hk, rfl, hb.holds,
      invalid_kept s b _ _⟩

/-! ### Room in the writer (R157, log 21) -/

/-- R157's bounds, for each way DECODE can end. -/
theorem Outcome.decode_bounds {s t : State} (h : Outcome s .decode t) (hlen : s.silen.toNat ≤ s.cfg.pSchars) :
    t.wcur.toNat ≤ 6 * s.silen.toNat + 1 ∧
    (t.status.err = none → t.olen.toNat ≤ (6 * s.silen.toNat + 1) / 8 ∧ t.olen.toNat ≤ s.cfg.pObytes) := by
  cases h with
  | rejected he hcap => exact absurd (hcap (List.mem_singleton.1 he)) (Nat.not_lt.2 hlen)
  | scalar hi => cases hi
  | emitted hi => cases hi
  | encoded hi => rcases hi with hi | hi <;> cases hi
  | @decoded v b hv hb =>
    have hcount := hv.length_eq
    have hjoin := joinSymbols_length v
    have hcur : (BitVec.ofNat 32 (joinSymbols v []).length).toNat = (joinSymbols v []).length := hb.holds.1
    have holen := toNat_ofNat_le (decodeSymbols v).length
    have hbytes := decodeSymbols_length v
    refine ⟨?_, fun _ => ⟨?_, holen.trans hb.decodeSymbols_length_le⟩⟩
    · show (BitVec.ofNat 32 (joinSymbols v []).length).toNat ≤ _
      omega
    · show (BitVec.ofNat 32 (decodeSymbols v).length).toNat ≤ _
      omega
  | @full _ v b hi hlen hv hover hb =>
    have hcount := hv.length_eq
    have hbits := innerBits_length_le v.dropLast
    have hcur := hb.holds.1
    rw [List.length_dropLast] at hbits
    refine ⟨?_, nofun⟩
    show (s.setWriter b _).wcur.toNat ≤ _
    omega
  | @invalid _ k v b hi hk hv hb =>
    have hcount := hv.length_eq
    have hbits := innerBits_length_le v
    have hcur := hb.holds.1
    refine ⟨?_, nofun⟩
    show (s.setWriter b _).wcur.toNat ≤ _
    omega

/-- A CapacityError means an excess before the command started, or capacities that are not roomy (log 21). -/
theorem Outcome.exceeds_of_capacityError {i : Instr} {s t : State} (h : Outcome s i t)
    (herr : t.status.err = some .capacityError) :
    Exceeds s i ∨ (i = .decode ∨ i = .idFrombase62) ∧ ¬ s.cfg.Roomy := by
  cases h with
  | rejected he hcap => exact .inl (hcap (Option.some.inj herr))
  | full hi hlen hv hover hb =>
    exact .inr ⟨hi, fun hroomy => absurd (joinSymbols_fits hroomy (hv.length_eq.trans_le hlen)) (Nat.not_le.2 hover)⟩
  | _ => cases herr

/-- Settles O32: R157's bounds, and a CapacityError's two causes, which the hypotheses exclude. -/
theorem decodeFitsUnderMarginedCapacities : Obligations.DecodeFitsUnderMarginedCapacities := by
  unfold Obligations.DecodeFitsUnderMarginedCapacities
  refine ⟨fun s t hf hc hlen h => (outcome_of_exec hf hc h).decode_bounds hlen,
    fun i s t hf hc hi henc hdec h herr => ?_⟩
  have hcause := (outcome_of_exec hf hc h).exceeds_of_capacityError herr
  fin_cases hi
  · obtain hover | ⟨hi | hi, -⟩ := hcause
    · exact absurd (henc rfl) (Nat.not_le.2 hover)
    · cases hi
    · cases hi
  · obtain ⟨hlen, hroomy⟩ := hdec (.inl rfl)
    obtain hover | ⟨-, hnot⟩ := hcause
    · exact absurd hlen (Nat.not_le.2 hover)
    · exact hnot hroomy
  · obtain hover | ⟨hi | hi, -⟩ := hcause
    · exact hover
    · cases hi
    · cases hi
  · obtain ⟨hlen, hroomy⟩ := hdec (.inr rfl)
    obtain hover | ⟨-, hnot⟩ := hcause
    · exact absurd hlen (Nat.not_le.2 hover)
    · exact hnot hroomy

/-- After reset, SIN and SILEN as the host writes them. -/
def withSin (c : Config) (cs : List Byte) : State :=
  { State.atReset c 0 0 [] with sin := Buffer.writeList [] 0 cs, silen := BitVec.ofNat 32 cs.length }

theorem withSin_inv {c : Config} (hc : c.Admissible) {cs : List Byte} (hcs : cs.length ≤ c.pSchars) :
    (withSin c cs).Inv :=
  have hs := atReset_inv hc 0 0 []
  have ⟨hibuf, hobuf, ⟨hr, hb⟩, hrest⟩ := hs.memory
  { hs with
    memory := ⟨hibuf, hobuf,
      ⟨Buffer.writeList_rising 0 cs hr, Buffer.writeList_below 0 cs hb (by rwa [Nat.zero_add])⟩, hrest⟩ }

theorem withSin_silen {c : Config} (hc : c.Admissible) {cs : List Byte} (hcs : cs.length ≤ c.pSchars) :
    (withSin c cs).silen.toNat = cs.length := by
  obtain ⟨-, -, -, -, hS, -⟩ := hc
  show (BitVec.ofNat 32 cs.length).toNat = cs.length
  rw [BitVec.toNat_ofNat, Nat.mod_eq_of_lt (by omega)]

theorem withSin_symbols {c : Config} (hc : c.Admissible) {cs : List Byte} (hcs : cs.length ≤ c.pSchars)
    {v : List Symbol} (hv : cs.map dtab = v.map some) : SinSymbols (withSin c cs).silen.toNat v (withSin c cs) := by
  rw [withSin_silen hc hcs, SinSymbols, ← hv]
  exact congrArg (List.map dtab) (memRead_writeList _ _ cs)

/-- `m` characters `A` and an `e`. -/
def fillingChars (m : Nat) : List Byte := List.replicate m 0x41 ++ [0x65]

/-- The values of `fillingChars` (R41): the last is compact. -/
def fillingSymbols (m : Nat) : List Symbol := List.replicate m 0 ++ [30]

@[simp] theorem fillingChars_length (m : Nat) : (fillingChars m).length = m + 1 := by simp [fillingChars]

theorem fillingChars_symbols (m : Nat) : (fillingChars m).map dtab = (fillingSymbols m).map some := by
  rw [fillingChars, fillingSymbols, List.map_append, List.map_append, List.map_replicate, List.map_replicate]
  rfl

/-- R156: each `A` takes 6 bits and the `e` takes 5. -/
theorem joinSymbols_fillingSymbols (m : Nat) : (joinSymbols (fillingSymbols m) []).length = 6 * m + 5 := by
  have hinner : (innerBits (List.replicate m 0)).length = 6 * m := by
    have hwidth : symbolWidth 0 = 6 := by decide
    rw [innerBits, List.length_flatMap, List.map_replicate, List.sum_replicate, bitsOfSymbol_length, hwidth, smul_eq_mul,
      Nat.mul_comm]
  have hcomp : compact (30 : Symbol) = true := by decide
  rw [fillingSymbols, joinSymbols_concat, if_pos hcomp, List.nil_append, List.length_append, hinner, bitsOfSymbol_length]

/-- Settles O33: 16/27/20 are such capacities; and at any of them, P_SCHARS − 1 characters `A` and an `e` do not fit,
because 6·P_SCHARS is even and above 8·P_OBYTES. -/
theorem decodeCanFillTheWriter : Obligations.DecodeCanFillTheWriter := by
  unfold Obligations.DecodeCanFillTheWriter
  refine ⟨⟨{ pIbytes := 16, pSchars := 27, pObytes := 20, pBase := 0 }, by decide, by decide⟩, fun c hc hroomy => ?_⟩
  have ⟨_, _, _, hS, _⟩ := hc
  have htight : 8 * c.pObytes < 6 * c.pSchars := Nat.lt_of_not_le hroomy
  have hcs : (fillingChars (c.pSchars - 1)).length ≤ c.pSchars := by rw [fillingChars_length]; omega
  have hlen : (withSin c (fillingChars (c.pSchars - 1))).silen.toNat ≤ c.pSchars := (withSin_silen hc hcs).trans_le hcs
  have hover : 8 * c.pObytes < (joinSymbols (fillingSymbols (c.pSchars - 1)) []).length := by
    rw [joinSymbols_fillingSymbols]
    omega
  obtain ⟨b, -, hrun⟩ := b62Decode_of_full (s := withSin c (fillingChars (c.pSchars - 1))) hc hlen
    (withSin_symbols hc hcs (fillingChars_symbols _)) hover
  exact ⟨_, _, rfl, withSin_inv hc hcs, rfl, hlen,
    (exec_decode_of_le rfl hlen).trans (congrArg Result.finish hrun), rfl⟩

end Sys2Proof.Machine
end

section
/-! PROOFS. What a command writes on success (10_state.md R44), and what a failing command leaves (60_exceptions.md §1
and §2). -/

namespace Sys2Proof.Machine

/-! ### On success (R44) -/

/-- R44, R68: `t` differs from `s` in the row of `i` and STATUS.ERR only, in OBUF below OLEN and in SOUT below SOLEN. -/
def WritesRow (i : Instr) (s t : State) : Prop :=
  KeptExcept (.err :: writesOnSuccess i) s t ∧ (∀ k, t.olen.toNat ≤ k → t.obufByte k = s.obufByte k) ∧
  ∀ k, t.solen.toNat ≤ k → t.soutChar k = s.soutChar k

/-- A command that writes neither OBUF nor SOUT. -/
theorem WritesRow.of_kept {i : Instr} {s t : State} (h : KeptExcept (.err :: writesOnSuccess i) s t)
    (hobuf : Part.obuf ∉ writesOnSuccess i) (hsout : Part.sout ∉ writesOnSuccess i) : WritesRow i s t :=
  ⟨h, fun k _ => h .obuf (by simpa using hobuf) k, fun k _ => h .sout (by simpa using hsout) k⟩

/-- A command that writes OBUF and not SOUT. -/
theorem WritesRow.of_bytesEmitted {i : Instr} {s t : State} {L : List Byte} (h : KeptExcept (.err :: writesOnSuccess i) s t)
    (hL : BytesEmitted L s t) (hsout : Part.sout ∉ writesOnSuccess i) : WritesRow i s t :=
  have ⟨holen, _, habove⟩ := hL
  ⟨h, fun k hk => habove k (holen ▸ hk), fun k _ => h .sout (by simpa using hsout) k⟩

theorem Outcome.writesRow {i : Instr} {s t : State} (h : Outcome s i t) (hc : s.cfg.Admissible)
    (hsuccess : t.status.err = none) : WritesRow i s t := by
  have hkept := KeptExcept.refl s
  cases h with
  | rejected | wrongLength | full | invalid => cases hsuccess
  | scalar hi v => exact .of_kept (by rw [hi]; exact (hkept.setResult v).complete) (by rw [hi]; decide) (by rw [hi]; decide)
  | rdInit => exact .of_kept (hkept.brInit _).complete (by decide) (by decide)
  | rdRead hn hin v =>
    have hobuf : Part.obuf ∉ [Part.result, .rcur] := by decide
    have hsout : Part.sout ∉ [Part.result, .rcur] := by decide
    exact .of_kept ((hkept.setRcur _).setResult v).complete hobuf hsout
  | rdSeekback => exact .of_kept (hkept.setRcur _).complete (by decide) (by decide)
  | wrInit => exact .of_kept (hkept.setWriter [] _).complete (by decide) (by decide)
  | @wrWrite n value b =>
    have hobuf : Part.obuf ∉ [Part.wbuf, .wcur] := by decide
    have hsout : Part.sout ∉ [Part.wbuf, .wcur] := by decide
    exact .of_kept (hkept.setWriter b _).complete hobuf hsout
  | @emitted _ L hi hL =>
    exact .of_bytesEmitted (by rw [hi]; exact (hkept.emitBytes L).complete) (emitBytes_bytesEmitted s hL)
      (by rw [hi]; decide)
  | idFrombytes B => exact .of_kept (hkept.setId B).complete (by decide) (by decide)
  | @encoded _ L cs hi hL hcs hlen =>
    have hrow : writesOnSuccess i = [.rbuf, .rlen, .rcur, .sout, .solen] := by obtain rfl | rfl := hi <;> rfl
    have hfit := encodeSymbols_fit hc hL
    obtain ⟨-, -, -, -, hS, -⟩ := hc
    obtain ⟨hsolen, -, habove⟩ := symbolsEmitted_writeList (Machine.brInit L s) hcs (by omega)
    have hmono : KeptExcept [.err, .rbuf, .rlen, .rcur, .sout, .solen] s
        ((Machine.brInit L s).setSymbols cs ((encodeSymbols L).map symbolWidth).sum).complete :=
      ((hkept.brInit L).setSymbols _ _ _).complete.mono (by decide)
    refine ⟨by rw [hrow]; exact hmono, fun k _ => rfl, fun k hk => habove k ?_⟩
    rw [← hsolen]
    rw [← hlen] at hsolen ⊢
    exact hk
  | @decoded v b hv hb => exact .of_bytesEmitted (decoded_kept s b _ _) (hb.bytesEmitted hc) (by decide)
  | @identified v b hb B =>
    exact .of_bytesEmitted ((((hkept.setWriter b _).emitBytes _).setId B).complete.mono (by decide)) (hb.bytesEmitted hc)
      (by decide)

/-- Settles O51: on success the outcome's own frame, and on any outcome what no command writes. -/
theorem commandsWriteOnlyTheirMatrixRow : Obligations.CommandsWriteOnlyTheirMatrixRow := by
  unfold Obligations.CommandsWriteOnlyTheirMatrixRow
  intro i s t hc h
  constructor
  · intro hsuccess
    cases hf : s.status.fault with
    | true =>
      cases (exec_of_fault i hf).symm.trans h
      cases hsuccess
    | false => exact (outcome_of_exec hf hc h).writesRow hc hsuccess
  · rw [exec_frame h]
    exact ⟨rfl, rfl, rfl, fun _ => rfl, fun _ => rfl, rfl, rfl, rfl, rfl, rfl⟩

/-! ### On failure (60_exceptions.md §2) -/

theorem boundsError_mem_rejections {i : Instr} (h : .boundsError ∈ i.rejections) :
    i = .rdSeekback ∨ ∃ n, i = .rdRead n := by
  cases i with
  | rdSeekback => exact .inl rfl
  | rdRead n => exact .inr ⟨n, rfl⟩
  | _ => simp [Instr.rejections] at h

theorem invalidSymbol_mem_rejections {i : Instr} (h : .invalidSymbol ∈ i.rejections) :
    ∃ x, i = .symEnc x ∨ i = .symDec x := by
  cases i with
  | symEnc x => exact ⟨x, .inl rfl⟩
  | symDec x => exact ⟨x, .inr rfl⟩
  | _ => simp [Instr.rejections] at h

theorem lengthError_mem_rejections {i : Instr} (h : .lengthError ∈ i.rejections) : i = .idFrombytes := by
  cases i with
  | idFrombytes => rfl
  | _ => simp [Instr.rejections] at h

/-- Settles O52: under FAULT a command only reports; else it is rejected, or it is DECODE or ID_FROMBASE62 in one of their
failing ways. -/
theorem failingCommandsWriteOnlyTheirReport : Obligations.FailingCommandsWriteOnlyTheirReport := by
  unfold Obligations.FailingCommandsWriteOnlyTheirReport
  intro i s t e hc h herr
  cases hf : s.status.fault with
  | true =>
    cases (exec_of_fault i hf).symm.trans h
    cases herr
    exact ⟨report_boundsError, .inl rfl⟩
  | false =>
    cases outcome_of_exec hf hc h with
    | @rejected _ e' he hcap =>
      cases herr
      cases e with
      | illegalCommand => exact report_of_ne hf (by decide)
      | capacityError => exact .inl (report_of_ne hf (by decide))
      | boundsError => exact ⟨report_boundsError, .inr (boundsError_mem_rejections he)⟩
      | invalidSymbol => exact .inl ⟨invalidSymbol_mem_rejections he, report_of_ne hf (by decide)⟩
      | lengthError => exact .inl ⟨lengthError_mem_rejections he, report_of_ne hf (by decide)⟩
    | wrongLength hb hdecode =>
      cases herr
      exact .inr ⟨rfl, _, hdecode, rfl, report_of_ne hf (by decide)⟩
    | @full _ v b hi hlen hv hover hb =>
      cases herr
      have htight : ¬ s.cfg.Roomy := fun hroomy =>
        absurd (joinSymbols_fits hroomy (hv.length_eq.trans_le hlen)) (Nat.not_le.2 hover)
      exact .inr ⟨htight, hi, full_kept s b _, v, hv, hb.holds⟩
    | @invalid _ k v b hi hk hv hb =>
      cases herr
      have hidx : (BitVec.ofNat 32 k).toNat = k := toNat_ofNat_of_lt_silen hk
      exact .inr ⟨hi, rfl, invalid_kept s b _ _, v, hidx.symm ▸ hv, hb.holds⟩
    | _ => cases herr

/-! ### The composite commands (60_exceptions.md §1) -/

/-- The errors that come after something was written. -/
theorem Outcome.err_cases {i : Instr} {s t : State} (h : Outcome s i t) {e : ErrKind} (herr : t.status.err = some e) :
    e ∈ i.rejections ∨ (e = .capacityError ∨ e = .invalidSymbol) ∧ (i = .decode ∨ i = .idFrombase62) ∨
    e = .lengthError ∧ i = .idFrombase62 := by
  cases h with
  | rejected he => cases herr; exact .inl he
  | wrongLength => cases herr; exact .inr (.inr ⟨rfl, rfl⟩)
  | full hi => cases herr; exact .inr (.inl ⟨.inl rfl, hi⟩)
  | invalid hi => cases herr; exact .inr (.inl ⟨.inr rfl, hi⟩)
  | _ => cases herr

/-- R205: a string that starts with `+` has its first invalid character at position 0. -/
theorem withSin_plus_invalid :
    (withSin Config.reference [0x2B]).silen.toNat ≤ Config.reference.pSchars ∧
    0 < (withSin Config.reference [0x2B]).silen.toNat ∧ dtab ((withSin Config.reference [0x2B]).sinChar 0) = none := by
  decide

/-- Settles O53: the errors of each composite command among its outcomes, and for the four that can occur, `+` in SIN, and
the state after reset, where ILEN and SILEN are 0. -/
theorem compositeCommandErrors : Obligations.CompositeCommandErrors := by
  unfold Obligations.CompositeCommandErrors
  have hc : Config.reference.Admissible := by decide
  have hplus : (withSin Config.reference [0x2B]).Inv := withSin_inv hc (by decide)
  obtain ⟨hlen, hpos, hinvalid⟩ := withSin_plus_invalid
  refine ⟨fun i s t hf hc h hi => ?_, ?_, ?_, ?_, ?_⟩
  · have herrs := fun e => (outcome_of_exec hf hc h).err_cases (e := e)
    refine ⟨fun herr => ?_, fun herr => ?_, fun herr => ?_⟩
    · obtain hrej | ⟨he | he, -⟩ | ⟨he, -⟩ := herrs _ herr
      · obtain rfl | ⟨n, rfl⟩ := boundsError_mem_rejections hrej <;> simp at hi
      · cases he
      · cases he
      · cases he
    · obtain hrej | ⟨-, hdec⟩ | ⟨he, -⟩ := herrs _ herr
      · obtain ⟨x, rfl | rfl⟩ := invalidSymbol_mem_rejections hrej <;> simp at hi
      · exact hdec
      · cases he
    · obtain hrej | ⟨he | he, -⟩ | ⟨-, hid⟩ := herrs _ herr
      · exact .inl (lengthError_mem_rejections hrej)
      · cases he
      · cases he
      · exact .inr hid
  · obtain ⟨b, -, hrun⟩ := b62Decode_of_invalid (v := []) hc hlen hpos rfl hinvalid
    exact ⟨_, _, hplus, rfl, (exec_decode_of_le rfl hlen).trans (congrArg Result.finish hrun), rfl⟩
  · exact ⟨State.reset, _, atReset_inv hc _ _ _, rfl, exec_idFrombytes_of_short rfl (by decide) (by decide), rfl⟩
  · obtain ⟨b, -, hrun⟩ := b62Decode_of_invalid (v := []) hc hlen hpos rfl hinvalid
    exact ⟨_, _, hplus, rfl, exec_idFrombase62_of_raised rfl hlen hrun, rfl⟩
  · obtain ⟨b, -, hrun⟩ := exec_idFrombase62_of_valid (s := State.reset) (v := []) rfl hc (by decide) rfl (by decide)
    exact ⟨State.reset, _, atReset_inv hc _ _ _, rfl, hrun.trans (if_neg (by decide)), rfl⟩

end Sys2Proof.Machine
end

section
/-! PROOFS. ENCODE's bounds, and decoding what was encoded (43_base62codec.md R150 to R159, 44_identifiercodec.md R170 to
R175). -/

namespace Sys2Proof.Machine

/-! ### What ENCODE and ID_TOBASE62 leave (R150, R173) -/

/-- R150: ENCODE within the capacity has one way to end. -/
theorem encode_spec {s : State} (hf : s.status.fault = false) (hc : s.cfg.Admissible)
    (hfit : s.ilen.toNat ≤ s.cfg.pIbytes) :
    ∃ t, exec .encode s = .next t ∧ t.status.err = none ∧
      SymbolsEmitted (encodeSymbols (memRead s.ibufByte s.ilen.toNat)) s t ∧
      ReaderOver (memRead s.ibufByte s.ilen.toNat)
        ((encodeSymbols (memRead s.ibufByte s.ilen.toNat)).map symbolWidth).sum s t :=
  have ⟨t, hrun, herr, hsymbols, hreader, _⟩ := (encodeFollowsTheBitStream.2 s hf hc).1 hfit
  ⟨t, hrun, herr, hsymbols, hreader⟩

/-- R173: ID_TOBASE62 has one way to end. -/
theorem idTobase62_spec {s : State} (hf : s.status.fault = false) (hc : s.cfg.Admissible) :
    ∃ t, exec .idTobase62 s = .next t ∧ SymbolsEmitted (encodeSymbols (idTobytes s.idHi s.idLo)) s t :=
  have ⟨t, hrun, _, hsymbols, _⟩ := idTobase62EncodesTheIdentifier.2 s hf hc
  ⟨t, hrun, hsymbols⟩

/-- The stream of an all-zero identifier has no compact value, that of an all-ones one has nothing else (R151). -/
theorem encodeSymbols_extreme_lengths :
    (encodeSymbols (idTobytes 0 0)).length = 22 ∧
    (encodeSymbols (idTobytes (BitVec.allOnes 64) (BitVec.allOnes 64))).length = 26 := by
  decide +kernel

/-- Settles O28: R151 for ILEN bytes and for the identifier's 16; the two extreme identifiers are evaluated. -/
theorem encodeLengthIsBounded : Obligations.EncodeLengthIsBounded := by
  unfold Obligations.EncodeLengthIsBounded
  refine ⟨fun s t hf hc hfit h => ?_, fun s t hf hc h => ?_⟩
  · obtain ⟨u, hrun, herr, ⟨hsolen, -, -⟩, -⟩ := encode_spec hf hc hfit
    cases hrun.symm.trans h
    have hbounds := encodeSymbols_length (memRead s.ibufByte s.ilen.toNat)
    rw [memRead_length] at hbounds
    rw [hsolen]
    exact ⟨herr, hbounds⟩
  · obtain ⟨u, hrun, hsolen, -, -⟩ := idTobase62_spec hf hc
    cases hrun.symm.trans h
    have ⟨hlo, hhi⟩ := encodeSymbols_length (idTobytes s.idHi s.idLo)
    rw [idTobytes_length] at hlo hhi
    rw [hsolen]
    refine ⟨hlo, hhi, fun h1 h2 => ?_, fun h1 h2 => ?_⟩
    · rw [h1, h2]
      exact encodeSymbols_extreme_lengths.1
    · rw [h1, h2]
      exact encodeSymbols_extreme_lengths.2

/-- R42, R68: the characters that SOUT gives have the emitted symbols as their values. -/
theorem SymbolsEmitted.dtab_soutChar {v : List Symbol} {s t : State} (h : SymbolsEmitted v s t) :
    (memRead t.soutChar v.length).map dtab = v.map some := by
  obtain ⟨-, hchars, -⟩ := h
  refine List.ext_getElem (by simp) fun k hk hk' => ?_
  have hchar := List.getElem_of_eq hchars (i := k) (by simpa using hk)
  simp only [List.getElem_map] at hchar ⊢
  exact dtab_eq_some_iff_alpha.2 hchar.symm

/-- Settles O29: the command ends in a next state, and each character's value is a symbol. -/
theorem encodeEmitsOnlyAlphabetCharacters : Obligations.EncodeEmitsOnlyAlphabetCharacters := by
  unfold Obligations.EncodeEmitsOnlyAlphabetCharacters
  intro s hf hc hfit
  obtain ⟨t, hrun, -, hsymbols, -⟩ := encode_spec hf hc hfit
  refine ⟨fun h => (by cases hrun.symm.trans h), fun u hu k hk => ?_⟩
  cases hrun.symm.trans hu
  have ⟨hsolen, _, _⟩ := hsymbols
  rw [hsolen] at hk
  have hmem : dtab (t.soutChar k) ∈ (memRead t.soutChar (encodeSymbols (memRead s.ibufByte s.ilen.toNat)).length).map dtab :=
    List.mem_map_of_mem (List.mem_map_of_mem (List.mem_range.2 hk))
  rw [hsymbols.dtab_soutChar] at hmem
  obtain ⟨x, -, hx⟩ := List.mem_map.1 hmem
  rw [← hx, Option.isSome_some]

/-- Settles O30: the symbols' widths add up to the stream's length and at most 5 more. -/
theorem encodeConsumesEveryBit : Obligations.EncodeConsumesEveryBit := by
  unfold Obligations.EncodeConsumesEveryBit
  intro s t hf hc hfit h
  obtain ⟨u, hrun, -, -, -, hrcur, -⟩ := encode_spec hf hc hfit
  cases hrun.symm.trans h
  have hsum := sum_symbolWidth_encodeSymbols (memRead s.ibufByte s.ilen.toNat)
  rw [memRead_length] at hsum
  rw [hrcur]
  exact hsum

/-! ### Decoding what was encoded (R159) -/

/-- The bits that a symbol took from a stream are the stream's first. -/
theorem bitsOfSymbol_eq_take {S : List Bool} {n : Nat} {x : Symbol} (hx : ∀ j, j < n → x.getLsbD j = S.getD j false) :
    bitsOfSymbol (min n S.length) x = S.take n := by
  refine List.ext_getElem (by simp) fun j hj hj' => ?_
  rw [bitsOfSymbol_length] at hj
  have hjS : j < S.length := by omega
  simp only [bitsOfSymbol, List.getElem_map, List.getElem_range, List.getElem_take]
  rw [hx j (by omega), List.getD_eq_getElem _ _ hjS]

theorem symbolsOfBits_isEmpty {f : Nat} {B : List Bool} (hf : B.length ≤ f) : (symbolsOfBits f B).isEmpty = B.isEmpty := by
  have hlen := symbolsOfBits_length hf
  rw [Bool.eq_iff_iff, List.isEmpty_iff_length_eq_zero, List.isEmpty_iff_length_eq_zero]
  omega

/-- R156 against R150: a symbol contributes the bits it took; where fewer were left they end on the byte boundary that
rule b goes to. -/
theorem contribution_eq_min {P S : List Bool} {x : Symbol} (hpos : 0 < S.length)
    (hcomp : compact x = true → 5 ≤ S.length) (h8 : (P.length + S.length) % 8 = 0) :
    (if compact x then 5 else if (S.drop (symbolWidth x)).isEmpty then (8 - P.length % 8) % 8 else 6) =
      min (symbolWidth x) S.length := by
  cases hx : compact x with
  | true =>
    have h5 := hcomp hx
    have hw : symbolWidth x = 5 := if_pos hx
    rw [hw, if_pos rfl, Nat.min_eq_left h5]
  | false =>
    have hw : symbolWidth x = 6 := by simp [symbolWidth, hx]
    have hlast : (S.drop 6).isEmpty = true ↔ S.length ≤ 6 := by
      rw [List.isEmpty_iff_length_eq_zero, List.length_drop, Nat.sub_eq_zero_iff_le]
    simp only [hw, hlast, Bool.false_eq_true, if_false]
    split <;> omega

/-- R159: the symbols of a stream that ends on a byte boundary contribute its bits. -/
theorem joinSymbols_symbolsOfBits {f : Nat} {P S : List Bool} (hf : S.length ≤ f) (h8 : (P.length + S.length) % 8 = 0) :
    joinSymbols (symbolsOfBits f S) P = P ++ S := by
  induction f generalizing P S with
  | zero =>
    obtain rfl : S = [] := List.length_eq_zero_iff.1 (Nat.le_zero.1 hf)
    rw [symbolsOfBits_nil, joinSymbols, List.append_nil]
  | succ f ih =>
    cases S with
    | nil => rw [symbolsOfBits_nil, joinSymbols, List.append_nil]
    | cons b B =>
      obtain ⟨x, hsplit, hcomp, hbits⟩ := symbolsOfBits_cons (f := f) (b := b) (B := B)
      have hw : 5 ≤ symbolWidth x := by unfold symbolWidth; split <;> decide
      have hrest : ((b :: B).drop (symbolWidth x)).length ≤ f := by
        rw [List.length_cons] at hf
        rw [List.length_drop, List.length_cons]
        omega
      have hn := contribution_eq_min (S := b :: B) (x := x) (Nat.succ_pos B.length)
        (fun h => five_le_of_compact (hcomp ▸ h)) h8
      have hjoin : joinSymbols (symbolsOfBits (f + 1) (b :: B)) P =
          joinSymbols (symbolsOfBits f ((b :: B).drop (symbolWidth x))) (P ++ (b :: B).take (symbolWidth x)) := by
        rw [hsplit, joinSymbols, symbolsOfBits_isEmpty hrest, hn, bitsOfSymbol_eq_take hbits]
      rw [hjoin, ih hrest, List.append_assoc, List.take_append_drop]
      rw [List.length_append, Nat.add_assoc, ← List.length_append, List.take_append_drop]
      exact h8

/-- R159. -/
theorem joinSymbols_encodeSymbols (L : List Byte) : joinSymbols (encodeSymbols L) [] = bitsOfBytes L := by
  have h8 : (([] : List Bool).length + (bitsOfBytes L).length) % 8 = 0 := by
    rw [bitsOfBytes_length, List.length_nil]
    omega
  exact joinSymbols_symbolsOfBits le_rfl h8

/-- R60, R124: the complete bytes of a byte list's bits are the list. -/
theorem completeBytes_bitsOfBytes (L : List Byte) : completeBytes (bitsOfBytes L) = L := by
  have hlen : (bitsOfBytes L).length / 8 = L.length := by rw [bitsOfBytes_length]; omega
  rw [completeBytes, hlen]
  refine List.ext_getElem (by simp) fun q hq hq' => BitVec.eq_of_getLsbD_eq fun j hj => ?_
  have hget : ((bitsOfBytes L).drop (8 * q)).getD j false = L[q].getLsbD j := by
    rw [getD_drop, bitsOfBytes_getD, show (8 * q + j) / 8 = q by omega, show (8 * q + j) % 8 = j by omega,
      List.getD_eq_getElem _ _ hq']
  rw [List.getElem_map, List.getElem_range, BitVec.getLsbD_ofNat, natOfBits_testBit, ← hget]
  simp [hj, List.getD]

theorem decodeSymbols_encodeSymbols (L : List Byte) : decodeSymbols (encodeSymbols L) = L := by
  rw [decodeSymbols, joinSymbols_encodeSymbols, completeBytes_bitsOfBytes]

/-- SIN and SILEN are SOUT and SOLEN copied: the characters decode to the emitted symbols. -/
theorem SymbolsEmitted.sinSymbols {v : List Symbol} {s t u : State} (h : SymbolsEmitted v s t) (hlen : u.silen = t.solen)
    (hcopy : ∀ k, k < t.solen.toNat → u.sinChar k = t.soutChar k) : SinSymbols u.silen.toNat v u := by
  have ⟨hsolen, _, _⟩ := h
  rw [SinSymbols, hlen, hsolen, ← h.dtab_soutChar]
  exact congrArg (List.map dtab) (memRead_congr fun k hk => hcopy k (hsolen ▸ hk))

/-- R6: what IBUF can hold, OBUF can, so its bits fit the writer. -/
theorem joinSymbols_encodeSymbols_fits {c : Config} (hc : c.Admissible) {L : List Byte} (hL : L.length ≤ c.pIbytes) :
    (joinSymbols (encodeSymbols L) []).length ≤ 8 * c.pObytes := by
  obtain ⟨hI, -, hS, -, -, hO, -⟩ := hc
  rw [joinSymbols_encodeSymbols, bitsOfBytes_length]
  omega

/-- R6, R151: the symbols of what IBUF can hold fit SIN as they fit SOUT. -/
theorem silen_of_encoded {u : State} {L : List Byte} (hc : u.cfg.Admissible) (hL : L.length ≤ u.cfg.pIbytes)
    (hv : SinSymbols u.silen.toNat (encodeSymbols L) u) : u.silen.toNat ≤ u.cfg.pSchars :=
  hv.length_eq.symm.trans_le (encodeSymbols_fit hc hL)

/-- R159: DECODE of the characters of `L`'s symbols emits `L`. -/
theorem decode_of_encoded {u : State} {L : List Byte} (hf : u.status.fault = false) (hc : u.cfg.Admissible)
    (hL : L.length ≤ u.cfg.pIbytes) (hv : SinSymbols u.silen.toNat (encodeSymbols L) u) :
    ∃ t, exec .decode u = .next t ∧ t.status.err = none ∧ BytesEmitted L u t := by
  obtain ⟨b, hb, hrun⟩ := b62Decode_of_valid hc hv (joinSymbols_encodeSymbols_fits hc hL)
  have hbytes := hb.bytesEmitted hc
  rw [decodeSymbols_encodeSymbols] at hrun hbytes
  exact ⟨_, (exec_decode_of_le hf (silen_of_encoded hc hL hv)).trans (congrArg Result.finish hrun), rfl, hbytes⟩

/-- Settles O34: the characters that ENCODE left have the symbols of IBUF's bytes. -/
theorem encodeThenDecodeIsIdentity : Obligations.EncodeThenDecodeIsIdentity := by
  unfold Obligations.EncodeThenDecodeIsIdentity
  intro s hf hc hfit
  obtain ⟨t, hrun, -, hsymbols, -⟩ := encode_spec hf hc hfit
  refine ⟨t, hrun, fun u huf hcfg hlen hcopy => ?_⟩
  have hL : (memRead s.ibufByte s.ilen.toNat).length ≤ u.cfg.pIbytes := by rwa [memRead_length, hcfg]
  obtain ⟨v, hdecode, herr, holen, hread, -⟩ :=
    decode_of_encoded huf (hcfg ▸ hc) hL (hsymbols.sinSymbols hlen hcopy)
  rw [memRead_length] at holen hread
  exact ⟨v, hdecode, herr, BitVec.eq_of_toNat_eq holen, fun i hi => eq_of_memRead_eq hread hi⟩

/-! ### Identifiers (R170, R175) -/

/-- R170: byte `k` of a half, most significant first. -/
theorem halfBytes_getElem? (h : IdHalf) {k : Nat} (hk : k < 8) :
    (halfBytes h)[k]? = some (h.extractLsb' (56 - 8 * k) 8) := by
  interval_cases k <;> rfl

/-- The 8 bytes determine the half: bit `j` is in byte `7 - j div 8`. -/
theorem halfBytes_injective : Function.Injective halfBytes := by
  intro h g heq
  refine BitVec.eq_of_getLsbD_eq fun j hj => ?_
  have hk : 7 - j / 8 < 8 := by omega
  have hbyte : h.extractLsb' (56 - 8 * (7 - j / 8)) 8 = g.extractLsb' (56 - 8 * (7 - j / 8)) 8 := by
    rw [← Option.some.injEq, ← halfBytes_getElem? h hk, ← halfBytes_getElem? g hk, heq]
  have hbit := congrArg (fun b => b.getLsbD (j % 8)) hbyte
  have hj8 : 56 - 8 * (7 - j / 8) + j % 8 = j := by omega
  simpa [BitVec.getLsbD_extractLsb', hj8, Nat.mod_lt] using hbit

/-- R170: reading a half's bytes gives the half. -/
theorem halfOfBytes_halfBytes (h : IdHalf) : halfOfBytes (halfBytes h) = h :=
  halfBytes_injective (halfBytes_halfOfBytes (halfBytes_length h))

/-- R170: only the first 16 bytes are read, and they are the identifier's. -/
theorem idFrombytes_idTobytes_append (hi lo : IdHalf) (rest : List Byte) :
    idFrombytes (idTobytes hi lo ++ rest) = (hi, lo) := by
  rw [idTobytes, List.append_assoc, idFrombytes, List.take_left' (halfBytes_length hi),
    List.drop_left' (halfBytes_length hi), List.take_left' (halfBytes_length lo), halfOfBytes_halfBytes,
    halfOfBytes_halfBytes]

/-- Settles O35: the bytes of each half in their order, and the halves read back. -/
theorem identifierBytesRoundTrip : Obligations.IdentifierBytesRoundTrip := by
  unfold Obligations.IdentifierBytesRoundTrip
  refine fun hi lo => ⟨idTobytes_length hi lo, fun k hk => ?_, fun k hk => ?_, idFrombytes_idTobytes_append hi lo⟩
  · rw [idTobytes, List.getElem?_append_left (by rwa [halfBytes_length]), halfBytes_getElem? hi hk]
  · rw [idTobytes, List.getElem?_append_right (by rw [halfBytes_length]; omega), halfBytes_length,
      Nat.add_sub_cancel_left, halfBytes_getElem? lo hk]

/-- Settles O40: the characters that ID_TOBASE62 left decode to the identifier's 16 bytes, which are read back. -/
theorem identifierBase62RoundTrip : Obligations.IdentifierBase62RoundTrip := by
  unfold Obligations.IdentifierBase62RoundTrip
  intro s hf hc
  obtain ⟨t, hrun, hsymbols⟩ := idTobase62_spec hf hc
  refine ⟨t, hrun, fun u huf hcfg hlen hcopy => ?_⟩
  have hcu : u.cfg.Admissible := hcfg ▸ hc
  have ⟨hI, _⟩ := hcu
  have hL : (idTobytes s.idHi s.idLo).length ≤ u.cfg.pIbytes := hI
  have hv := hsymbols.sinSymbols hlen hcopy
  obtain ⟨b, -, hexec⟩ := exec_idFrombase62_of_valid huf hcu (silen_of_encoded hcu hL hv) hv
    (joinSymbols_encodeSymbols_fits hcu hL)
  rw [decodeSymbols_encodeSymbols, if_pos (idTobytes_length _ _)] at hexec
  have hid := idFrombytes_idTobytes_append s.idHi s.idLo []
  rw [List.append_nil] at hid
  exact ⟨_, hexec, rfl, congrArg Prod.fst hid, congrArg Prod.snd hid⟩

end Sys2Proof.Machine
end

section
/-! PROOFS. What the reset state means for the units (70_reset_and_hazards.md R233). -/

namespace Sys2Proof.Machine

/-- R233: the zero identifier's bytes, and their stream's symbols. -/
theorem idTobytes_zero : idTobytes 0 0 = List.replicate 16 0 := by decide

theorem encodeSymbols_idTobytes_zero : encodeSymbols (idTobytes 0 0) = List.replicate 22 0 := by decide +kernel

/-- R40: the symbol 0 is written `A`. -/
theorem map_alpha_zeros (n : Nat) :
    (List.replicate n (0 : Symbol)).map (fun x => alpha (x.setWidth 8)) = (List.replicate n 0x41).map some := by
  rw [List.map_replicate, List.map_replicate]
  rfl

theorem wcur_atReset (c : Config) (draws : Nat) (r : Word) (inputs : List BusEvent) :
    (State.atReset c draws r inputs).wcur.toNat = 0 := rfl

/-- R123, R233: an empty writer is aligned. -/
theorem bwBtb_atReset (c : Config) (draws : Nat) (r : Word) (inputs : List BusEvent) :
    bwBtb (State.atReset c draws r inputs) = 0 := by
  rw [bwBtb, wcur_atReset]

/-- R124, R233: an empty writer has no complete bytes. -/
theorem bwTobytes_atReset (c : Config) (draws : Nat) (r : Word) (inputs : List BusEvent) :
    bwTobytes (State.atReset c draws r inputs) = [] := by
  rw [bwTobytes, wcur_atReset, Nat.zero_div, memRead_zero]

/-- Settles O46: each command's way to end from registers that are 0. -/
theorem resetUnitsAreEmpty : Obligations.ResetUnitsAreEmpty := by
  unfold Obligations.ResetUnitsAreEmpty
  rintro c draws r inputs hc s rfl
  refine ⟨exec_rdHasmore_of_rlen_zero rfl rfl, fun n hlo hhi => ?_, ?_, ?_, ?_, ?_, ?_⟩
  · rw [exec_rdRead_of_ge rfl ⟨hlo, hhi⟩ (Nat.zero_le _), report_boundsError]
  · rw [exec_rdSeekback_of_zero rfl rfl, report_boundsError]
  · rw [exec_wrBtb rfl, bwBtb_atReset]
    rfl
  · rw [exec_wrTobytes rfl, bwTobytes_atReset]
    rfl
  · obtain ⟨t, hrun, -, hbytes, -⟩ := idTobytesSerializesBigEndian.2 (State.atReset c draws r inputs) rfl
    exact ⟨t, hrun, idTobytes_zero ▸ hbytes⟩
  · obtain ⟨t, hrun, hsymbols⟩ := idTobase62_spec (s := State.atReset c draws r inputs) rfl hc
    have hzeros : SymbolsEmitted (List.replicate 22 0) (State.atReset c draws r inputs) t :=
      encodeSymbols_idTobytes_zero ▸ hsymbols
    obtain ⟨hsolen, hchars, -⟩ := hzeros
    rw [map_alpha_zeros, List.length_replicate] at hchars
    exact ⟨t, hrun, hsolen, List.map_injective_iff.2 (Option.some_injective _) hchars⟩

end Sys2Proof.Machine
end

section
/-! PROOFS. No command's effect depends on WCAP (10_state.md R28, R120). -/

namespace Sys2Proof.Machine

/-! ### Pieces of pseudocode that do not read WCAP -/

def State.setWcap (c : Word) (s : State) : State := { s with wcap := c }

/-- The same end, with another WCAP. -/
def Result.setWcap {α : Type} (c : Word) : Result α → Result α
  | .done a s => .done a (s.setWcap c)
  | .raised e s => .raised e (s.setWcap c)
  | .refused r => .refused r

/-- From a state with another WCAP, `p` ends in the same way, with that WCAP. -/
def IgnoresWcap {α : Type} (p : State → Result α) : Prop := ∀ c s, p (s.setWcap c) = (p s).setWcap c

theorem IgnoresWcap.bind {α β : Type} {p : State → Result α} {f : α → State → Result β} (hp : IgnoresWcap p)
    (hf : ∀ a, IgnoresWcap (f a)) : IgnoresWcap fun s => (p s).bind f := by
  intro c s
  dsimp only
  rw [hp]
  cases p s with
  | done a u => exact hf a c u
  | raised e u => rfl
  | refused r => rfl

/-- A test that WCAP has no part in, between two such pieces. -/
theorem IgnoresWcap.ite {α : Type} {cond : State → Prop} [DecidablePred cond] {p q : State → Result α}
    (hcond : ∀ c s, cond (s.setWcap c) ↔ cond s) (hp : IgnoresWcap p) (hq : IgnoresWcap q) :
    IgnoresWcap fun s => if cond s then p s else q s := by
  intro c s
  dsimp only
  by_cases h : cond s
  · rw [if_pos h, if_pos ((hcond c s).2 h)]
    exact hp c s
  · rw [if_neg h, if_neg (mt (hcond c s).1 h)]
    exact hq c s

theorem ignoresWcap_raised {α : Type} (e : ErrKind) : IgnoresWcap fun s => (.raised e s : Result α) := fun _ _ => rfl

theorem checkIlen_ignoresWcap : IgnoresWcap checkIlen :=
  .ite (fun _ _ => Iff.rfl) (ignoresWcap_raised _) fun _ _ => rfl

theorem checkSilen_ignoresWcap : IgnoresWcap checkSilen :=
  .ite (fun _ _ => Iff.rfl) (ignoresWcap_raised _) fun _ _ => rfl

theorem brRead_ignoresWcap (n : Nat) : IgnoresWcap (brRead n) :=
  .ite (fun _ _ => Iff.rfl) (ignoresWcap_raised _) fun _ _ => rfl

theorem brSeekback_ignoresWcap : IgnoresWcap brSeekback :=
  .ite (fun _ _ => Iff.rfl) (ignoresWcap_raised _) fun _ _ => rfl

theorem bwWrite_ignoresWcap (n : Nat) (v : Byte) : IgnoresWcap (bwWrite n v) := by
  refine .ite (fun _ _ => Iff.rfl) (ignoresWcap_raised _) fun c s => ?_
  have hcur : (s.setWcap c).wcur = s.wcur := rfl
  by_cases hsome : 0 < n
  · by_cases hnext : 8 < s.wcur.toNat % 8 + n
    · simp only [hcur, if_pos hsome, if_pos hnext]
      rfl
    · simp only [hcur, if_pos hsome, if_neg hnext]
      rfl
  · have hsame : ¬ 8 < s.wcur.toNat % 8 + n := by omega
    simp only [hcur, if_neg hsome, if_neg hsame]
    rfl

theorem settleSymbol_ignoresWcap (raw : Symbol) : IgnoresWcap (settleSymbol raw) :=
  .ite (cond := fun _ => compact raw = true) (fun _ _ => Iff.rfl)
    (brSeekback_ignoresWcap.bind fun _ _ _ => rfl) fun _ _ => rfl

theorem appendSymbol_ignoresWcap (k : Nat) (v : Symbol) : IgnoresWcap (appendSymbol k v) := by
  refine .ite (fun _ _ => Iff.rfl) (ignoresWcap_raised _) fun c s => ?_
  cases alpha (v.setWidth 8) with
  | none => rfl
  | some a => rfl

theorem encodeLoop_ignoresWcap (fuel k : Nat) : IgnoresWcap (encodeLoop fuel k) := by
  induction fuel generalizing k with
  | zero => exact fun _ _ => rfl
  | succ fuel ih =>
    exact .ite (cond := fun s => brHasmore s = true) (fun _ _ => Iff.rfl)
      ((brRead_ignoresWcap 6).bind fun raw => (settleSymbol_ignoresWcap raw).bind fun v =>
        (appendSymbol_ignoresWcap k v).bind fun _ => ih (k + 1)) fun _ _ => rfl

theorem b62Encode_ignoresWcap : IgnoresWcap b62Encode := fun c s =>
  (encodeLoop_ignoresWcap (8 * s.rlen.toNat + 1) 0).bind
    (f := fun k u => .done () { u with solen := BitVec.ofNat 32 k }) (fun _ _ _ => rfl) c s

theorem decodeLoop_ignoresWcap (chars : List Byte) (i : Nat) : IgnoresWcap (decodeLoop chars i) := by
  induction chars generalizing i with
  | nil => exact fun _ _ => rfl
  | cons ch rest ih =>
    intro c s
    simp only [decodeLoop]
    cases dtab ch with
    | none => rfl
    | some x =>
      exact (bwWrite_ignoresWcap (contributedBits x rest.isEmpty s) (x.setWidth 8)).bind (fun _ => ih (i + 1)) c s

theorem b62Decode_ignoresWcap : IgnoresWcap fun s => b62Decode s.silen.toNat s := fun c s =>
  (decodeLoop_ignoresWcap (memRead s.sinChar s.silen.toNat) 0).bind
    (f := fun _ u => .done () (u.emitBytes (bwTobytes u))) (fun _ _ _ => rfl) c (bwInit (6 * s.silen.toNat) s)

/-! ### Commands -/

/-- Every command's pseudocode ignores WCAP; WR_INIT reads it and stores it nowhere (R120). -/
theorem exec_eq_command_ignoresWcap (i : Instr) : ∃ body, IgnoresWcap body ∧ ∀ s, exec i s = command body s := by
  cases i with
  | rdInit => exact ⟨_, checkIlen_ignoresWcap.bind fun _ _ _ => rfl, execRdInit.eq_def⟩
  | rdHasmore => exact ⟨_, fun _ _ => rfl, execRdHasmore.eq_def⟩
  | rdRead n =>
    refine ⟨_, ?_, execRdRead.eq_def n⟩
    exact .ite (cond := fun _ => legalReadCount n = true) (fun _ _ => Iff.rfl)
      ((brRead_ignoresWcap _).bind fun _ _ _ => rfl) (ignoresWcap_raised _)
  | rdSeekback => exact ⟨_, brSeekback_ignoresWcap, execRdSeekback.eq_def⟩
  | wrInit => exact ⟨_, fun _ _ => rfl, execWrInit.eq_def⟩
  | wrWrite n value =>
    refine ⟨_, ?_, execWrWrite.eq_def n value⟩
    exact .ite (cond := fun _ => legalWriteCount n = true) (fun _ _ => Iff.rfl)
      (bwWrite_ignoresWcap _ value) (ignoresWcap_raised _)
  | wrBtb => exact ⟨_, fun _ _ => rfl, execWrBtb.eq_def⟩
  | wrTobytes => exact ⟨_, fun _ _ => rfl, execWrTobytes.eq_def⟩
  | symEnc v =>
    refine ⟨_, fun c s => ?_, execSymEnc.eq_def v⟩
    cases alpha v with
    | none => rfl
    | some a => rfl
  | symDec ch =>
    refine ⟨_, fun c s => ?_, execSymDec.eq_def ch⟩
    cases dtab ch with
    | none => rfl
    | some x => rfl
  | encode =>
    refine ⟨_, checkIlen_ignoresWcap.bind fun _ c s => ?_, execEncode.eq_def⟩
    exact b62Encode_ignoresWcap c (brInit (memRead s.ibufByte s.ilen.toNat) s)
  | decode => exact ⟨_, checkSilen_ignoresWcap.bind fun _ => b62Decode_ignoresWcap, execDecode.eq_def⟩
  | idTobytes => exact ⟨_, fun _ _ => rfl, execIdTobytes.eq_def⟩
  | idFrombytes =>
    refine ⟨_, checkIlen_ignoresWcap.bind fun _ => ?_, execIdFrombytes.eq_def⟩
    exact .ite (fun _ _ => Iff.rfl) (ignoresWcap_raised _) fun _ _ => rfl
  | idTobase62 =>
    refine ⟨_, fun c s => ?_, execIdTobase62.eq_def⟩
    exact b62Encode_ignoresWcap c (brInit (idTobytes s.idHi s.idLo) s)
  | idFrombase62 =>
    refine ⟨_, checkSilen_ignoresWcap.bind fun _ => b62Decode_ignoresWcap.bind fun _ => ?_, execIdFrombase62.eq_def⟩
    exact .ite (fun _ _ => Iff.rfl) (ignoresWcap_raised _) fun _ _ => rfl

theorem command_setWcap {body : State → Result Unit} (hbody : IgnoresWcap body) {s t : State} (c : Word)
    (h : command body s = .next t) : command body (s.setWcap c) = .next (t.setWcap c) := by
  obtain ⟨hf, rfl⟩ | ⟨hf, ⟨u, hu, rfl⟩ | ⟨e, u, hu, rfl⟩⟩ := command_cases h
  · exact command_of_fault (s := s.setWcap c) body hf
  · rw [command_of_not_fault (s := s.setWcap c) body hf, hbody, hu]
    rfl
  · rw [command_of_not_fault (s := s.setWcap c) body hf, hbody, hu]
    rfl

/-- Settles O19: a command is its pseudocode behind the FAULT test, and neither reads WCAP. -/
theorem wcapChangesNoResult : Obligations.WcapChangesNoResult := by
  unfold Obligations.WcapChangesNoResult
  intro i s t c h
  obtain ⟨body, hbody, hexec⟩ := exec_eq_command_ignoresWcap i
  rw [hexec] at h ⊢
  exact command_setWcap hbody c h

end Sys2Proof.Machine
end
